-- ==== Sys2Proof/Word.lean ====
section
/-! DEFINITION. The plain data types the core's values are made of: codes, words, voltages, and pairs indexed by
bank. No arithmetic stands here: it is in Machine/Num.lean and Machine/Params.lean. -/

namespace Sys2Proof

/-- A 16-bit data slot: it holds every RES-bit code (R13, R40). -/
abbrev Code := BitVec 16

/-- A bank's global-offset code, 14 bits whatever RES is (R15). -/
abbrev Gofs := BitVec 14

/-- The 32-bit header word of a request (R33). -/
abbrev Header := BitVec 32

/-- A 24-bit command word (R42). -/
abbrev CmdWord := BitVec 24

/-- One byte of the command word on its way to the transport (R27). -/
abbrev Byte := BitVec 8

/-- The number type `Num` of voltages (R9). Under the exact reference a voltage is `fin q`; the other
constructors are values of the IEEE formats that FLOAT_FMT names (entry 13). -/
inductive Volts where
  /-- a finite number, its exact value -/
  | fin (q : ℚ)
  /-- the zero with a negative sign (IEEE formats only) -/
  | negZero
  /-- positive infinity (IEEE formats only) -/
  | posInf
  /-- negative infinity (IEEE formats only) -/
  | negInf
  /-- not a number (IEEE formats only) -/
  | nan
  deriving DecidableEq, Repr

/-- The two banks (R5 `NBANK` = 2, R10). -/
inductive Bank where
  | b0
  | b1
  deriving DecidableEq, Repr

/-- A channel slot of a bank. R5 allows at most 8 channels; a configuration uses the slots below NCH. -/
abbrev Chan := Fin 8

/-- One value for each bank. -/
structure PerBank (α : Type) where
  /-- bank 0's value -/
  b0 : α
  /-- bank 1's value -/
  b1 : α
  deriving DecidableEq, Repr

/-- One code for each bank and channel: the shape of `S.dac`, `S.off`, `S.gain`, `S.min`, `S.max` (R13, R14). -/
abbrev Table := PerBank (Vector Code 8)

/-- The three register kinds (R8, R35). -/
inductive RegKind where
  | gain
  | offset
  | dac
  deriving DecidableEq, Repr

end Sys2Proof
end

