-- ==== Sys2Proof/Config.lean ====
section
/-! DEFINITION. The configuration record `Cfg` of R5 and the free values. A model of the
core takes `Cfg` as an argument (R5); here it is a field of State that no request writes (entry 1). -/

namespace Sys2Proof

/-- The number format of voltages (R9, P5): exact rationals, the reference, or one of the two IEEE formats. -/
inductive NumFmt where
  | exact
  | binary32
  | binary64
  deriving DecidableEq, Repr

/-- The four chip models (R5 `VARIANT`). No rule reads it: the variant's "channel count" is NCH and its "register
offsets" have no rule (N2). -/
inductive Variant where
  | v0
  | v1
  | v2
  | v3
  deriving DecidableEq, Repr

/-- Which 14-bit inverse C2V uses (P6, I3): the algebraic inverse, the reference, or the printed formula. -/
inductive Inv14 where
  | inverse
  | literal
  deriving DecidableEq, Repr

/-- The readback selector `READ_SEL` (R75), an OPEN parameter: any 16-bit field F for each per-channel name at each
concrete address, and one for each device name, which ignores bank and channel. Where D8's table has no entry (rsel 10
and above, and a per-channel name at an address that is not concrete) R76 raises before it is read (entry 10). -/
structure ReadSel where
  x1a : Table
  x1b : Table
  c : Table
  m : Table
  control : BitVec 16
  ofs0 : BitVec 16
  ofs1 : BitVec 16
  absel0 : BitVec 16
  absel1 : BitVec 16
  gpio : BitVec 16
  deriving DecidableEq, Repr

/-- The configuration record (R5). NCH is held as the index of the last channel, so that it lies in 1..8 by its type
(entry 12). -/
structure Cfg where
  /-- NCH - 1 -/
  lastChan : Fin 8
  /-- the chip model -/
  variant : Variant
  /-- device resolution RES; 14 and 16 are supported -/
  res : Nat
  /-- the range-validation switch VALIDATE -/
  validate : Bool
  /-- DEF_DAC(RES) -/
  defDac : Code
  /-- DEF_OFFSET(RES) -/
  defOffset : Code
  /-- DEF_GAIN(RES) -/
  defGain : Code
  /-- DEF_MIN(RES) -/
  defMin : Code
  /-- DEF_MAX(RES) -/
  defMax : Code
  /-- DEF_GOFS -/
  defGofs : Gofs
  /-- DEF_VREF -/
  defVref : Volts
  /-- the format of Num (FLOAT_FMT) -/
  fmt : NumFmt
  /-- READ_SEL -/
  readSel : ReadSel
  /-- INV14 -/
  inv14 : Inv14
  deriving DecidableEq, Repr

/-- NCH, channels per bank. -/
def Cfg.nch (c : Cfg) : Nat := c.lastChan.val + 1

theorem Cfg.nch_le (c : Cfg) : c.nch ≤ 8 := c.lastChan.isLt

theorem Cfg.nch_pos (c : Cfg) : 0 < c.nch := Nat.succ_pos _

/-- FREE VALUE: what the n-th code entry holds when RES is neither 14 nor 16 (R23; I10 "any value"; entry 4). -/
opaque freeCode : Nat → Code

/-- FREE VALUE: what `S.gofs[b]` holds when RES is neither 14 nor 16 (R23; I10 "any value"; entry 4). -/
opaque freeGofs : Nat → Gofs

end Sys2Proof
end

