-- ==== Sys2Proof/Syntax.lean ====
section
/-! DEFINITION. What can be presented to the core and what it means as text: the selectors of R35 to R39, one constructor
of `Instr` for each row of spec/opcode_table.json, and the raw input before decoding. -/

namespace Sys2Proof

/-- Register-kind field `reg` (R35). -/
inductive RegSel where
  /-- reg = 0 -/
  | unrecognised
  /-- reg = 1 -/
  | gain
  /-- reg = 2 -/
  | offset
  /-- reg = 3 -/
  | dac
  deriving DecidableEq, Repr

/-- Bank selector field `bank` (R36). -/
inductive BankSel where
  | bank0
  | bank1
  /-- BANKALL -/
  | bankAll
  /-- bank = 3, no defined selector -/
  | undefined
  deriving DecidableEq, Repr

/-- Channel selector field `chan` (R37): an index 0..30, in range or not, or ALL_CHANNELS (31). -/
inductive ChanSel where
  | idx (c : Fin 31)
  | all
  deriving DecidableEq, Repr

/-- Readback name field `rsel` (R38). -/
inductive ReadName where
  | x1a
  | x1b
  | c
  | m
  | control
  | ofs0
  | ofs1
  | absel0
  | absel1
  | gpio
  /-- rsel = 10 + n -/
  | unrecognised (n : Fin 6)
  deriving DecidableEq, Repr

/-- One constructor for each row of spec/opcode_table.json: the 17 requests of R34 with the fields and operands their
rows list, and the 16 command-word forms of R42 to R46. -/
inductive Instr where
  | get (reg : RegSel) (bank : BankSel) (chan : ChanSel)
  | set (reg : RegSel) (bank : BankSel) (chan : ChanSel) (d0 : Code)
  | getgofs (bank : BankSel)
  | getbounds (bank : BankSel) (chan : ChanSel)
  | setbounds (bank : BankSel) (chan : ChanSel) (d0 d1 : Code)
  | getref (bank : BankSel)
  | setref (bank : BankSel) (v : Volts)
  | v2c (bank : BankSel) (chan : ChanSel) (v : Volts)
  | c2v (bank : BankSel) (chan : ChanSel) (d0 : Code)
  | encw (reg : RegSel) (bank : BankSel) (chan : ChanSel) (d0 : Code)
  | encr (rsel : ReadName) (bank : BankSel) (chan : ChanSel)
  | write (reg : RegSel) (bank : BankSel) (chan : ChanSel) (d0 : Code)
  | writev (bank : BankSel) (chan : ChanSel) (v : Volts)
  | readreq (rsel : ReadName) (bank : BankSel) (chan : ChanSel)
  | load
  | clear (flag : Bool)
  | reset
  | cwWrDacB0Ch (ccc : BitVec 3) (payload : BitVec 16)
  | cwWrDacB1Ch (ccc : BitVec 3) (payload : BitVec 16)
  | cwWrDacB0All (payload : BitVec 16)
  | cwWrDacB1All (payload : BitVec 16)
  | cwWrDacAllAll (payload : BitVec 16)
  | cwWrOffsetB0Ch (ccc : BitVec 3) (payload : BitVec 16)
  | cwWrOffsetB1Ch (ccc : BitVec 3) (payload : BitVec 16)
  | cwWrOffsetB0All (payload : BitVec 16)
  | cwWrOffsetB1All (payload : BitVec 16)
  | cwWrOffsetAllAll (payload : BitVec 16)
  | cwWrGainB0Ch (ccc : BitVec 3) (payload : BitVec 16)
  | cwWrGainB1Ch (ccc : BitVec 3) (payload : BitVec 16)
  | cwWrGainB0All (payload : BitVec 16)
  | cwWrGainB1All (payload : BitVec 16)
  | cwWrGainAllAll (payload : BitVec 16)
  | cwReadSel (g : BitVec 3) (a : BitVec 6)
  deriving DecidableEq, Repr

/-- What stands on the core's port before decoding: a request (R33, R40), the header word with its three operand
slots, or a command word of the table's CW24 rows (entry 7). -/
inductive Input where
  | request (h : Header) (d0 d1 : Code) (v : Volts)
  | cmdWord (w : CmdWord)
  deriving DecidableEq, Repr

end Sys2Proof
end

