-- ==== Sys2Proof/Decode.lean ====
section
/-! DEFINITION. The decoder of the request port (R33 to R39, R47) and of command words (R42 to R46, R48), the encoder
written from the same tables, and the numbering of spec/opcode_table.json. -/

namespace Sys2Proof

/-- Why a word spells no instruction. -/
inductive DecodeError where
  /-- `op` is 0x00 or 0x12..0x1F (R47) -/
  | reservedOp
  /-- `H[31:19]` is not zero (R47) -/
  | reservedBits
  /-- a command word that is no row of the table: the core never emits it (R48) -/
  | notEmittedWord
  /-- fewer than three bytes of a command word (R42) -/
  | tooShort
  deriving DecidableEq, Repr

/-- The fields of the request header (R33). -/
structure HeaderFields where
  op : BitVec 5
  reg : BitVec 2
  bank : BitVec 2
  chan : BitVec 5
  rsel : BitVec 4
  flag : BitVec 1
  reserved : BitVec 13
  deriving DecidableEq, Repr

/-- The fields' places in the header (R33). -/
def unpackHeader (h : Header) : HeaderFields :=
  { op := h.extractLsb' 0 5, reg := h.extractLsb' 5 2, bank := h.extractLsb' 7 2, chan := h.extractLsb' 9 5,
    rsel := h.extractLsb' 14 4, flag := h.extractLsb' 18 1, reserved := h.extractLsb' 19 13 }

/-- The header with these fields (R33). -/
def packHeader (f : HeaderFields) : Header :=
  f.reserved ++ (f.flag ++ (f.rsel ++ (f.chan ++ (f.bank ++ (f.reg ++ f.op)))))

/-- R35. -/
def RegSel.ofBits (b : BitVec 2) : RegSel :=
  if b = 0 then .unrecognised else if b = 1 then .gain else if b = 2 then .offset else .dac

/-- R35. -/
def RegSel.bits : RegSel → BitVec 2
  | .unrecognised => 0
  | .gain => 1
  | .offset => 2
  | .dac => 3

/-- R36. -/
def BankSel.ofBits (b : BitVec 2) : BankSel :=
  if b = 0 then .bank0 else if b = 1 then .bank1 else if b = 2 then .bankAll else .undefined

/-- R36. -/
def BankSel.bits : BankSel → BitVec 2
  | .bank0 => 0
  | .bank1 => 1
  | .bankAll => 2
  | .undefined => 3

/-- R37. -/
def ChanSel.ofBits (b : BitVec 5) : ChanSel :=
  if h : b.toNat < 31 then .idx ⟨b.toNat, h⟩ else .all

/-- R37. -/
def ChanSel.bits : ChanSel → BitVec 5
  | .idx c => BitVec.ofNat 5 c.val
  | .all => 31

/-- R38. -/
def ReadName.ofBits (b : BitVec 4) : ReadName :=
  match b.toNat with
  | 0 => .x1a
  | 1 => .x1b
  | 2 => .c
  | 3 => .m
  | 4 => .control
  | 5 => .ofs0
  | 6 => .ofs1
  | 7 => .absel0
  | 8 => .absel1
  | 9 => .gpio
  | n => .unrecognised (Fin.ofNat 6 (n - 10))

/-- R38. -/
def ReadName.bits : ReadName → BitVec 4
  | .x1a => 0
  | .x1b => 1
  | .c => 2
  | .m => 3
  | .control => 4
  | .ofs0 => 5
  | .ofs1 => 6
  | .absel0 => 7
  | .absel1 => 8
  | .gpio => 9
  | .unrecognised n => BitVec.ofNat 4 (10 + n.val)

/-- The request that the header's fields and the operands spell (R34). Fields the operation's row does not list are
ignored (R33). -/
def decodeFields (f : HeaderFields) (d0 d1 : Code) (v : Volts) : Except DecodeError Instr :=
  let reg := RegSel.ofBits f.reg
  let bank := BankSel.ofBits f.bank
  let chan := ChanSel.ofBits f.chan
  let rsel := ReadName.ofBits f.rsel
  if f.reserved = 0 then
    match f.op.toNat with
    | 0x01 => .ok (.get reg bank chan)
    | 0x02 => .ok (.set reg bank chan d0)
    | 0x03 => .ok (.getgofs bank)
    | 0x04 => .ok (.getbounds bank chan)
    | 0x05 => .ok (.setbounds bank chan d0 d1)
    | 0x06 => .ok (.getref bank)
    | 0x07 => .ok (.setref bank v)
    | 0x08 => .ok (.v2c bank chan v)
    | 0x09 => .ok (.c2v bank chan d0)
    | 0x0A => .ok (.encw reg bank chan d0)
    | 0x0B => .ok (.encr rsel bank chan)
    | 0x0C => .ok (.write reg bank chan d0)
    | 0x0D => .ok (.writev bank chan v)
    | 0x0E => .ok (.readreq rsel bank chan)
    | 0x0F => .ok .load
    | 0x10 => .ok (.clear (f.flag = 1))
    | 0x11 => .ok .reset
    | _ => .error .reservedOp
  else .error .reservedBits

/-- Decoding a request (R33, R34, R47). -/
def decodeRequest (h : Header) (d0 d1 : Code) (v : Volts) : Except DecodeError Instr :=
  decodeFields (unpackHeader h) d0 d1 v

/-- Decoding a command word (R42 to R46, R48; the CW24 rows of spec/opcode_table.json). -/
def decodeCmdWord (w : CmdWord) : Except DecodeError Instr :=
  let mode := w.extractLsb' 22 2
  let group := w.extractLsb' 19 3
  let ccc := w.extractLsb' 16 3
  let payload := w.extractLsb' 0 16
  match mode.toNat, group.toNat, ccc.toNat with
  | 3, 1, _ => .ok (.cwWrDacB0Ch ccc payload)
  | 3, 2, _ => .ok (.cwWrDacB1Ch ccc payload)
  | 3, 0, 1 => .ok (.cwWrDacB0All payload)
  | 3, 0, 2 => .ok (.cwWrDacB1All payload)
  | 3, 0, 0 => .ok (.cwWrDacAllAll payload)
  | 2, 1, _ => .ok (.cwWrOffsetB0Ch ccc payload)
  | 2, 2, _ => .ok (.cwWrOffsetB1Ch ccc payload)
  | 2, 0, 1 => .ok (.cwWrOffsetB0All payload)
  | 2, 0, 2 => .ok (.cwWrOffsetB1All payload)
  | 2, 0, 0 => .ok (.cwWrOffsetAllAll payload)
  | 1, 1, _ => .ok (.cwWrGainB0Ch ccc payload)
  | 1, 2, _ => .ok (.cwWrGainB1Ch ccc payload)
  | 1, 0, 1 => .ok (.cwWrGainB0All payload)
  | 1, 0, 2 => .ok (.cwWrGainB1All payload)
  | 1, 0, 0 => .ok (.cwWrGainAllAll payload)
  | 0, 0, 5 =>
    if w.extractLsb' 0 7 = 0 then .ok (.cwReadSel (w.extractLsb' 13 3) (w.extractLsb' 7 6))
    else .error .notEmittedWord
  | _, _, _ => .error .notEmittedWord

/-- Decoding whatever stands on the port. -/
def decode : Input → Except DecodeError Instr
  | .request h d0 d1 v => decodeRequest h d0 d1 v
  | .cmdWord w => decodeCmdWord w

/-- The bytes of a command word in the order they are sent, most significant first (R27). -/
def CmdWord.bytes (w : CmdWord) : List Byte :=
  [w.extractLsb' 16 8, w.extractLsb' 8 8, w.extractLsb' 0 8]

/-- A command word read from the front of a byte sequence (R27, R42), with the rest. -/
def decodeBytes : List Byte → Except DecodeError (Instr × List Byte)
  | hi :: mid :: lo :: rest => (decodeCmdWord (hi ++ (mid ++ lo))).map (fun i => (i, rest))
  | _ => .error .tooShort

/-- A request header whose row lists no further field: only `op` is set (R50 "Fields and operands not written are
zero"). -/
def headerOf (op : BitVec 5) : HeaderFields :=
  { op := op, reg := 0, bank := 0, chan := 0, rsel := 0, flag := 0, reserved := 0 }

/-- The fields GET, SET, ENCW and WRITE list (R34). -/
def headerReg (op : BitVec 5) (reg : RegSel) (bank : BankSel) (chan : ChanSel) : HeaderFields :=
  { headerOf op with reg := reg.bits, bank := bank.bits, chan := chan.bits }

/-- The fields the requests on one address list (R34). -/
def headerAddr (op : BitVec 5) (bank : BankSel) (chan : ChanSel) : HeaderFields :=
  { headerOf op with bank := bank.bits, chan := chan.bits }

/-- The fields ENCR and READREQ list (R34). -/
def headerRead (op : BitVec 5) (rsel : ReadName) (bank : BankSel) (chan : ChanSel) : HeaderFields :=
  { headerOf op with rsel := rsel.bits, bank := bank.bits, chan := chan.bits }

/-- A request with these header fields and operands. -/
def requestOf (f : HeaderFields) (d0 : Code := 0) (d1 : Code := 0) (v : Volts := .fin 0) : Input :=
  .request (packHeader f) d0 d1 v

/-- A write word to one channel of a bank: MODE, 0b001 or 0b010, ccc, PAYLOAD (R42 to R44). -/
def cmdWordCh (mode : BitVec 2) (group : BitVec 3) (ccc : BitVec 3) (payload : BitVec 16) : Input :=
  .cmdWord (mode ++ (group ++ (ccc ++ payload)))

/-- The encoding of an instruction: the header of R33 with its operands, or the word of R42 to R46. -/
def encode : Instr → Input
  | .get reg bank chan => requestOf (headerReg 0x01 reg bank chan)
  | .set reg bank chan d0 => requestOf (headerReg 0x02 reg bank chan) d0
  | .getgofs bank => requestOf { headerOf 0x03 with bank := bank.bits }
  | .getbounds bank chan => requestOf (headerAddr 0x04 bank chan)
  | .setbounds bank chan d0 d1 => requestOf (headerAddr 0x05 bank chan) d0 d1
  | .getref bank => requestOf { headerOf 0x06 with bank := bank.bits }
  | .setref bank v => requestOf { headerOf 0x07 with bank := bank.bits } 0 0 v
  | .v2c bank chan v => requestOf (headerAddr 0x08 bank chan) 0 0 v
  | .c2v bank chan d0 => requestOf (headerAddr 0x09 bank chan) d0
  | .encw reg bank chan d0 => requestOf (headerReg 0x0A reg bank chan) d0
  | .encr rsel bank chan => requestOf (headerRead 0x0B rsel bank chan)
  | .write reg bank chan d0 => requestOf (headerReg 0x0C reg bank chan) d0
  | .writev bank chan v => requestOf (headerAddr 0x0D bank chan) 0 0 v
  | .readreq rsel bank chan => requestOf (headerRead 0x0E rsel bank chan)
  | .load => requestOf (headerOf 0x0F)
  | .clear flag => requestOf { headerOf 0x10 with flag := BitVec.ofBool flag }
  | .reset => requestOf (headerOf 0x11)
  | .cwWrDacB0Ch ccc payload => cmdWordCh 3 1 ccc payload
  | .cwWrDacB1Ch ccc payload => cmdWordCh 3 2 ccc payload
  | .cwWrDacB0All payload => cmdWordCh 3 0 1 payload
  | .cwWrDacB1All payload => cmdWordCh 3 0 2 payload
  | .cwWrDacAllAll payload => cmdWordCh 3 0 0 payload
  | .cwWrOffsetB0Ch ccc payload => cmdWordCh 2 1 ccc payload
  | .cwWrOffsetB1Ch ccc payload => cmdWordCh 2 2 ccc payload
  | .cwWrOffsetB0All payload => cmdWordCh 2 0 1 payload
  | .cwWrOffsetB1All payload => cmdWordCh 2 0 2 payload
  | .cwWrOffsetAllAll payload => cmdWordCh 2 0 0 payload
  | .cwWrGainB0Ch ccc payload => cmdWordCh 1 1 ccc payload
  | .cwWrGainB1Ch ccc payload => cmdWordCh 1 2 ccc payload
  | .cwWrGainB0All payload => cmdWordCh 1 0 1 payload
  | .cwWrGainB1All payload => cmdWordCh 1 0 2 payload
  | .cwWrGainAllAll payload => cmdWordCh 1 0 0 payload
  | .cwReadSel g a => .cmdWord ((0 : BitVec 2) ++ ((5 : BitVec 6) ++ (g ++ (a ++ (0 : BitVec 7)))))

/-- The input whose bits are `w` in the numbering of spec/opcode_table.json: up to 24 bits a command word; above that
a request, whose operand slots D0 and D1 lie above the header's 32 bits; V has no bits and is 0 (entry 21). -/
def inputOfTableWord (nbits w : Nat) : Input :=
  let w := w % 2 ^ nbits
  if nbits ≤ 24 then .cmdWord (BitVec.ofNat 24 w)
  else .request (BitVec.ofNat 32 w) (BitVec.ofNat 16 (w / 2 ^ 32)) (BitVec.ofNat 16 (w / 2 ^ 48)) (.fin 0)

/-- The instruction the decoder reads from a table word (none where it refuses). -/
def decodeTableWord (nbits w : Nat) : Option Instr :=
  (decode (inputOfTableWord nbits w)).toOption

end Sys2Proof
end

