-- ==== Sys2Proof/Machine/Num.lean ====
section
/-! DEFINITION. Arithmetic in `Num` (R7, R9): exact rationals, or each operation rounded to nearest-even in binary32 or
binary64. The IEEE details that R9 does not spell out (widths, subnormals, overflow, signs of zero) are those of
IEEE 754 (entry 13). -/

namespace Sys2Proof

/-- The exact value of a finite voltage; 0 for the others. -/
def Volts.toRat : Volts → ℚ
  | .fin q => q
  | _ => 0

/-- The voltage is zero, of either sign. -/
def Volts.isZero : Volts → Bool
  | .fin q => q = 0
  | .negZero => true
  | _ => false

/-- The sign bit: negative numbers, negative zero and negative infinity. -/
def Volts.negative : Volts → Bool
  | .fin q => q < 0
  | .negZero => true
  | .negInf => true
  | _ => false

/-- An integer, converted exactly (41_transfer.md: "Integer inputs such as codes are converted to `Num` exactly"). -/
def Volts.ofInt (z : Int) : Volts := .fin z

/-- `2^e` for an integer exponent. -/
def ratPow2 : Int → ℚ
  | .ofNat n => (2 ^ n : Nat)
  | .negSucc n => 1 / (2 ^ (n + 1) : Nat)

/-- The integer nearest to `q ≥ 0`, ties to even. -/
def roundHalfEven (q : ℚ) : Nat :=
  let n := q.num.toNat / q.den
  let r := q.num.toNat % q.den
  if 2 * r < q.den then n
  else if q.den < 2 * r then n + 1
  else if n % 2 = 0 then n else n + 1

/-- The exponent `e` with `2^e ≤ q < 2^(e+1)`, for `q > 0`. -/
def floorLog2 (q : ℚ) : Int :=
  let e := (q.num.toNat.log2 : Int) - (q.den.log2 : Int)
  if q < ratPow2 e then e - 1 else e

/-- Rounding to nearest-even in a binary format of `prec` significand bits and exponents `emin..emax`. -/
def roundBinary (prec : Nat) (emin emax : Int) (q : ℚ) : Volts :=
  if q = 0 then .fin 0
  else
    let a := if q < 0 then -q else q
    let ulp := ratPow2 (max (floorLog2 a) emin - (prec - 1))
    let v := (roundHalfEven (a / ulp) : ℚ) * ulp
    if ratPow2 (emax + 1) ≤ v then (if q < 0 then .negInf else .posInf)
    else if v = 0 then (if q < 0 then .negZero else .fin 0)
    else .fin (if q < 0 then -v else v)

/-- Rounding an exact result to the format: the identity under the exact reference (R9). -/
def NumFmt.round : NumFmt → ℚ → Volts
  | .exact, q => .fin q
  | .binary32, q => roundBinary 24 (-126) 127 q
  | .binary64, q => roundBinary 53 (-1022) 1023 q

/-- A zero of the given sign; ℚ has only one. -/
def NumFmt.zero (f : NumFmt) (neg : Bool) : Volts :=
  if neg && f != .exact then .negZero else .fin 0

/-- An infinity of the given sign. -/
def Volts.inf (neg : Bool) : Volts := if neg then .negInf else .posInf

/-- Change of sign. -/
def NumFmt.neg (f : NumFmt) : Volts → Volts
  | .fin q => if q = 0 then f.zero true else .fin (-q)
  | .negZero => .fin 0
  | .posInf => .negInf
  | .negInf => .posInf
  | .nan => .nan

/-- Addition, rounded once. -/
def NumFmt.add (f : NumFmt) : Volts → Volts → Volts
  | .nan, _ => .nan
  | _, .nan => .nan
  | .posInf, .negInf => .nan
  | .negInf, .posInf => .nan
  | .posInf, _ => .posInf
  | _, .posInf => .posInf
  | .negInf, _ => .negInf
  | _, .negInf => .negInf
  | .negZero, .negZero => .negZero
  | a, b => f.round (a.toRat + b.toRat)

/-- Subtraction, rounded once. -/
def NumFmt.sub (f : NumFmt) (a b : Volts) : Volts := f.add a (f.neg b)

/-- Multiplication, rounded once. -/
def NumFmt.mul (f : NumFmt) (a b : Volts) : Volts :=
  let neg := a.negative != b.negative
  match a, b with
  | .nan, _ => .nan
  | _, .nan => .nan
  | .posInf, b => if b.isZero then .nan else .inf neg
  | .negInf, b => if b.isZero then .nan else .inf neg
  | a, .posInf => if a.isZero then .nan else .inf neg
  | a, .negInf => if a.isZero then .nan else .inf neg
  | a, b => if a.isZero || b.isZero then f.zero neg else f.round (a.toRat * b.toRat)

/-- Division, rounded once. The rules fault before any division by zero (R64). -/
def NumFmt.div (f : NumFmt) (a b : Volts) : Volts :=
  let neg := a.negative != b.negative
  match a, b with
  | .nan, _ => .nan
  | _, .nan => .nan
  | .posInf, .posInf => .nan
  | .posInf, .negInf => .nan
  | .negInf, .posInf => .nan
  | .negInf, .negInf => .nan
  | .posInf, _ => .inf neg
  | .negInf, _ => .inf neg
  | _, .posInf => f.zero neg
  | _, .negInf => f.zero neg
  | a, b =>
    if b.isZero then (if a.isZero then .nan else .inf neg)
    else if a.isZero then f.zero neg
    else f.round (a.toRat / b.toRat)

/-- `floor(clamp(x, lo, hi))` (R7, R64): an infinity clamps to a bound; none for NaN. -/
def Volts.clampFloor (lo hi : Nat) : Volts → Option Int
  | .nan => none
  | .posInf => some hi
  | .negInf => some lo
  | .negZero => some (min (max 0 (lo : ℚ)) hi).floor
  | .fin q => some (min (max q (lo : ℚ)) hi).floor

/-- An operand V as a Num of the format (R40): a rational is rounded to an IEEE format; under the exact reference
only rationals are Num (entry 14). -/
def NumFmt.accept : NumFmt → Volts → Option Volts
  | .exact, .fin q => some (.fin q)
  | .exact, _ => none
  | f, .fin q => some (f.round q)
  | _, v => some v

/-- The voltage is a Num of the format: a rational, or a value the IEEE format holds. -/
def NumFmt.admits (f : NumFmt) (v : Volts) : Bool := f.accept v = some v

end Sys2Proof
end

