-- ==== Sys2Proof/Machine/Params.lean ====
section
/-! DEFINITION. Derived constants of the configuration (R6, R5), masking, payload alignment and the readback frame (R7, R45, R46), and the set of
command words the core can emit (R48). -/

namespace Sys2Proof

/-- RES is one of the two supported resolutions (R5, R84). -/
def Cfg.supported (c : Cfg) : Bool := c.res == 14 || c.res == 16

/-- `MASK_R = 2^RES - 1` (R6). -/
def Cfg.maskR (c : Cfg) : Nat := 2 ^ c.res - 1

/-- `HALF = 2^(RES-1)` (R6). -/
def Cfg.half (c : Cfg) : Nat := 2 ^ (c.res - 1)

/-- `K`, the global-offset multiplier: 4 for RES 16, 1 for RES 14 (R6). -/
def Cfg.k (c : Cfg) : Nat := if c.res = 16 then 4 else 1

/-- `DEVICE_MIN` (R5, R64). -/
def Cfg.deviceMin (_ : Cfg) : Nat := 0

/-- `DEVICE_MAX = 2^RES - 1` (R5, R64). -/
def Cfg.deviceMax (c : Cfg) : Nat := 2 ^ c.res - 1

/-- `mask_RES` (R7). -/
def Cfg.mask (c : Cfg) (d : Code) : Code := BitVec.ofNat 16 (d.toNat % 2 ^ c.res)

/-- PAYLOAD assembly (R45): unshifted for RES 16, masked and shifted left by 2 for RES 14. -/
def Cfg.payload (c : Cfg) (d : Code) : BitVec 16 :=
  if c.res = 14 then BitVec.ofNat 16 (d.toNat % 2 ^ 14) <<< 2 else d

/-- A selector field of the recommended form, `F = (F[15:13] << 13) | (F[12:7] << 7)` (R75). -/
def readSelField (g : BitVec 3) (a : BitVec 6) : BitVec 16 := g ++ (a ++ (0 : BitVec 7))

/-- The frame of a readback request around the selector field F (R46). -/
def readWord (f : BitVec 16) : CmdWord := (0b00 : BitVec 2) ++ ((0b000101 : BitVec 6) ++ f)

/-- The address field of a register write is one the core uses (R44, R48). -/
def Cfg.addrUsed (c : Cfg) (addr : BitVec 6) : Bool :=
  addr.toNat ≤ 2 || (8 ≤ addr.toNat && addr.toNat < 8 + c.nch) || (16 ≤ addr.toNat && addr.toNat < 16 + c.nch)

/-- The command word is none of those the core never emits (R48). A register write is emitted only under a supported
resolution (R73; entry 8). -/
def Cfg.emits (c : Cfg) (w : CmdWord) : Bool :=
  if w.extractLsb' 22 2 = 0 then
    w.extractLsb' 16 6 = 5 && w.extractLsb' 0 7 = 0
  else
    c.supported && c.addrUsed (w.extractLsb' 16 6) && (c.res != 14 || w.extractLsb' 0 2 = 0)

end Sys2Proof
end

