-- ==== Sys2Proof/Machine/Standard.lean ====
section
/-! DEFINITION. The values the spec recommends for the OPEN parameters (R5, R22, R75), as standard configurations. -/

namespace Sys2Proof

/-- The recommended fields of a per-channel readback name (R75): G in F[15:13], the ADDR code of R44 in F[12:7]. -/
def ReadSel.channelFields (g : BitVec 3) : Table :=
  { b0 := Vector.ofFn (fun c : Chan => readSelField g (BitVec.ofNat 6 (0x08 + c.val))),
    b1 := Vector.ofFn (fun c : Chan => readSelField g (BitVec.ofNat 6 (0x10 + c.val))) }

/-- The recommended READ_SEL table (R75). -/
def ReadSel.recommended : ReadSel :=
  { x1a := ReadSel.channelFields 0b000, x1b := ReadSel.channelFields 0b001,
    c := ReadSel.channelFields 0b010, m := ReadSel.channelFields 0b011,
    control := readSelField 0b100 0b000001, ofs0 := readSelField 0b100 0b000010,
    ofs1 := readSelField 0b100 0b000011, absel0 := readSelField 0b100 0b000110,
    absel1 := readSelField 0b100 0b000111, gpio := readSelField 0b100 0b001011 }

/-- A 16-bit configuration with R5's and R22's recommended values. -/
def Cfg.standard16 (variant : Variant) (lastChan : Fin 8) (validate : Bool) : Cfg :=
  { lastChan := lastChan, variant := variant, res := 16, validate := validate,
    defDac := 0x8000, defOffset := 0x8000, defGain := 0xFFFF, defMin := 0, defMax := 0xFFFF,
    defGofs := 0x2000, defVref := .fin 5, fmt := .exact, readSel := ReadSel.recommended, inv14 := .inverse }

/-- A 14-bit configuration with R5's and R22's recommended values. -/
def Cfg.standard14 (variant : Variant) (lastChan : Fin 8) (validate : Bool) : Cfg :=
  { lastChan := lastChan, variant := variant, res := 14, validate := validate,
    defDac := 0x2000, defOffset := 0x2000, defGain := 0x3FFF, defMin := 0, defMax := 0x3FFF,
    defGofs := 0x2000, defVref := .fin 5, fmt := .exact, readSel := ReadSel.recommended, inv14 := .inverse }

/-- The configuration of `State.reset`: V0 (AD5360), 16 bits, 8 channels per bank, validation off (entry 2). -/
def Cfg.standard : Cfg := Cfg.standard16 .v0 7 false

end Sys2Proof
end

