-- ==== Sys2Proof/Machine/Tables.lean ====
section
/-! DEFINITION. Reading and writing one entry of a pair of banks and of a code table (R8, R26, R28). -/

namespace Sys2Proof

/-- The same value for both banks. -/
def PerBank.both {α : Type} (x : α) : PerBank α := { b0 := x, b1 := x }

/-- One bank's entry. -/
def PerBank.read {α : Type} (p : PerBank α) (b : Bank) : α :=
  match b with
  | .b0 => p.b0
  | .b1 => p.b1

/-- One bank's entry replaced. -/
def PerBank.write {α : Type} (p : PerBank α) (b : Bank) (x : α) : PerBank α :=
  match b with
  | .b0 => { p with b0 := x }
  | .b1 => { p with b1 := x }

/-- The same code for every bank and channel. -/
def Table.const (v : Code) : Table := PerBank.both (Vector.replicate 8 v)

/-- The n-th table with entries of no defined value (R23; entry 4). -/
def Table.free (n : Nat) : Table :=
  { b0 := Vector.ofFn (fun c : Fin 8 => freeCode (16 * n + c.val)),
    b1 := Vector.ofFn (fun c : Fin 8 => freeCode (16 * n + 8 + c.val)) }

/-- `S.x[b][c]` (R8). -/
def Table.at (t : Table) (b : Bank) (c : Chan) : Code := (t.read b)[c.val]'c.isLt

/-- `S.x[b][c] <- v` (R8). -/
def Table.put (t : Table) (b : Bank) (c : Chan) (v : Code) : Table :=
  t.write b ((t.read b).set c.val v c.isLt)

/-- The same code written to every listed entry (R52, R54). -/
def Table.fill (t : Table) (ts : List (Bank × Chan)) (v : Code) : Table :=
  ts.foldl (fun t p => Table.put t p.1 p.2 v) t

end Sys2Proof
end

