-- ==== Sys2Proof/Machine/State.lean ====
section
/-! DEFINITION. The state of the core (10_state.md), the reasons a step can stop, the state after construction (R96) for
any configuration, and `State.reset`, the one for the standard configuration. -/

namespace Sys2Proof.Machine

/-- One entry of the output history (R16): each stands for one call to the transport (R93). -/
inductive Event where
  /-- `sendCommand(word)` -/
  | cmd (word : CmdWord)
  /-- `pulseLoad()` -/
  | loadPulse
  /-- `pulseReset()` -/
  | resetPulse
  /-- `setClear(active)` -/
  | clear (active : Bool)
  deriving DecidableEq, Repr

/-- The fault reasons (R17, R86). -/
inductive Fault where
  /-- Raised by V2C and WRITEV (R64, R86), and by C2V for a NaN result under FLOAT_FMT (R9, I7; entry 15). It is recorded in the fault mark and the result, and the core goes on (R91),
  so no step stops with it: safe, since the state after it is the spec's own (entry 18). -/
  | numericDomain
  deriving DecidableEq, Repr

/-- Why a step has no meaning. -/
inductive Refusal where
  /-- Raised by an arm of `exec` whose instruction has no meaning yet; none is left. Safe: nothing is claimed. -/
  | notModelled (mnemonic : String)
  /-- Raised for a command word the core never emits (R48; I5 "refuse"). Safe: the chip's reaction is out of scope. -/
  | notEmitted
  /-- Raised by SETREF, V2C and WRITEV for an operand V that is no Num of the configured format (R9, R40): no host can
  present it. Safe: nothing is claimed (entry 14). -/
  | operandNotNum
  deriving DecidableEq, Repr

/-- The error taxonomy (R84). -/
inductive ErrKind where
  | invalidAddress
  | invalidRegisterSelector
  | outOfRange
  | unsupportedResolution
  deriving DecidableEq, Repr

/-- A result value (R34, column "result value"). -/
inductive Value where
  /-- `()` -/
  | unit
  /-- a code -/
  | code (c : Code)
  /-- a 14-bit code -/
  | gofs (g : Gofs)
  /-- `(min, max)` -/
  | bounds (lo hi : Code)
  /-- a Num -/
  | num (v : Volts)
  /-- a 24-bit word -/
  | word (w : CmdWord)
  deriving DecidableEq, Repr

/-- What the result port shows when a request has ended (R41, D26). A value stands only with status 0. -/
inductive Result where
  | ok (v : Value)
  | err (e : ErrKind)
  | fault (f : Fault)
  | illegalRequest
  deriving DecidableEq, Repr

/-- The state of the core. -/
structure State where
  /-- the configuration record; no request writes it (R5, R20; entry 1) -/
  cfg : Cfg
  /-- `S.dac` (R13) -/
  dac : Table
  /-- `S.off` (R13) -/
  off : Table
  /-- `S.gain` (R13) -/
  gain : Table
  /-- `S.min` (R14) -/
  min : Table
  /-- `S.max` (R14) -/
  max : Table
  /-- `S.gofs` (R15) -/
  gofs : PerBank Gofs
  /-- `S.vref` (R15) -/
  vref : PerBank Volts
  /-- `S.events` (R16), oldest first -/
  events : List Event
  /-- `S.fault` (R17) -/
  fault : Option Fault
  /-- `S.refused` (R17) -/
  refused : Bool
  /-- the result port (R41): what the last request ended with, none before the first (entry 6) -/
  result : Option Result
  /-- the host's side of the request port: what it has still to present, next first (R94; entry 5) -/
  inputs : List Input
  deriving DecidableEq, Repr

/-- The reset value of a code table (R22), or no defined value when RES is not supported (R23). -/
def initialTable (c : Cfg) (n : Nat) (v : Code) : Table :=
  if c.supported then Table.const v else Table.free n

/-- Construction with configuration `c` (R96): R22's values, or R23's when RES is neither 14 nor 16. -/
def State.construct (c : Cfg) : State :=
  { cfg := c,
    dac := initialTable c 0 c.defDac,
    off := initialTable c 1 c.defOffset,
    gain := initialTable c 2 c.defGain,
    min := initialTable c 3 c.defMin,
    max := initialTable c 4 c.defMax,
    gofs := if c.supported then PerBank.both c.defGofs else { b0 := freeGofs 0, b1 := freeGofs 1 },
    vref := PerBank.both c.defVref,
    events := [],
    fault := none,
    refused := false,
    result := none,
    inputs := [] }

/-- The machine right after reset: construction (R96) with the standard configuration (entry 2). -/
def State.reset : State := State.construct Cfg.standard

end Sys2Proof.Machine
end

