-- ==== Sys2Proof/Machine/Operands.lean ====
section
/-! DEFINITION. The operand forms: which register a `reg` field names (R35), the address classes and their targets (R52),
the address codes of a command word (R70), and the readback names (R38, R75). -/

namespace Sys2Proof

open Machine

/-- The class of a bank selector and a channel selector (R52). -/
inductive AddrClass where
  /-- CONCRETE(b, c) -/
  | concrete (b : Bank) (c : Chan)
  /-- BROADCAST(0) or BROADCAST(1) -/
  | broadcastBank (b : Bank)
  /-- BROADCAST(2) -/
  | broadcastAll
  /-- INVALID -/
  | invalid
  deriving DecidableEq, Repr

/-- `kind(reg)` (R52); none for reg = 0 (R35). -/
def RegSel.kind : RegSel → Option RegKind
  | .unrecognised => none
  | .gain => some .gain
  | .offset => some .offset
  | .dac => some .dac

/-- The bank a selector names where one bank is required (R55, R58, R59). -/
def BankSel.single : BankSel → Option Bank
  | .bank0 => some .b0
  | .bank1 => some .b1
  | _ => none

/-- The class of a channel index on one bank: below NCH, or invalid (R52, R37). -/
def classifyIdx (cfg : Cfg) (b : Bank) (c : Fin 31) : AddrClass :=
  if h : c.val < cfg.nch then .concrete b ⟨c.val, Nat.lt_of_lt_of_le h cfg.nch_le⟩ else .invalid

/-- `class(bank, chan)` (R52). -/
def classify (cfg : Cfg) (bank : BankSel) (chan : ChanSel) : AddrClass :=
  match bank, chan with
  | .undefined, _ => .invalid
  | .bank0, .all => .broadcastBank .b0
  | .bank1, .all => .broadcastBank .b1
  | .bankAll, .all => .broadcastAll
  | .bank0, .idx c => classifyIdx cfg .b0 c
  | .bank1, .idx c => classifyIdx cfg .b1 c
  | .bankAll, .idx _ => .invalid

/-- The channels of a bank, 0..NCH-1. -/
def channels (cfg : Cfg) : List Chan := (List.finRange 8).filter (fun c => c.val < cfg.nch)

/-- The entries of one bank. -/
def bankTargets (cfg : Cfg) (b : Bank) : List (Bank × Chan) := (channels cfg).map (fun c => (b, c))

/-- The entries of both banks. -/
def allTargets (cfg : Cfg) : List (Bank × Chan) := bankTargets cfg .b0 ++ bankTargets cfg .b1

/-- `targets(bank, chan)` (R52); none for an invalid address. -/
def targets (cfg : Cfg) : AddrClass → List (Bank × Chan)
  | .concrete b c => [(b, c)]
  | .broadcastBank b => bankTargets cfg b
  | .broadcastAll => allTargets cfg
  | .invalid => []

/-- `addrcode(bank, chan)` (R70). -/
def addrcode : AddrClass → Option (BitVec 6)
  | .concrete .b0 c => some (BitVec.ofNat 6 (0x08 + c.val))
  | .concrete .b1 c => some (BitVec.ofNat 6 (0x10 + c.val))
  | .broadcastBank .b0 => some 0x01
  | .broadcastBank .b1 => some 0x02
  | .broadcastAll => some 0x00
  | .invalid => none

/-- The MODE code of a register write (R43); equal to `reg` (R35, R71). -/
def RegKind.mode : RegKind → BitVec 2
  | .gain => 0b01
  | .offset => 0b10
  | .dac => 0b11

/-- The fields of a per-channel readback name, one for each concrete address (R75); none for the other names. -/
def ReadName.perChannel (t : ReadSel) : ReadName → Option Table
  | .x1a => some t.x1a
  | .x1b => some t.x1b
  | .c => some t.c
  | .m => some t.m
  | _ => none

/-- The field of a device readback name, which ignores bank and channel (R75); none for the other names. -/
def ReadName.device (t : ReadSel) : ReadName → Option (BitVec 16)
  | .control => some t.control
  | .ofs0 => some t.ofs0
  | .ofs1 => some t.ofs1
  | .absel0 => some t.absel0
  | .absel1 => some t.absel1
  | .gpio => some t.gpio
  | _ => none

/-- `READ_SEL(rsel, bank, chan)` with the errors of R76: an unrecognised name, or a per-channel name at an address
that is not concrete. -/
def readSel (t : ReadSel) (rsel : ReadName) (cls : AddrClass) : Except ErrKind (BitVec 16) :=
  match rsel.perChannel t, rsel.device t with
  | some fields, _ =>
    match cls with
    | .concrete b c => .ok (fields.at b c)
    | _ => .error .invalidAddress
  | none, some f => .ok f
  | none, none => .error .invalidRegisterSelector

end Sys2Proof
end

