-- ==== Sys2Proof/Machine/Ops.lean ====
section
/-! DEFINITION. The named operations on the state: reading and writing the store (R8, R26, R28), appending an event (R16),
and the four ways a request ends (R8): ok, raise, fault, refuse. The core has no trap entry and no trap return (R90,
R91): `raise`, `numericDomain` and `illegalRequest` are what it has in their place. -/

namespace Sys2Proof.Machine

/-- The outcome of a step. -/
abbrev Out := Host.Outcome State Fault Refusal

/-- `store(kind, _, _)` (R13). -/
def State.store (s : State) : RegKind → Table
  | .dac => s.dac
  | .offset => s.off
  | .gain => s.gain

/-- The table of one kind replaced; the tables are independent (R13). -/
def State.setStore (s : State) (k : RegKind) (t : Table) : State :=
  match k with
  | .dac => { s with dac := t }
  | .offset => { s with off := t }
  | .gain => { s with gain := t }

/-- `for (b, c) in targets: store(kind, b, c) <- v` (R54, R78). -/
def State.storeAll (s : State) (k : RegKind) (cls : AddrClass) (v : Code) : State :=
  s.setStore k ((s.store k).fill (targets s.cfg cls) v)

/-- `S.min[b][c] <- lo; S.max[b][c] <- hi` (R57). -/
def State.setBounds (s : State) (b : Bank) (c : Chan) (lo hi : Code) : State :=
  { s with min := s.min.put b c lo, max := s.max.put b c hi }

/-- `S.vref[b] <- v` (R59). -/
def State.setVref (s : State) (b : Bank) (v : Volts) : State :=
  { s with vref := s.vref.write b v }

/-- `emit(ev)` (R8, R16). -/
def State.emit (s : State) (ev : Event) : State := { s with events := s.events ++ [ev] }

/-- The result port written (R41). -/
def State.finish (s : State) (r : Result) : State := { s with result := some r }

/-- Every store entry back to its default (R83). -/
def State.restore (s : State) : State :=
  { s with
    dac := s.dac.fill (allTargets s.cfg) s.cfg.defDac,
    off := s.off.fill (allTargets s.cfg) s.cfg.defOffset,
    gain := s.gain.fill (allTargets s.cfg) s.cfg.defGain,
    min := s.min.fill (allTargets s.cfg) s.cfg.defMin,
    max := s.max.fill (allTargets s.cfg) s.cfg.defMax,
    gofs := PerBank.both s.cfg.defGofs,
    vref := PerBank.both s.cfg.defVref }

/-- `return ok(v)` (R8). -/
def ok (v : Value) (s : State) : Out := .next (s.finish (.ok v))

/-- `raise E`: the status, and nothing else changes (R8, R85). -/
def raise (e : ErrKind) (s : State) : Out := .next (s.finish (.err e))

/-- `fault NumericDomain`: the fault mark and the status (R8, R86). The core goes on (R91). -/
def numericDomain (s : State) : Out :=
  .next (({ s with fault := some .numericDomain } : State).finish (.fault .numericDomain))

/-- `refuse`: the refusal mark and status 6 (R8, R47, R87). The core goes on (R91). -/
def illegalRequest (s : State) : Out :=
  .next (({ s with refused := true } : State).finish .illegalRequest)

/-- An operand V taken as a Num of the configured format (R40; entry 14). -/
def withVolts (v : Volts) (s : State) (f : Volts → Out) : Out :=
  match s.cfg.fmt.accept v with
  | some v' => f v'
  | none => .refused .operandNotNum

end Sys2Proof.Machine
end

