-- ==== Sys2Proof/Machine/Flags.lean ====
section
/-! DEFINITION. The core has no flags or condition codes (R19). What it has in their place is the status on the result
port (R41) and the validation gate (R72). The order of R88 is the order of the checks in each meaning. -/

namespace Sys2Proof.Machine

/-- The status code of an error (R41, R84). -/
def ErrKind.status : ErrKind → Nat
  | .invalidAddress => 1
  | .invalidRegisterSelector => 2
  | .outOfRange => 3
  | .unsupportedResolution => 4

/-- The status on the result port (R41). -/
def Result.status : Result → Nat
  | .ok _ => 0
  | .err e => e.status
  | .fault .numericDomain => 5
  | .illegalRequest => 6

/-- `validate(bank, chan, v)` passes (R72): off, a broadcast, or inside the channel's bounds, both inclusive. -/
def validates (s : State) (cls : AddrClass) (v : Code) : Bool :=
  if s.cfg.validate then
    match cls with
    | .concrete b c => s.min.at b c ≤ v && v ≤ s.max.at b c
    | _ => true
  else true

end Sys2Proof.Machine
end

