-- ==== Sys2Proof/Machine/CommandWords.lean ====
section
/-! DEFINITION. The command-word forms of the opcode table (R42 to R46, R71, R76). A command word is what the core hands
to the transport (R11); running one is that hand-over, the event `Cmd(w)` (R16, R27, R93), and nothing else (entry 7). A
word the core never emits (R48) is refused by name (entry 8). -/

namespace Sys2Proof.Machine

/-- `sendCommand(w)`: the word joins the event history; the store, the marks and the result port stay. -/
def sendCommand (w : CmdWord) (s : State) : Out :=
  if s.cfg.emits w then .next (s.emit (.cmd w)) else .refused .notEmitted

/-- A write word to one channel: MODE, the bank's 0b001 or 0b010, ccc, PAYLOAD (R43, R44). -/
def wordToChannel (k : RegKind) (group : BitVec 3) (ccc : BitVec 3) (payload : BitVec 16) : CmdWord :=
  k.mode ++ (group ++ (ccc ++ payload))

/-- A write word with a whole ADDR (R43, R44). -/
def wordToAddr (k : RegKind) (addr : BitVec 6) (payload : BitVec 16) : CmdWord :=
  k.mode ++ (addr ++ payload)

/-- CW.WRDAC.B0CH: DAC write to bank 0, channel ccc (R43, R44, R71). -/
def execCwWrDacB0Ch (ccc : BitVec 3) (payload : BitVec 16) (s : State) : Out :=
  sendCommand (wordToChannel .dac 0b001 ccc payload) s

/-- CW.WRDAC.B1CH: DAC write to bank 1, channel ccc (R43, R44, R71). -/
def execCwWrDacB1Ch (ccc : BitVec 3) (payload : BitVec 16) (s : State) : Out :=
  sendCommand (wordToChannel .dac 0b010 ccc payload) s

/-- CW.WRDAC.B0ALL: DAC write to bank 0, all channels (R43, R44, R71). -/
def execCwWrDacB0All (payload : BitVec 16) (s : State) : Out :=
  sendCommand (wordToAddr .dac 0x01 payload) s

/-- CW.WRDAC.B1ALL: DAC write to bank 1, all channels (R43, R44, R71). -/
def execCwWrDacB1All (payload : BitVec 16) (s : State) : Out :=
  sendCommand (wordToAddr .dac 0x02 payload) s

/-- CW.WRDAC.ALLALL: DAC write to all banks, all channels (R43, R44, R71). -/
def execCwWrDacAllAll (payload : BitVec 16) (s : State) : Out :=
  sendCommand (wordToAddr .dac 0x00 payload) s

/-- CW.WROFFSET.B0CH: OFFSET write to bank 0, channel ccc (R43, R44, R71). -/
def execCwWrOffsetB0Ch (ccc : BitVec 3) (payload : BitVec 16) (s : State) : Out :=
  sendCommand (wordToChannel .offset 0b001 ccc payload) s

/-- CW.WROFFSET.B1CH: OFFSET write to bank 1, channel ccc (R43, R44, R71). -/
def execCwWrOffsetB1Ch (ccc : BitVec 3) (payload : BitVec 16) (s : State) : Out :=
  sendCommand (wordToChannel .offset 0b010 ccc payload) s

/-- CW.WROFFSET.B0ALL: OFFSET write to bank 0, all channels (R43, R44, R71). -/
def execCwWrOffsetB0All (payload : BitVec 16) (s : State) : Out :=
  sendCommand (wordToAddr .offset 0x01 payload) s

/-- CW.WROFFSET.B1ALL: OFFSET write to bank 1, all channels (R43, R44, R71). -/
def execCwWrOffsetB1All (payload : BitVec 16) (s : State) : Out :=
  sendCommand (wordToAddr .offset 0x02 payload) s

/-- CW.WROFFSET.ALLALL: OFFSET write to all banks, all channels (R43, R44, R71). -/
def execCwWrOffsetAllAll (payload : BitVec 16) (s : State) : Out :=
  sendCommand (wordToAddr .offset 0x00 payload) s

/-- CW.WRGAIN.B0CH: GAIN write to bank 0, channel ccc (R43, R44, R71). -/
def execCwWrGainB0Ch (ccc : BitVec 3) (payload : BitVec 16) (s : State) : Out :=
  sendCommand (wordToChannel .gain 0b001 ccc payload) s

/-- CW.WRGAIN.B1CH: GAIN write to bank 1, channel ccc (R43, R44, R71). -/
def execCwWrGainB1Ch (ccc : BitVec 3) (payload : BitVec 16) (s : State) : Out :=
  sendCommand (wordToChannel .gain 0b010 ccc payload) s

/-- CW.WRGAIN.B0ALL: GAIN write to bank 0, all channels (R43, R44, R71). -/
def execCwWrGainB0All (payload : BitVec 16) (s : State) : Out :=
  sendCommand (wordToAddr .gain 0x01 payload) s

/-- CW.WRGAIN.B1ALL: GAIN write to bank 1, all channels (R43, R44, R71). -/
def execCwWrGainB1All (payload : BitVec 16) (s : State) : Out :=
  sendCommand (wordToAddr .gain 0x02 payload) s

/-- CW.WRGAIN.ALLALL: GAIN write to all banks, all channels (R43, R44, R71). -/
def execCwWrGainAllAll (payload : BitVec 16) (s : State) : Out :=
  sendCommand (wordToAddr .gain 0x00 payload) s

/-- CW.READSEL: a readback request with selector field {G, A, 0} (R46, R75, R76). -/
def execCwReadSel (g : BitVec 3) (a : BitVec 6) (s : State) : Out :=
  sendCommand (readWord (readSelField g a)) s

end Sys2Proof.Machine
end

