-- ==== Sys2Proof/Machine/Store.lean ====
section
/-! DEFINITION. The Calibration Store requests of 40_store.md: GET, SET, GETGOFS, GETBOUNDS, SETBOUNDS, GETREF, SETREF. -/

namespace Sys2Proof.Machine

/-- GET (R53). -/
def execGet (reg : RegSel) (bank : BankSel) (chan : ChanSel) (s : State) : Out :=
  if s.cfg.supported then
    match reg.kind with
    | none => raise .invalidRegisterSelector s
    | some k =>
      match classify s.cfg bank chan with
      | .concrete b c => ok (.code ((s.store k).at b c)) s
      | _ => raise .invalidAddress s
  else raise .unsupportedResolution s

/-- SET (R54). -/
def execSet (reg : RegSel) (bank : BankSel) (chan : ChanSel) (d0 : Code) (s : State) : Out :=
  if s.cfg.supported then
    match reg.kind with
    | none => raise .invalidRegisterSelector s
    | some k =>
      match classify s.cfg bank chan with
      | .invalid => raise .invalidAddress s
      | cls => ok .unit (s.storeAll k cls (s.cfg.mask d0))
  else raise .unsupportedResolution s

/-- GETGOFS (R55). -/
def execGetgofs (bank : BankSel) (s : State) : Out :=
  if s.cfg.supported then
    match bank.single with
    | some b => ok (.gofs (s.gofs.read b)) s
    | none => raise .invalidAddress s
  else raise .unsupportedResolution s

/-- GETBOUNDS (R56). -/
def execGetbounds (bank : BankSel) (chan : ChanSel) (s : State) : Out :=
  if s.cfg.supported then
    match classify s.cfg bank chan with
    | .concrete b c => ok (.bounds (s.min.at b c) (s.max.at b c)) s
    | _ => raise .invalidAddress s
  else raise .unsupportedResolution s

/-- SETBOUNDS (R57). -/
def execSetbounds (bank : BankSel) (chan : ChanSel) (d0 d1 : Code) (s : State) : Out :=
  if s.cfg.supported then
    match classify s.cfg bank chan with
    | .concrete b c => ok .unit (s.setBounds b c (s.cfg.mask d0) (s.cfg.mask d1))
    | _ => raise .invalidAddress s
  else raise .unsupportedResolution s

/-- GETREF (R58). -/
def execGetref (bank : BankSel) (s : State) : Out :=
  match bank.single with
  | some b => ok (.num (s.vref.read b)) s
  | none => raise .invalidAddress s

/-- SETREF (R59). -/
def execSetref (bank : BankSel) (v : Volts) (s : State) : Out :=
  withVolts v s fun v =>
    match bank.single with
    | some b => ok .unit (s.setVref b v)
    | none => raise .invalidAddress s

end Sys2Proof.Machine
end

