-- ==== Sys2Proof/Machine/Encoder.lean ====
section
/-! DEFINITION. The command word encoder of 42_encoder.md, and the requests ENCW and ENCR. -/

namespace Sys2Proof.Machine

/-- `cwWrite(reg, bank, chan, d)` (R71): MODE, ADDR, PAYLOAD. -/
def cwWrite (cfg : Cfg) (k : RegKind) (addr : BitVec 6) (d : Code) : CmdWord :=
  k.mode ++ (addr ++ cfg.payload d)

/-- What `encw` yields: the masked value and the word (R73), with the kind and the address they were made for. -/
structure WriteWord where
  kind : RegKind
  cls : AddrClass
  value : Code
  word : CmdWord
  deriving DecidableEq, Repr

/-- The encode-write function `encw` (R73), shared by ENCW, WRITE and WRITEV. -/
def encodeWrite (s : State) (reg : RegSel) (bank : BankSel) (chan : ChanSel) (d0 : Code) : Except ErrKind WriteWord :=
  if s.cfg.supported then
    match reg.kind with
    | none => .error .invalidRegisterSelector
    | some k =>
      let cls := classify s.cfg bank chan
      match addrcode cls with
      | none => .error .invalidAddress
      | some a =>
        let v := s.cfg.mask d0
        if validates s cls v then .ok { kind := k, cls := cls, value := v, word := cwWrite s.cfg k a v }
        else .error .outOfRange
  else .error .unsupportedResolution

/-- The encode-read function `encr` (R76), shared by ENCR and READREQ: the frame of R46 around READ_SEL. -/
def encodeRead (cfg : Cfg) (rsel : ReadName) (bank : BankSel) (chan : ChanSel) : Except ErrKind CmdWord :=
  (readSel cfg.readSel rsel (classify cfg bank chan)).map readWord

/-- ENCW (R74). -/
def execEncw (reg : RegSel) (bank : BankSel) (chan : ChanSel) (d0 : Code) (s : State) : Out :=
  match encodeWrite s reg bank chan d0 with
  | .ok e => ok (.word e.word) s
  | .error e => raise e s

/-- ENCR (R77). -/
def execEncr (rsel : ReadName) (bank : BankSel) (chan : ChanSel) (s : State) : Out :=
  match encodeRead s.cfg rsel bank chan with
  | .ok w => ok (.word w) s
  | .error e => raise e s

end Sys2Proof.Machine
end

