-- ==== Sys2Proof/Machine/Transfer.lean ====
section
/-! DEFINITION. The transfer function and the gain/offset scaler of 41_transfer.md, and the requests V2C and C2V. Every
operation is in Num, in the order the rules write it (R9). -/

namespace Sys2Proof.Machine

/-- A difference from a default value, with the default itself in place of zero (R60, R62; I1; entry 17). -/
def substDefault (x default : Int) : Int := if x - default = 0 then default else x - default

/-- The gain term `tg(b, c)` (R60). -/
def State.tg (s : State) (b : Bank) (c : Chan) : Int :=
  substDefault (s.gain.at b c).toNat s.cfg.defGain.toNat

/-- The slope `mm(b, c)` (R61). -/
def State.mm (s : State) (b : Bank) (c : Chan) : Volts :=
  s.cfg.fmt.div (.ofInt (s.tg b c + 1)) (.ofInt (2 ^ s.cfg.res))

/-- The offset term `to(b, c)` (R62). -/
def State.offTerm (s : State) (b : Bank) (c : Chan) : Int :=
  substDefault (s.off.at b c).toNat s.cfg.defOffset.toNat

/-- The intercept `cc(b, c)` (R63). -/
def State.cc (s : State) (b : Bank) (c : Chan) : Int := s.offTerm b c - s.cfg.half

/-- `K · S.gofs[b]`, an integer below 2^16 (R64, R66). -/
def State.globalTerm (s : State) (b : Bank) : Int := s.cfg.k * (s.gofs.read b).toNat

/-- `dac` of the forward function (R64). -/
def State.dacCode (s : State) (b : Bank) (v : Volts) : Volts :=
  let f := s.cfg.fmt
  f.add (f.div (f.mul v (.ofInt (2 ^ s.cfg.res))) (f.mul (.ofInt 4) (s.vref.read b))) (.ofInt (s.globalTerm b))

/-- `x` of the forward function (R64): the code before clamping. -/
def State.unclamped (s : State) (b : Bank) (c : Chan) (v : Volts) : Volts :=
  let f := s.cfg.fmt
  f.div (f.sub (s.dacCode b v) (.ofInt (s.cc b c))) (s.mm b c)

/-- The forward function `v2c(b, c, V)` (R64); none is the fault NumericDomain. -/
def State.v2c (s : State) (b : Bank) (c : Chan) (v : Volts) : Option Code :=
  if (s.vref.read b).isZero then none
  else if (s.mm b c).isZero then none
  else ((s.unclamped b c v).clampFloor s.cfg.deviceMin s.cfg.deviceMax).map (BitVec.ofInt 16)

/-- `dd` of the inverse (R66): the DAC_CODE that yields `code`. -/
def State.invDacCode (s : State) (b : Bank) (c : Chan) (code : Code) : Volts :=
  let f := s.cfg.fmt
  f.add (f.mul (.ofInt code.toNat) (s.mm b c)) (.ofInt (s.cc b c))

/-- The algebraic inverse `c2v(b, c, code)` (R66). -/
def State.c2vInverse (s : State) (b : Bank) (c : Chan) (code : Code) : Volts :=
  let f := s.cfg.fmt
  f.div (f.mul (f.mul (.ofInt 4) (s.vref.read b)) (f.sub (s.invDacCode b c code) (.ofInt (s.globalTerm b))))
    (.ofInt (2 ^ s.cfg.res))

/-- The printed 14-bit formula, `V = 4·Vref·(code·mm + S.off − 2^13)/2^14 − S.gofs/2^14` (I3; entry 16). -/
def State.c2vLiteral (s : State) (b : Bank) (c : Chan) (code : Code) : Volts :=
  let f := s.cfg.fmt
  let dd := f.sub (f.add (f.mul (.ofInt code.toNat) (s.mm b c)) (.ofInt (s.off.at b c).toNat)) (.ofInt (2 ^ 13))
  f.sub (f.div (f.mul (f.mul (.ofInt 4) (s.vref.read b)) dd) (.ofInt (2 ^ 14)))
    (f.div (.ofInt (s.gofs.read b).toNat) (.ofInt (2 ^ 14)))

/-- The inverse function (R66), or the printed formula where INV14 asks for it on a 14-bit device (P6). -/
def State.c2v (s : State) (b : Bank) (c : Chan) (code : Code) : Volts :=
  if s.cfg.res = 14 ∧ s.cfg.inv14 = .literal then s.c2vLiteral b c code else s.c2vInverse b c code

/-- V2C (R65). -/
def execV2c (bank : BankSel) (chan : ChanSel) (v : Volts) (s : State) : Out :=
  withVolts v s fun v =>
    if s.cfg.supported then
      match classify s.cfg bank chan with
      | .concrete b c =>
        match s.v2c b c v with
        | some code => ok (.code code) s
        | none => numericDomain s
      | _ => raise .invalidAddress s
    else raise .unsupportedResolution s

/-- C2V (R67); D0 is not masked. There is no division by zero to fault on (R66); under FLOAT_FMT a NaN result faults
(R9, I7; entry 15). -/
def execC2v (bank : BankSel) (chan : ChanSel) (d0 : Code) (s : State) : Out :=
  if s.cfg.supported then
    match classify s.cfg bank chan with
    | .concrete b c =>
      match s.c2v b c d0 with
      | .nan => numericDomain s
      | v => ok (.num v) s
    | _ => raise .invalidAddress s
  else raise .unsupportedResolution s

end Sys2Proof.Machine
end

