-- ==== Sys2Proof/Machine/Transactions.lean ====
section
/-! DEFINITION. The requests of 43_transactions.md that emit: WRITE, WRITEV, READREQ, LOAD, CLEAR, RESET. -/

namespace Sys2Proof.Machine

/-- "mutate store → emit command" (R78, R99): every target takes the value and one word is emitted. -/
def State.commitWrite (s : State) (e : WriteWord) : State :=
  (s.storeAll e.kind e.cls e.value).emit (.cmd e.word)

/-- WRITE (R78). -/
def execWrite (reg : RegSel) (bank : BankSel) (chan : ChanSel) (d0 : Code) (s : State) : Out :=
  match encodeWrite s reg bank chan d0 with
  | .ok e => ok (.word e.word) (s.commitWrite e)
  | .error e => raise e s

/-- WRITEV (R79). -/
def execWritev (bank : BankSel) (chan : ChanSel) (v : Volts) (s : State) : Out :=
  withVolts v s fun v =>
    if s.cfg.supported then
      match classify s.cfg bank chan with
      | .concrete b c =>
        match s.v2c b c v with
        | none => numericDomain s
        | some code =>
          match encodeWrite s .dac bank chan code with
          | .ok e => ok (.code e.value) (s.commitWrite e)
          | .error e => raise e s
      | _ => raise .invalidAddress s
    else raise .unsupportedResolution s

/-- READREQ (R80). -/
def execReadreq (rsel : ReadName) (bank : BankSel) (chan : ChanSel) (s : State) : Out :=
  match encodeRead s.cfg rsel bank chan with
  | .ok w => ok (.word w) (s.emit (.cmd w))
  | .error e => raise e s

/-- LOAD (R81). -/
def execLoad (s : State) : Out := ok .unit (s.emit .loadPulse)

/-- CLEAR (R82). -/
def execClear (flag : Bool) (s : State) : Out := ok .unit (s.emit (.clear flag))

/-- RESET (R83): the pulse, then the defaults. -/
def execReset (s : State) : Out :=
  if s.cfg.supported then ok .unit (s.emit .resetPulse).restore
  else raise .unsupportedResolution s

end Sys2Proof.Machine
end

