-- ==== Sys2Proof/Machine/Dispatch.lean ====
section
/-! DEFINITION. What each instruction does: one arm for each constructor of Instr, one for each row of the opcode table. -/

namespace Sys2Proof.Machine

/-- The meaning of an instruction, called for each row of the opcode table. -/
def exec (i : Instr) (s : State) : Host.Outcome State Fault Refusal :=
  match i with
  | .get reg bank chan => Sys2Proof.Machine.execGet reg bank chan s
  | .set reg bank chan d0 => Sys2Proof.Machine.execSet reg bank chan d0 s
  | .getgofs bank => Sys2Proof.Machine.execGetgofs bank s
  | .getbounds bank chan => Sys2Proof.Machine.execGetbounds bank chan s
  | .setbounds bank chan d0 d1 => Sys2Proof.Machine.execSetbounds bank chan d0 d1 s
  | .getref bank => Sys2Proof.Machine.execGetref bank s
  | .setref bank v => Sys2Proof.Machine.execSetref bank v s
  | .v2c bank chan v => Sys2Proof.Machine.execV2c bank chan v s
  | .c2v bank chan d0 => Sys2Proof.Machine.execC2v bank chan d0 s
  | .encw reg bank chan d0 => Sys2Proof.Machine.execEncw reg bank chan d0 s
  | .encr rsel bank chan => Sys2Proof.Machine.execEncr rsel bank chan s
  | .write reg bank chan d0 => Sys2Proof.Machine.execWrite reg bank chan d0 s
  | .writev bank chan v => Sys2Proof.Machine.execWritev bank chan v s
  | .readreq rsel bank chan => Sys2Proof.Machine.execReadreq rsel bank chan s
  | .load => Sys2Proof.Machine.execLoad s
  | .clear flag => Sys2Proof.Machine.execClear flag s
  | .reset => Sys2Proof.Machine.execReset s
  | .cwWrDacB0Ch ccc payload => Sys2Proof.Machine.execCwWrDacB0Ch ccc payload s
  | .cwWrDacB1Ch ccc payload => Sys2Proof.Machine.execCwWrDacB1Ch ccc payload s
  | .cwWrDacB0All payload => Sys2Proof.Machine.execCwWrDacB0All payload s
  | .cwWrDacB1All payload => Sys2Proof.Machine.execCwWrDacB1All payload s
  | .cwWrDacAllAll payload => Sys2Proof.Machine.execCwWrDacAllAll payload s
  | .cwWrOffsetB0Ch ccc payload => Sys2Proof.Machine.execCwWrOffsetB0Ch ccc payload s
  | .cwWrOffsetB1Ch ccc payload => Sys2Proof.Machine.execCwWrOffsetB1Ch ccc payload s
  | .cwWrOffsetB0All payload => Sys2Proof.Machine.execCwWrOffsetB0All payload s
  | .cwWrOffsetB1All payload => Sys2Proof.Machine.execCwWrOffsetB1All payload s
  | .cwWrOffsetAllAll payload => Sys2Proof.Machine.execCwWrOffsetAllAll payload s
  | .cwWrGainB0Ch ccc payload => Sys2Proof.Machine.execCwWrGainB0Ch ccc payload s
  | .cwWrGainB1Ch ccc payload => Sys2Proof.Machine.execCwWrGainB1Ch ccc payload s
  | .cwWrGainB0All payload => Sys2Proof.Machine.execCwWrGainB0All payload s
  | .cwWrGainB1All payload => Sys2Proof.Machine.execCwWrGainB1All payload s
  | .cwWrGainAllAll payload => Sys2Proof.Machine.execCwWrGainAllAll payload s
  | .cwReadSel g a => Sys2Proof.Machine.execCwReadSel g a s

end Sys2Proof.Machine
end

