-- ==== Sys2Proof/Machine/Fetch.lean ====
section
/-! DEFINITION. What the core does with the next input: it is decoded and run, or refused (R33, R47, R48). -/

namespace Sys2Proof.Machine

/-- One input. A request that spells no operation is refused by the core itself and the run goes on (R47, R87, R91); a
command word that is no row of the table is never emitted (R48, I5; entry 8). -/
def stepInput (inp : Input) (s : State) : Out :=
  match decode inp with
  | .ok i => exec i s
  | .error _ =>
    match inp with
    | .request _ _ _ _ => illegalRequest s
    | .cmdWord _ => .refused .notEmitted

end Sys2Proof.Machine
end

