-- ==== Sys2Proof/Machine/Step.lean ====
section
/-! DEFINITION. One step of the core (R12, R29, R105). -/

namespace Sys2Proof.Machine

/-- One step: the next input the host presents (R105). With nothing presented nothing changes (R13 "no background or
timer-driven mutation"; entry 5). -/
def step (s : State) : Host.Outcome State Fault Refusal :=
  match s.inputs with
  | [] => .next s
  | inp :: rest => stepInput inp { s with inputs := rest }

/-- `s` with the table word presented next (entry 5, entry 21). -/
def State.withFetchWord (s : State) (nbits w : Nat) : State :=
  { s with inputs := inputOfTableWord nbits w :: s.inputs }

end Sys2Proof.Machine
end

