-- ==== Sys2Proof/WellFormed.lean ====
section
/-! DEFINITION. Which instructions a host can present to a core of a given configuration (R40), and which command-word
forms such a core can emit (R48). Selectors need no check: every value of a field is either a selector or one of the
spec's errors (R35 to R38, R47). -/

namespace Sys2Proof

/-- The payload of a register write is one the configuration can produce (R45, R48, R73). -/
def Cfg.payloadOk (c : Cfg) (payload : BitVec 16) : Bool :=
  c.supported && (c.res != 14 || payload.extractLsb' 0 2 = 0)

/-- The channel slot exists (R44, R48). -/
def Cfg.channelOk (c : Cfg) (ccc : BitVec 3) : Bool := ccc.toNat < c.nch

/-- A well-formed instruction for the configuration: an operand V that is a Num of its format (R9, R40), a command word
the core can emit (R48). -/
def Instr.wf (c : Cfg) : Instr → Bool
  | .get _ _ _ => true
  | .set _ _ _ _ => true
  | .getgofs _ => true
  | .getbounds _ _ => true
  | .setbounds _ _ _ _ => true
  | .getref _ => true
  | .setref _ v => c.fmt.admits v
  | .v2c _ _ v => c.fmt.admits v
  | .c2v _ _ _ => true
  | .encw _ _ _ _ => true
  | .encr _ _ _ => true
  | .write _ _ _ _ => true
  | .writev _ _ v => c.fmt.admits v
  | .readreq _ _ _ => true
  | .load => true
  | .clear _ => true
  | .reset => true
  | .cwWrDacB0Ch ccc payload => c.channelOk ccc && c.payloadOk payload
  | .cwWrDacB1Ch ccc payload => c.channelOk ccc && c.payloadOk payload
  | .cwWrDacB0All payload => c.payloadOk payload
  | .cwWrDacB1All payload => c.payloadOk payload
  | .cwWrDacAllAll payload => c.payloadOk payload
  | .cwWrOffsetB0Ch ccc payload => c.channelOk ccc && c.payloadOk payload
  | .cwWrOffsetB1Ch ccc payload => c.channelOk ccc && c.payloadOk payload
  | .cwWrOffsetB0All payload => c.payloadOk payload
  | .cwWrOffsetB1All payload => c.payloadOk payload
  | .cwWrOffsetAllAll payload => c.payloadOk payload
  | .cwWrGainB0Ch ccc payload => c.channelOk ccc && c.payloadOk payload
  | .cwWrGainB1Ch ccc payload => c.channelOk ccc && c.payloadOk payload
  | .cwWrGainB0All payload => c.payloadOk payload
  | .cwWrGainB1All payload => c.payloadOk payload
  | .cwWrGainAllAll payload => c.payloadOk payload
  | .cwReadSel _ _ => true

end Sys2Proof
end

