-- ==== Sys2Proof/Safety.lean ====
section
/-! DEFINITION. What a good state is, in the terms claims use: a legal configuration (R5, R98), the masking invariant (R18),
voltages of the configured format (R9), a history of words the core can emit (R48), and the two marks (R17, R25). Beside
them the words of the rules that claims are stated with, written apart from the operations of Machine/: which entries an
address covers (R52), the numbers of a command word's fields (R43 to R45, R70), and the formulas of R60 to R66 in ℚ. -/

namespace Sys2Proof

/-- The voltage is one that some operand of the format is taken as: a rational, or a value the IEEE format holds. -/
def NumFmt.Holds (f : NumFmt) (v : Volts) : Prop := ∃ u, f.accept u = some v

/-- Every field of the table has F[6:0] = 0, as every readback word the core emits does (R48). -/
def ReadSel.LowBitsClear (t : ReadSel) : Prop :=
  (∀ fields ∈ [t.x1a, t.x1b, t.c, t.m], ∀ b c, (fields.at b c).toNat % 2 ^ 7 = 0) ∧
    ∀ f ∈ [t.control, t.ofs0, t.ofs1, t.absel0, t.absel1, t.gpio], f.toNat % 2 ^ 7 = 0

/-- A legal configuration: with a supported resolution the defaults are RES-bit codes (R5, R98), DEF_VREF is a Num, and
READ_SEL yields no word of R48's list (entry 10). -/
def Cfg.Legal (c : Cfg) : Prop :=
  (c.supported = true →
    c.defDac.toNat ≤ c.maskR ∧ c.defOffset.toNat ≤ c.maskR ∧ c.defGain.toNat ≤ c.maskR ∧
      c.defMin.toNat ≤ c.maskR ∧ c.defMax.toNat ≤ c.maskR) ∧
    c.fmt.Holds c.defVref ∧ c.readSel.LowBitsClear

/-- Every entry of the table is a RES-bit code. -/
def Table.Masked (t : Table) (c : Cfg) : Prop := ∀ b i, (t.at b i).toNat ≤ c.maskR

/-- The selector of a bank (R36). -/
def Bank.sel : Bank → BankSel
  | .b0 => .bank0
  | .b1 => .bank1

/-- The selector of a channel (R37). -/
def Chan.sel (c : Chan) : ChanSel := .idx ⟨c.val, Nat.lt_of_lt_of_le c.isLt (by decide)⟩

/-- The selectors name one channel of one bank: a concrete address (R11). -/
def Concrete (cfg : Cfg) (bank : BankSel) (chan : ChanSel) (b : Bank) (c : Chan) : Prop :=
  bank = b.sel ∧ chan = Chan.sel c ∧ c.val < cfg.nch

/-- The selectors name a concrete or a broadcast address (R11, R52). -/
def ValidAddress (cfg : Cfg) (bank : BankSel) (chan : ChanSel) : Prop :=
  (∃ b c, Concrete cfg bank chan b c) ∨ (chan = .all ∧ bank ≠ .undefined)

/-- A valid address covers the entry (b, c) (R52): its bank selector names the bank or all banks, its channel selector the
channel or all channels. -/
def Covers (bank : BankSel) (chan : ChanSel) (b : Bank) (c : Chan) : Prop :=
  (bank = b.sel ∨ bank = .bankAll) ∧ (chan = Chan.sel c ∨ chan = .all)

/-- The number of the ADDR field of a valid address (R44, R70). -/
def addrNumber : BankSel → ChanSel → Nat
  | .bank0, .idx c => 8 + c.val
  | .bank1, .idx c => 16 + c.val
  | .bank0, .all => 1
  | .bank1, .all => 2
  | _, _ => 0

/-- The number of the MODE field of a register write (R43). -/
def modeNumber : RegKind → Nat
  | .gain => 1
  | .offset => 2
  | .dac => 3

/-- The number of the PAYLOAD field for a 16-bit data value (R45). -/
def payloadNumber (cfg : Cfg) (d : Code) : Nat := if cfg.res = 14 then 4 * (d.toNat % 2 ^ 14) else d.toNat

/-- The command word of a register write, as a number (R42, R71). -/
def writeWordNumber (cfg : Cfg) (k : RegKind) (bank : BankSel) (chan : ChanSel) (d : Code) : Nat :=
  modeNumber k * 2 ^ 22 + addrNumber bank chan * 2 ^ 16 + payloadNumber cfg d

/-- The word is one that R48 lists as never emitted, or a register write under a RES for which R73 makes no word (entry
8). Its clauses are R48's, by the numbers of the fields. -/
def NeverEmitted (cfg : Cfg) (w : CmdWord) : Prop :=
  let mode := w.toNat / 2 ^ 22
  let addr := w.toNat / 2 ^ 16 % 2 ^ 6
  (mode = 0 ∧ (addr ≠ 5 ∨ w.toNat % 2 ^ 7 ≠ 0)) ∨
    (mode ≠ 0 ∧ (cfg.supported = false ∨ (3 ≤ addr ∧ addr ≤ 7) ∨ (8 + cfg.nch ≤ addr ∧ addr ≤ 15) ∨
      16 + cfg.nch ≤ addr ∨ (cfg.res = 14 ∧ w.toNat % 4 ≠ 0)))

/-- The slope `mm` in ℚ that a gain code gives (R60, R61). -/
def Cfg.slopeQ (cfg : Cfg) (gain : Code) : ℚ :=
  ((if gain = cfg.defGain then (cfg.defGain.toNat : ℚ) else gain.toNat - cfg.defGain.toNat) + 1) / 2 ^ cfg.res

/-- The intercept `cc` in ℚ that an offset code gives (R62, R63). -/
def Cfg.interceptQ (cfg : Cfg) (off : Code) : ℚ :=
  (if off = cfg.defOffset then (cfg.defOffset.toNat : ℚ) else off.toNat - cfg.defOffset.toNat) - 2 ^ (cfg.res - 1)

/-- The instruction is one of the 17 requests of R34, not a command-word form. -/
def Instr.isRequest (i : Instr) : Bool :=
  match encode i with
  | .request _ _ _ _ => true
  | .cmdWord _ => false

/-- The instruction is one of the requests that R30 says change nothing. -/
def Instr.readsOnly : Instr → Bool
  | .get _ _ _ | .getgofs _ | .getbounds _ _ | .getref _ | .v2c _ _ _ | .c2v _ _ _ | .encw _ _ _ _ | .encr _ _ _ => true
  | _ => false

namespace Machine

/-- The masked data value lies inside the channel's bounds, both inclusive (R72). -/
def State.InBounds (s : State) (b : Bank) (c : Chan) (d : Code) : Prop :=
  (s.min.at b c).toNat ≤ d.toNat % 2 ^ s.cfg.res ∧ d.toNat % 2 ^ s.cfg.res ≤ (s.max.at b c).toNat

/-- The validation gate lets the data pass at this address (R72). -/
def State.GatePasses (s : State) (bank : BankSel) (chan : ChanSel) (d : Code) : Prop :=
  s.cfg.validate = true → ∀ b c, Concrete s.cfg bank chan b c → s.InBounds b c d

/-- The slope `mm` in ℚ (R60, R61). -/
def State.slopeQ (s : State) (b : Bank) (c : Chan) : ℚ := s.cfg.slopeQ (s.gain.at b c)

/-- The intercept `cc` in ℚ (R62, R63). -/
def State.interceptQ (s : State) (b : Bank) (c : Chan) : ℚ := s.cfg.interceptQ (s.off.at b c)

/-- `K · S.gofs[b]` in ℚ (R6, R64). -/
def State.globalQ (s : State) (b : Bank) : ℚ := (if s.cfg.res = 16 then 4 else 1) * ((s.gofs.read b).toNat : ℚ)

/-- `dac` in ℚ for the voltage q and the reference r (R64). -/
def State.dacQ (s : State) (b : Bank) (r q : ℚ) : ℚ := q * 2 ^ s.cfg.res / (4 * r) + s.globalQ b

/-- `x` in ℚ (R64). -/
def State.forwardQ (s : State) (b : Bank) (c : Chan) (r q : ℚ) : ℚ :=
  (s.dacQ b r q - s.interceptQ b c) / s.slopeQ b c

/-- `V` in ℚ for a code and the reference r (R66). -/
def State.inverseQ (s : State) (b : Bank) (c : Chan) (r : ℚ) (code : Code) : ℚ :=
  4 * r * (code.toNat * s.slopeQ b c + s.interceptQ b c - s.globalQ b) / 2 ^ s.cfg.res

/-- The channel is at default calibration with R22's 16-bit or 14-bit defaults (R11, R68). -/
def State.DefaultCalibration (s : State) (b : Bank) (c : Chan) : Prop :=
  s.cfg.defGain.toNat = 2 ^ s.cfg.res - 1 ∧ s.cfg.defOffset.toNat = 2 ^ (s.cfg.res - 1) ∧
    s.gain.at b c = s.cfg.defGain ∧ s.off.at b c = s.cfg.defOffset

/-- The masking invariant (R18): with a supported resolution no code is wider than RES bits. `S.gofs` has 14 bits by its
type. -/
def State.Masked (s : State) : Prop :=
  s.cfg.supported = true →
    s.dac.Masked s.cfg ∧ s.off.Masked s.cfg ∧ s.gain.Masked s.cfg ∧ s.min.Masked s.cfg ∧ s.max.Masked s.cfg

/-- Both reference voltages are Num values of the configured format (R9, R15). -/
def State.VrefHeld (s : State) : Prop := ∀ b, s.cfg.fmt.Holds (s.vref.read b)

/-- Every command word of the history is one the core can emit (R48). -/
def State.HistoryEmitted (s : State) : Prop := ∀ w, Event.cmd w ∈ s.events → s.cfg.emits w = true

/-- The invariant every step keeps. -/
structure State.Inv (s : State) : Prop where
  legal : s.cfg.Legal
  masked : s.Masked
  vrefHeld : s.VrefHeld
  history : s.HistoryEmitted

/-- A state a claim about a run may rest on: neither mark is set (R17, R25). -/
def State.Good (s : State) : Prop := s.fault = none ∧ s.refused = false

end Machine

end Sys2Proof
end

