-- ==== Sys2Proof/Certificates/Slice0/Obligations.lean ====
section
/-! DEFINITION. The statements for the provers. Each docstring names the rule of spec/ the statement follows. -/

open Sys2Proof Sys2Proof.Machine

/-- No bit of an encoding is dropped (R33, R34, R40 for requests; R42 to R46 for command words). -/
def Obligations.DecodeEncodeAgree : Prop :=
  ∀ i : Instr, decode (encode i) = .ok i

/-- Where each word has one meaning the encoding is unique in the other direction too (R42 to R46, R48). -/
def Obligations.CommandWordsHaveOneSpelling : Prop :=
  ∀ (w : CmdWord) (i : Instr), decodeCmdWord w = .ok i → encode i = .cmdWord w

/-- R33 and the column 'fields read' of R34. -/
def Obligations.UnlistedHeaderFieldsAreIgnored : Prop :=
  ∀ (h h' : Header) (d0 d1 : Code) (v : Volts),
    h.extractLsb' 0 5 = h'.extractLsb' 0 5 → h.extractLsb' 19 13 = h'.extractLsb' 19 13 →
    ((h.extractLsb' 0 5).toNat ∈ [0x01, 0x02, 0x0A, 0x0C] → h.extractLsb' 5 2 = h'.extractLsb' 5 2) →
    ((h.extractLsb' 0 5).toNat ∈ [0x01, 0x02, 0x03, 0x04, 0x05, 0x06, 0x07, 0x08, 0x09, 0x0A, 0x0B, 0x0C, 0x0D, 0x0E] →
      h.extractLsb' 7 2 = h'.extractLsb' 7 2) →
    ((h.extractLsb' 0 5).toNat ∈ [0x01, 0x02, 0x04, 0x05, 0x08, 0x09, 0x0A, 0x0B, 0x0C, 0x0D, 0x0E] →
      h.extractLsb' 9 5 = h'.extractLsb' 9 5) →
    ((h.extractLsb' 0 5).toNat ∈ [0x0B, 0x0E] → h.extractLsb' 14 4 = h'.extractLsb' 14 4) →
    ((h.extractLsb' 0 5).toNat = 0x10 → h.extractLsb' 18 1 = h'.extractLsb' 18 1) →
    decodeRequest h d0 d1 v = decodeRequest h' d0 d1 v

/-- A sanity statement over words of 95_test_vectors.md, sections 2.1 and 2.4. -/
def Obligations.SampleWordsDecode : Prop :=
  (∀ d0 d1 v,
    decodeRequest 0x00000AE1 d0 d1 v = .ok (.get .dac .bank1 (.idx 5)) ∧
    decodeRequest 0x00000888 d0 d1 v = .ok (.v2c .bank1 (.idx 4) v) ∧
    decodeRequest 0x0000060B d0 d1 v = .ok (.encr .x1a .bank0 (.idx 3)) ∧
    decodeRequest 0x0000C48E d0 d1 v = .ok (.readreq .m .bank1 (.idx 2)) ∧
    decodeRequest 0x00003F6C d0 d1 v = .ok (.write .dac .bankAll .all d0) ∧
    decodeRequest 0x00040010 d0 d1 v = .ok (.clear true) ∧
    decodeRequest 0x00000011 d0 d1 v = .ok .reset) ∧
  decodeCmdWord 0xCB1234 = .ok (.cwWrDacB0Ch 3 0x1234) ∧
  decodeCmdWord 0x82ABCD = .ok (.cwWrOffsetB1All 0xABCD) ∧
  decodeCmdWord 0x056900 = .ok (.cwReadSel 3 0x12)

/-- R27: event `Cmd(w)` stands for the byte sequence [w[23:16], w[15:8], w[7:0]]. -/
def Obligations.CommandWordBytesMsbFirst : Prop :=
  ∀ (w : CmdWord) (rest : List Byte),
    (∃ x y z : Byte, CmdWord.bytes w = [x, y, z] ∧ w.toNat = (x.toNat * 256 + y.toNat) * 256 + z.toNat) ∧
    decodeBytes (CmdWord.bytes w ++ rest) = (decodeCmdWord w).map (fun i => (i, rest))

/-- R87 with the encodings of R47; the second clause says that nothing else is refused. -/
def Obligations.ReservedRequestsAreRefused : Prop :=
  ∀ (s : State) (h : Header) (d0 d1 : Code) (v : Volts) (rest : List Input),
    s.inputs = .request h d0 d1 v :: rest →
    (((h.extractLsb' 0 5).toNat = 0 ∨ 0x12 ≤ (h.extractLsb' 0 5).toNat ∨ h.extractLsb' 19 13 ≠ 0) →
      step s = .next { s with inputs := rest, refused := true, result := some .illegalRequest } ∧
      Result.illegalRequest.status = 6) ∧
    (1 ≤ (h.extractLsb' 0 5).toNat → (h.extractLsb' 0 5).toNat ≤ 0x11 → h.extractLsb' 19 13 = 0 →
      ∃ i, decodeRequest h d0 d1 v = .ok i)

/-- One request is one step (R29, R105). The idle clause and the list of inputs are the model's choice (entry 5). That a
command word of no row is refused as notEmitted rests on R48 and I5 by the model's deduction (entry 8). -/
def Obligations.StepRunsDecodedInput : Prop :=
  ∀ (s : State),
    (s.inputs = [] → step s = .next s) ∧
    (∀ inp rest i, s.inputs = inp :: rest → decode inp = .ok i → step s = exec i { s with inputs := rest }) ∧
    (∀ w rest e, s.inputs = .cmdWord w :: rest → decodeCmdWord w = .error e → step s = .refused .notEmitted)

/-- R53: the four cases of its pseudocode, in its order, each with the whole next state. -/
def Obligations.GetReturnsStoredCode : Prop :=
  ∀ (s : State) (reg : RegSel) (bank : BankSel) (chan : ChanSel),
    (s.cfg.supported = false →
      exec (.get reg bank chan) s = .next { s with result := some (.err .unsupportedResolution) }) ∧
    (s.cfg.supported = true → reg = .unrecognised →
      exec (.get reg bank chan) s = .next { s with result := some (.err .invalidRegisterSelector) }) ∧
    (s.cfg.supported = true → reg ≠ .unrecognised → (¬ ∃ b c, Concrete s.cfg bank chan b c) →
      exec (.get reg bank chan) s = .next { s with result := some (.err .invalidAddress) }) ∧
    (∀ k b c, s.cfg.supported = true → reg.kind = some k → Concrete s.cfg bank chan b c →
      exec (.get reg bank chan) s = .next { s with result := some (.ok (.code ((s.store k).at b c))) })

/-- R54, whole: SET does not apply the validation gate (no premise on VALIDATE), and broadcasts fan out as R52 says. -/
def Obligations.SetStoresMaskedCode : Prop :=
  ∀ (s : State) (reg : RegSel) (bank : BankSel) (chan : ChanSel) (d0 : Code),
    (s.cfg.supported = false →
      exec (.set reg bank chan d0) s = .next { s with result := some (.err .unsupportedResolution) }) ∧
    (s.cfg.supported = true → reg = .unrecognised →
      exec (.set reg bank chan d0) s = .next { s with result := some (.err .invalidRegisterSelector) }) ∧
    (s.cfg.supported = true → reg ≠ .unrecognised → ¬ ValidAddress s.cfg bank chan →
      exec (.set reg bank chan d0) s = .next { s with result := some (.err .invalidAddress) }) ∧
    (∀ k, s.cfg.supported = true → reg.kind = some k → ValidAddress s.cfg bank chan →
      ∃ t, exec (.set reg bank chan d0) s = .next t ∧
        t = { s with dac := t.dac, off := t.off, gain := t.gain, result := some (.ok .unit) } ∧
        (∀ k', k' ≠ k → t.store k' = s.store k') ∧
        (∀ b c, c.val < s.cfg.nch → Covers bank chan b c → ((t.store k).at b c).toNat = d0.toNat % 2 ^ s.cfg.res) ∧
        (∀ b c, c.val < s.cfg.nch → ¬ Covers bank chan b c → (t.store k).at b c = (s.store k).at b c))

/-- R55, whole; the last three clauses are its corner case. -/
def Obligations.GetgofsReturnsGlobalOffset : Prop :=
  ∀ (s : State) (bank : BankSel),
    (s.cfg.supported = false →
      exec (.getgofs bank) s = .next { s with result := some (.err .unsupportedResolution) }) ∧
    (s.cfg.supported = true → (bank = .bankAll ∨ bank = .undefined) →
      exec (.getgofs bank) s = .next { s with result := some (.err .invalidAddress) }) ∧
    (∀ b, s.cfg.supported = true → bank = b.sel →
      exec (.getgofs bank) s = .next { s with result := some (.ok (.gofs (s.gofs.read b))) } ∧
      (s.gofs.read b).toNat ≤ 0x3FFF) ∧
    (∀ (i : Instr) (t : State), i ≠ .reset → exec i s = .next t → t.gofs = s.gofs) ∧
    (∀ t, s.cfg.supported = true → exec .reset s = .next t → ∀ b, t.gofs.read b = s.cfg.defGofs) ∧
    (∀ (cfg : Cfg) (b : Bank), cfg.supported = true → (State.construct cfg).gofs.read b = cfg.defGofs)

/-- R56, whole. -/
def Obligations.GetboundsReturnsBounds : Prop :=
  ∀ (s : State) (bank : BankSel) (chan : ChanSel),
    (s.cfg.supported = false →
      exec (.getbounds bank chan) s = .next { s with result := some (.err .unsupportedResolution) }) ∧
    (s.cfg.supported = true → (¬ ∃ b c, Concrete s.cfg bank chan b c) →
      exec (.getbounds bank chan) s = .next { s with result := some (.err .invalidAddress) }) ∧
    (∀ b c, s.cfg.supported = true → Concrete s.cfg bank chan b c →
      exec (.getbounds bank chan) s = .next { s with result := some (.ok (.bounds (s.min.at b c) (s.max.at b c))) })

/-- R57, whole; there is no premise that D0 ≤ D1. -/
def Obligations.SetboundsStoresMaskedBounds : Prop :=
  ∀ (s : State) (bank : BankSel) (chan : ChanSel) (d0 d1 : Code),
    (s.cfg.supported = false →
      exec (.setbounds bank chan d0 d1) s = .next { s with result := some (.err .unsupportedResolution) }) ∧
    (s.cfg.supported = true → (¬ ∃ b c, Concrete s.cfg bank chan b c) →
      exec (.setbounds bank chan d0 d1) s = .next { s with result := some (.err .invalidAddress) }) ∧
    (∀ b c, s.cfg.supported = true → Concrete s.cfg bank chan b c →
      ∃ t, exec (.setbounds bank chan d0 d1) s = .next t ∧
        t = { s with min := t.min, max := t.max, result := some (.ok .unit) } ∧
        (t.min.at b c).toNat = d0.toNat % 2 ^ s.cfg.res ∧ (t.max.at b c).toNat = d1.toNat % 2 ^ s.cfg.res ∧
        ((t.max.at b c).toNat < (t.min.at b c).toNat → t.cfg.validate = true →
          (∀ reg d i, reg ≠ .unrecognised → i ∈ [.encw reg bank chan d, .write reg bank chan d] →
            exec i t = .next { t with result := some (.err .outOfRange) }) ∧
          (∀ v v' code, t.cfg.fmt.accept v = some v' → t.v2c b c v' = some code →
            exec (.writev bank chan v) t = .next { t with result := some (.err .outOfRange) })) ∧
        (∀ b' c', c'.val < s.cfg.nch → ¬ (b' = b ∧ c' = c) →
          t.min.at b' c' = s.min.at b' c' ∧ t.max.at b' c' = s.max.at b' c'))

/-- R58, whole: no premise on RES. -/
def Obligations.GetrefReturnsReference : Prop :=
  ∀ (s : State) (bank : BankSel),
    ((bank = .bankAll ∨ bank = .undefined) →
      exec (.getref bank) s = .next { s with result := some (.err .invalidAddress) }) ∧
    (∀ b, bank = b.sel →
      exec (.getref bank) s = .next { s with result := some (.ok (.num (s.vref.read b))) })

/-- R59. The rounding of an operand under FLOAT_FMT and the refusal of an operand that is no Num are the model's (entry 14). -/
def Obligations.SetrefStoresReference : Prop :=
  ∀ (s : State) (bank : BankSel) (v : Volts),
    (∀ v', s.cfg.fmt.accept v = some v' → (bank = .bankAll ∨ bank = .undefined) →
      exec (.setref bank v) s = .next { s with result := some (.err .invalidAddress) }) ∧
    (∀ v' b, s.cfg.fmt.accept v = some v' → bank = b.sel →
      ∃ t, exec (.setref bank v) s = .next t ∧
        t = { s with vref := t.vref, result := some (.ok .unit) } ∧
        t.vref.read b = v' ∧ (∀ b', b' ≠ b → t.vref.read b' = s.vref.read b')) ∧
    (∀ q, s.cfg.fmt = .exact → s.cfg.fmt.accept (.fin q) = some (.fin q)) ∧
    (s.cfg.fmt.accept v = none → exec (.setref bank v) s = .refused .operandNotNum)

/-- R60 to R65 under Num = ℚ; mm, cc and x are those of Safety.lean, written apart from the model's arithmetic. The reading of the default substitution is the spec's decision D12 (entry 17). -/
def Obligations.V2cFollowsExactFormula : Prop :=
  ∀ (s : State) (bank : BankSel) (chan : ChanSel) (b : Bank) (c : Chan) (r q : ℚ),
    s.cfg.supported = true → s.cfg.fmt = .exact → Concrete s.cfg bank chan b c →
    s.vref.read b = .fin r → r ≠ 0 → s.slopeQ b c ≠ 0 →
    ∃ n : Code, (n.toNat : ℤ) = ⌊min (max (s.forwardQ b c r q) 0) (2 ^ s.cfg.res - 1)⌋ ∧
      exec (.v2c bank chan (.fin q)) s = .next { s with result := some (.ok (.code n)) }

/-- R64 and R65 for every format of R9. What x is under FLOAT_FMT rests on entries 13 and 14, the model's choices. -/
def Obligations.V2cConvertsInEveryFormat : Prop :=
  ∀ (s : State) (bank : BankSel) (chan : ChanSel) (b : Bank) (c : Chan) (v v' : Volts),
    s.cfg.supported = true → Concrete s.cfg bank chan b c → s.cfg.fmt.accept v = some v' →
    (∀ code, s.v2c b c v' = some code →
      exec (.v2c bank chan v) s = .next { s with result := some (.ok (.code code)) }) ∧
    ((s.vref.read b).isZero = false → (s.mm b c).isZero = false → s.unclamped b c v' ≠ .nan →
      ∃ n : Code, exec (.v2c bank chan v) s = .next { s with result := some (.ok (.code n)) } ∧
        (s.unclamped b c v' = .posInf → n.toNat = 2 ^ s.cfg.res - 1) ∧
        (s.unclamped b c v' = .negInf ∨ s.unclamped b c v' = .negZero → n.toNat = 0) ∧
        (∀ x, s.unclamped b c v' = .fin x → (n.toNat : ℤ) = ⌊min (max x 0) (2 ^ s.cfg.res - 1)⌋))

/-- R86: its three cases, for both requests, with the whole next state, and the mark that is never cleared. -/
def Obligations.NumericDomainFaults : Prop :=
  (∀ (s : State) (bank : BankSel) (chan : ChanSel) (b : Bank) (c : Chan) (v v' : Volts),
    s.cfg.supported = true → Concrete s.cfg bank chan b c → s.cfg.fmt.accept v = some v' →
    ((s.vref.read b).isZero = true ∨ (s.gain.at b c).toNat + 1 = s.cfg.defGain.toNat ∨
      s.dacCode b v' = .nan ∨ s.unclamped b c v' = .nan) →
    exec (.v2c bank chan v) s =
      .next { s with fault := some .numericDomain, result := some (.fault .numericDomain) } ∧
    exec (.writev bank chan v) s =
      .next { s with fault := some .numericDomain, result := some (.fault .numericDomain) } ∧
    (Result.fault .numericDomain).status = 5) ∧
  (∀ s t : State, s.fault = some .numericDomain → step s = .next t → t.fault = some .numericDomain)

/-- The error cases of R65, R67 and R79, in the order of R88. -/
def Obligations.VoltageRequestErrors : Prop :=
  ∀ (s : State) (bank : BankSel) (chan : ChanSel) (v v' : Volts) (d0 : Code) (i : Instr),
    s.cfg.fmt.accept v = some v' → i ∈ [.v2c bank chan v, .writev bank chan v, .c2v bank chan d0] →
    (s.cfg.supported = false → exec i s = .next { s with result := some (.err .unsupportedResolution) }) ∧
    (s.cfg.supported = true → (¬ ∃ b c, Concrete s.cfg bank chan b c) →
      exec i s = .next { s with result := some (.err .invalidAddress) })

/-- R64 'result code -- integer, 0 ≤ code ≤ MASK_R'; R65 'never a wrapped or out-of-bound value'. -/
def Obligations.V2cNeverExceedsFullScale : Prop :=
  ∀ (s t : State) (bank : BankSel) (chan : ChanSel) (v : Volts) (n : Code),
    exec (.v2c bank chan v) s = .next t → t.result = some (.ok (.code n)) → n.toNat ≤ 2 ^ s.cfg.res - 1

/-- A consequence of R64 in exact arithmetic. -/
def Obligations.V2cIsMonotone : Prop :=
  ∀ (s : State) (bank : BankSel) (chan : ChanSel) (b : Bank) (c : Chan) (r q q' : ℚ),
    s.cfg.supported = true → s.cfg.fmt = .exact → Concrete s.cfg bank chan b c →
    s.vref.read b = .fin r → 0 < r → 0 < s.slopeQ b c → q ≤ q' →
    ∃ n n' : Code, n.toNat ≤ n'.toNat ∧
      exec (.v2c bank chan (.fin q)) s = .next { s with result := some (.ok (.code n)) } ∧
      exec (.v2c bank chan (.fin q')) s = .next { s with result := some (.ok (.code n')) }

/-- R69, its third consequence. -/
def Obligations.ReducedGainGivesZero : Prop :=
  ∀ (s : State) (bank : BankSel) (chan : ChanSel) (b : Bank) (c : Chan) (r q : ℚ),
    s.cfg.supported = true → s.cfg.fmt = .exact → Concrete s.cfg bank chan b c →
    s.vref.read b = .fin r → r ≠ 0 → s.cfg.defGain.toNat = 2 ^ s.cfg.res - 1 →
    (s.gain.at b c).toNat + 1 < s.cfg.defGain.toNat → 0 < s.dacQ b r q - s.interceptQ b c →
    s.slopeQ b c < 0 ∧ exec (.v2c bank chan (.fin q)) s = .next { s with result := some (.ok (.code 0)) }

/-- R66 and R67 under Num = ℚ; D0 is not masked and nothing is clamped. -/
def Obligations.C2vFollowsExactInverse : Prop :=
  ∀ (s : State) (bank : BankSel) (chan : ChanSel) (b : Bank) (c : Chan) (r : ℚ) (d0 : Code),
    s.cfg.supported = true → s.cfg.fmt = .exact → (s.cfg.res = 16 ∨ s.cfg.inv14 = .inverse) →
    Concrete s.cfg bank chan b c → s.vref.read b = .fin r →
    exec (.c2v bank chan d0) s = .next { s with result := some (.ok (.num (.fin (s.inverseQ b c r d0)))) }

/-- 93_implementation_defined.md I3 and P6: the alternative behaviour, for a reader who must match the source code (entry 16). -/
def Obligations.C2vLiteralFourteenBit : Prop :=
  ∀ (s : State) (bank : BankSel) (chan : ChanSel) (b : Bank) (c : Chan) (r : ℚ) (d0 : Code),
    s.cfg.res = 14 → s.cfg.inv14 = .literal → s.cfg.fmt = .exact →
    Concrete s.cfg bank chan b c → s.vref.read b = .fin r →
    exec (.c2v bank chan d0) s = .next { s with result := some (.ok (.num (.fin
      (4 * r * (d0.toNat * s.slopeQ b c + (s.off.at b c).toNat - 2 ^ 13) / 2 ^ 14 - ((s.gofs.read b).toNat : ℚ) / 2 ^ 14)))) }

/-- R67 with R9's 'a NaN result faults NumericDomain' and I7. The reading of R66's 'C2V never faults' beside it is the model's (entry 15). -/
def Obligations.C2vCompletesOrFaultsOnNan : Prop :=
  ∀ (s : State) (bank : BankSel) (chan : ChanSel) (b : Bank) (c : Chan) (d0 : Code),
    s.cfg.supported = true → Concrete s.cfg bank chan b c →
    (s.c2v b c d0 ≠ .nan →
      exec (.c2v bank chan d0) s = .next { s with result := some (.ok (.num (s.c2v b c d0))) }) ∧
    (s.c2v b c d0 = .nan →
      exec (.c2v bank chan d0) s =
        .next { s with fault := some .numericDomain, result := some (.fault .numericDomain) }) ∧
    (∀ r, s.cfg.fmt = .exact → s.vref.read b = .fin r → s.c2v b c d0 ≠ .nan)

/-- R68, for every positive reference and every global offset; the last clause is R68's span. -/
def Obligations.RoundTripWithinOneStep : Prop :=
  ∀ (s : State) (bank : BankSel) (chan : ChanSel) (b : Bank) (c : Chan) (r q : ℚ),
    s.cfg.supported = true → s.cfg.fmt = .exact → (s.cfg.res = 16 ∨ s.cfg.inv14 = .inverse) →
    Concrete s.cfg bank chan b c → s.DefaultCalibration b c → s.vref.read b = .fin r → 0 < r →
    ((0 ≤ s.dacQ b r q ∧ s.dacQ b r q ≤ 2 ^ s.cfg.res - 1) ∨
      (r = 5 ∧ s.gofs.read b = 0x2000 ∧ -10 ≤ q ∧ q ≤ 10 - 20 / 2 ^ s.cfg.res)) →
    ∃ (n : Code) (v : ℚ),
      exec (.v2c bank chan (.fin q)) s = .next { s with result := some (.ok (.code n)) } ∧
      exec (.c2v bank chan n) s = .next { s with result := some (.ok (.num (.fin v))) } ∧
      0 ≤ q - v ∧ q - v < 4 * r / 2 ^ s.cfg.res

/-- R74 with R70, R71 and R45; the word is given by its number. -/
def Obligations.EncwReturnsWriteWord : Prop :=
  ∀ (s : State) (reg : RegSel) (k : RegKind) (bank : BankSel) (chan : ChanSel) (d0 : Code),
    s.cfg.supported = true → reg.kind = some k → ValidAddress s.cfg bank chan → s.GatePasses bank chan d0 →
    ∃ w : CmdWord, w.toNat = writeWordNumber s.cfg k bank chan d0 ∧
      exec (.encw reg bank chan d0) s = .next { s with result := some (.ok (.word w)) }

/-- R78 with R99: store and event land together; errors are WriteErrorsInOrder; LOAD is not pulsed (the only event is Cmd(w)). -/
def Obligations.WriteStoresAndEmits : Prop :=
  ∀ (s : State) (reg : RegSel) (k : RegKind) (bank : BankSel) (chan : ChanSel) (d0 : Code),
    s.cfg.supported = true → reg.kind = some k → ValidAddress s.cfg bank chan → s.GatePasses bank chan d0 →
    ∃ (w : CmdWord) (t : State), w.toNat = writeWordNumber s.cfg k bank chan d0 ∧
      exec (.write reg bank chan d0) s = .next t ∧
      t = { s with dac := t.dac, off := t.off, gain := t.gain, events := s.events ++ [.cmd w],
                   result := some (.ok (.word w)) } ∧
      (∀ k', k' ≠ k → t.store k' = s.store k') ∧
      (∀ b c, c.val < s.cfg.nch → Covers bank chan b c → ((t.store k).at b c).toNat = d0.toNat % 2 ^ s.cfg.res) ∧
      (∀ b c, c.val < s.cfg.nch → ¬ Covers bank chan b c → (t.store k).at b c = (s.store k).at b c)

/-- R73's checks in R88's order, with R72's gate: both bounds inclusive, every register kind alike. -/
def Obligations.WriteErrorsInOrder : Prop :=
  ∀ (s : State) (reg : RegSel) (bank : BankSel) (chan : ChanSel) (d0 : Code) (i : Instr),
    i ∈ [.encw reg bank chan d0, .write reg bank chan d0] →
    (s.cfg.supported = false → exec i s = .next { s with result := some (.err .unsupportedResolution) }) ∧
    (s.cfg.supported = true → reg = .unrecognised →
      exec i s = .next { s with result := some (.err .invalidRegisterSelector) }) ∧
    (s.cfg.supported = true → reg ≠ .unrecognised → ¬ ValidAddress s.cfg bank chan →
      exec i s = .next { s with result := some (.err .invalidAddress) }) ∧
    (∀ b c, s.cfg.supported = true → reg ≠ .unrecognised → s.cfg.validate = true → Concrete s.cfg bank chan b c →
      ¬ s.InBounds b c d0 → exec i s = .next { s with result := some (.err .outOfRange) })

/-- R102: no premise on the bounds. -/
def Obligations.BroadcastBypassesValidation : Prop :=
  ∀ (s : State) (reg : RegSel) (k : RegKind) (bank : BankSel) (d0 : Code),
    s.cfg.validate = true → s.cfg.supported = true → reg.kind = some k → bank ≠ .undefined →
    ∃ (w : CmdWord) (t : State), w.toNat = writeWordNumber s.cfg k bank .all d0 ∧
      exec (.write reg bank .all d0) s = .next t ∧ t.events = s.events ++ [.cmd w] ∧
      (∀ b c, c.val < s.cfg.nch → (bank = b.sel ∨ bank = .bankAll) →
        ((t.store k).at b c).toNat = d0.toNat % 2 ^ s.cfg.res)

/-- R74 'ENCW gives exactly the word WRITE would emit in the same state'. -/
def Obligations.EncwPredictsWrite : Prop :=
  ∀ (s : State) (reg : RegSel) (bank : BankSel) (chan : ChanSel) (d0 : Code),
    ∃ t u, exec (.encw reg bank chan d0) s = .next t ∧ exec (.write reg bank chan d0) s = .next u ∧
      t.result = u.result ∧ t = { s with result := u.result } ∧
      (∀ w, u.result = some (.ok (.word w)) → u.events = s.events ++ [.cmd w])

/-- R76 with R46's frame around READ_SEL(rsel, bank, chan), an arbitrary table (R5). How the table is held is the model's
(entry 10). -/
def Obligations.ReadbackRequestWords : Prop :=
  ∀ (s : State) (bank : BankSel) (chan : ChanSel),
    (∀ b c, Concrete s.cfg bank chan b c →
      ∀ p ∈ [(ReadName.x1a, s.cfg.readSel.x1a), (.x1b, s.cfg.readSel.x1b), (.c, s.cfg.readSel.c), (.m, s.cfg.readSel.m)],
        ∃ w : CmdWord, w.toNat = 5 * 2 ^ 16 + (p.2.at b c).toNat ∧
          exec (.encr p.1 bank chan) s = .next { s with result := some (.ok (.word w)) } ∧
          exec (.readreq p.1 bank chan) s =
            .next { s with events := s.events ++ [.cmd w], result := some (.ok (.word w)) }) ∧
    (∀ p ∈ [(ReadName.control, s.cfg.readSel.control), (.ofs0, s.cfg.readSel.ofs0), (.ofs1, s.cfg.readSel.ofs1),
        (.absel0, s.cfg.readSel.absel0), (.absel1, s.cfg.readSel.absel1), (.gpio, s.cfg.readSel.gpio)],
      ∃ w : CmdWord, w.toNat = 5 * 2 ^ 16 + p.2.toNat ∧
        exec (.encr p.1 bank chan) s = .next { s with result := some (.ok (.word w)) } ∧
        exec (.readreq p.1 bank chan) s =
          .next { s with events := s.events ++ [.cmd w], result := some (.ok (.word w)) })

/-- R76 and the error clauses of R77 and R80. There is no premise on RES. -/
def Obligations.ReadbackRequestErrors : Prop :=
  ∀ (s : State) (rsel : ReadName) (bank : BankSel) (chan : ChanSel) (i : Instr),
    i ∈ [.encr rsel bank chan, .readreq rsel bank chan] →
    (∀ n, rsel = .unrecognised n → exec i s = .next { s with result := some (.err .invalidRegisterSelector) }) ∧
    (rsel ∈ [.x1a, .x1b, .c, .m] → (¬ ∃ b c, Concrete s.cfg bank chan b c) →
      exec i s = .next { s with result := some (.err .invalidAddress) })

/-- The table of R75 as words; the codes are the family's, the spec's recommendation (entry 10). -/
def Obligations.RecommendedReadbackWords : Prop :=
  ∀ (s : State) (bank : BankSel) (chan : ChanSel), s.cfg.readSel = ReadSel.recommended →
    (∀ p ∈ [(ReadName.control, (0x058080 : CmdWord)), (.ofs0, 0x058100), (.ofs1, 0x058180), (.absel0, 0x058300),
        (.absel1, 0x058380), (.gpio, 0x058580)],
      exec (.encr p.1 bank chan) s = .next { s with result := some (.ok (.word p.2)) }) ∧
    (∀ b c, Concrete s.cfg bank chan b c →
      ∀ p ∈ [(ReadName.x1a, 0x050000), (.x1b, 0x052000), (.c, 0x054000), (.m, 0x056000)],
        exec (.encr p.1 bank chan) s =
          .next { s with result := some (.ok (.word (BitVec.ofNat 24 (p.2 + addrNumber bank chan * 0x80)))) })

/-- R79; the code is the model's v2c, which V2cFollowsExactFormula gives in closed form. -/
def Obligations.WritevConvertsStoresAndEmits : Prop :=
  ∀ (s : State) (bank : BankSel) (chan : ChanSel) (b : Bank) (c : Chan) (v v' : Volts) (code : Code),
    s.cfg.supported = true → Concrete s.cfg bank chan b c → s.cfg.fmt.accept v = some v' →
    s.v2c b c v' = some code →
    ((s.cfg.validate = true → (s.min.at b c).toNat ≤ code.toNat ∧ code.toNat ≤ (s.max.at b c).toNat) →
      ∃ (w : CmdWord) (t : State), w.toNat = writeWordNumber s.cfg .dac bank chan code ∧
        exec (.writev bank chan v) s = .next t ∧
        t = { s with dac := t.dac, events := s.events ++ [.cmd w], result := some (.ok (.code code)) } ∧
        t.dac.at b c = code ∧ (∀ b' c', ¬ (b' = b ∧ c' = c) → t.dac.at b' c' = s.dac.at b' c')) ∧
    (s.cfg.validate = true → (code.toNat < (s.min.at b c).toNat ∨ (s.max.at b c).toNat < code.toNat) →
      exec (.writev bank chan v) s = .next { s with result := some (.err .outOfRange) })

/-- R79 with R64's formula in place of v2c: the completion of WRITEV under hypotheses on the state and the operands alone. -/
def Obligations.WritevInExactArithmetic : Prop :=
  ∀ (s : State) (bank : BankSel) (chan : ChanSel) (b : Bank) (c : Chan) (r q : ℚ),
    s.cfg.supported = true → s.cfg.fmt = .exact → Concrete s.cfg bank chan b c →
    s.vref.read b = .fin r → r ≠ 0 → s.slopeQ b c ≠ 0 →
    (s.cfg.validate = true → s.min.at b c = 0 ∧ (s.max.at b c).toNat = 2 ^ s.cfg.res - 1) →
    ∃ (n : Code) (w : CmdWord) (t : State), (n.toNat : ℤ) = ⌊min (max (s.forwardQ b c r q) 0) (2 ^ s.cfg.res - 1)⌋ ∧
      w.toNat = writeWordNumber s.cfg .dac bank chan n ∧ exec (.writev bank chan (.fin q)) s = .next t ∧
      t = { s with dac := t.dac, events := s.events ++ [.cmd w], result := some (.ok (.code n)) } ∧
      t.dac.at b c = n ∧ (∀ b' c', ¬ (b' = b ∧ c' = c) → t.dac.at b' c' = s.dac.at b' c')

/-- R81, whole: no premise, so LOAD with no earlier WRITE still emits the pulse. -/
def Obligations.LoadAppendsLoadPulse : Prop :=
  ∀ s : State, exec .load s = .next { s with events := s.events ++ [.loadPulse], result := some (.ok .unit) }

/-- R82: the core keeps no line level and no other request is blocked while the line is asserted. -/
def Obligations.ClearAppendsLevel : Prop :=
  ∀ (s : State) (f : Bool),
    exec (.clear f) s = .next { s with events := s.events ++ [.clear f], result := some (.ok .unit) } ∧
    (∀ t, exec (.clear f) s = .next t →
      exec (.clear f) t = .next { s with events := s.events ++ [.clear f, .clear f], result := some (.ok .unit) }) ∧
    (∀ t, exec (.clear f) s = .next t → ∀ i u, i.isRequest = true → exec i s = .next u →
      ∃ evs, u.events = s.events ++ evs ∧ exec i t = .next { u with events := t.events ++ evs })

/-- R83, whole. Slots of no channel (c ≥ NCH) are the subject of SpareSlotsNeverChange. -/
def Obligations.ResetRestoresEveryEntry : Prop :=
  ∀ s : State,
    (s.cfg.supported = false → exec .reset s = .next { s with result := some (.err .unsupportedResolution) }) ∧
    (s.cfg.supported = true →
      ∃ t, exec .reset s = .next t ∧
        t = { s with dac := t.dac, off := t.off, gain := t.gain, min := t.min, max := t.max, gofs := t.gofs,
                     vref := t.vref, events := s.events ++ [.resetPulse], result := some (.ok .unit) } ∧
        (∀ b c, c.val < s.cfg.nch →
          t.dac.at b c = s.cfg.defDac ∧ t.off.at b c = s.cfg.defOffset ∧ t.gain.at b c = s.cfg.defGain ∧
          t.min.at b c = s.cfg.defMin ∧ t.max.at b c = s.cfg.defMax) ∧
        (∀ b, t.gofs.read b = s.cfg.defGofs ∧ t.vref.read b = s.cfg.defVref))

/-- R42 to R46 for the words, R93 and R16 for the event. That a CW24 row of the table runs as the hand-over of its word is the model's choice (entry 7). -/
def Obligations.CommandWordsAreHandedOver : Prop :=
  ∀ (s : State) (ccc g : BitVec 3) (payload : BitVec 16) (a : BitVec 6),
    (s.cfg.supported = true → (s.cfg.res = 14 → payload.toNat % 4 = 0) → ccc.toNat < s.cfg.nch →
      ∀ p ∈ ([(.cwWrDacB0Ch ccc payload, 3 * 2 ^ 22 + (8 + ccc.toNat) * 2 ^ 16 + payload.toNat),
        (.cwWrDacB1Ch ccc payload, 3 * 2 ^ 22 + (16 + ccc.toNat) * 2 ^ 16 + payload.toNat),
        (.cwWrOffsetB0Ch ccc payload, 2 * 2 ^ 22 + (8 + ccc.toNat) * 2 ^ 16 + payload.toNat),
        (.cwWrOffsetB1Ch ccc payload, 2 * 2 ^ 22 + (16 + ccc.toNat) * 2 ^ 16 + payload.toNat),
        (.cwWrGainB0Ch ccc payload, 1 * 2 ^ 22 + (8 + ccc.toNat) * 2 ^ 16 + payload.toNat),
        (.cwWrGainB1Ch ccc payload, 1 * 2 ^ 22 + (16 + ccc.toNat) * 2 ^ 16 + payload.toNat)] : List (Instr × Nat)),
        ∃ w : CmdWord, w.toNat = p.2 ∧ exec p.1 s = .next { s with events := s.events ++ [.cmd w] }) ∧
    (s.cfg.supported = true → (s.cfg.res = 14 → payload.toNat % 4 = 0) →
      ∀ p ∈ ([(.cwWrDacB0All payload, 3 * 2 ^ 22 + 1 * 2 ^ 16 + payload.toNat),
        (.cwWrDacB1All payload, 3 * 2 ^ 22 + 2 * 2 ^ 16 + payload.toNat),
        (.cwWrDacAllAll payload, 3 * 2 ^ 22 + 0 * 2 ^ 16 + payload.toNat),
        (.cwWrOffsetB0All payload, 2 * 2 ^ 22 + 1 * 2 ^ 16 + payload.toNat),
        (.cwWrOffsetB1All payload, 2 * 2 ^ 22 + 2 * 2 ^ 16 + payload.toNat),
        (.cwWrOffsetAllAll payload, 2 * 2 ^ 22 + 0 * 2 ^ 16 + payload.toNat),
        (.cwWrGainB0All payload, 1 * 2 ^ 22 + 1 * 2 ^ 16 + payload.toNat),
        (.cwWrGainB1All payload, 1 * 2 ^ 22 + 2 * 2 ^ 16 + payload.toNat),
        (.cwWrGainAllAll payload, 1 * 2 ^ 22 + 0 * 2 ^ 16 + payload.toNat)] : List (Instr × Nat)),
        ∃ w : CmdWord, w.toNat = p.2 ∧ exec p.1 s = .next { s with events := s.events ++ [.cmd w] }) ∧
    (∃ w : CmdWord, w.toNat = 5 * 2 ^ 16 + g.toNat * 2 ^ 13 + a.toNat * 2 ^ 7 ∧
      exec (.cwReadSel g a) s = .next { s with events := s.events ++ [.cmd w] })

/-- R48's list by the numbers of the fields (NeverEmitted), I5 'refuse'. The premise on RES for a write word is the model's
reading of R73 (entry 8); that running a form of the table hands over its word is the model's choice (entry 7). -/
def Obligations.UnemittableWordsAreRefused : Prop :=
  ∀ (s : State) (i : Instr) (w : CmdWord), encode i = .cmdWord w →
    (NeverEmitted s.cfg w → exec i s = .refused .notEmitted) ∧
    (¬ NeverEmitted s.cfg w → exec i s = .next { s with events := s.events ++ [.cmd w] })

/-- R78 split along the table: the store half is R54's SET, the event half the CW24 row of the word (entry 7). -/
def Obligations.WriteIsSetThenCommandWord : Prop :=
  ∀ (s t : State) (reg : RegSel) (bank : BankSel) (chan : ChanSel) (d0 : Code) (w : CmdWord),
    exec (.write reg bank chan d0) s = .next t → t.result = some (.ok (.word w)) →
    ∃ (i : Instr) (u : State), decodeCmdWord w = .ok i ∧ i.wf s.cfg = true ∧
      exec (.set reg bank chan d0) s = .next u ∧ exec i u = .next { t with result := u.result }

/-- R18's masking invariant and R48's list, inductive over every input a host can present. -/
def Obligations.EveryStepKeepsInvariant : Prop :=
  ∀ s t : State, s.Inv → step s = .next t → t.Inv

/-- R18 'The invariant holds at reset (rule R22)'. The standard configuration is the model's choice (entry 2). -/
def Obligations.ConstructionMeetsInvariant : Prop :=
  (∀ c : Cfg, c.Legal → (State.construct c).Inv) ∧ State.reset.Inv

/-- R96 with R22 and R23; the numbers are D10's recommendation, taken as the standard configuration's (entries 2, 3). -/
def Obligations.ConstructionHoldsDefaults : Prop :=
  (∀ (cfg : Cfg) (b : Bank) (c : Chan), cfg.supported = true →
    (State.construct cfg).dac.at b c = cfg.defDac ∧ (State.construct cfg).off.at b c = cfg.defOffset ∧
    (State.construct cfg).gain.at b c = cfg.defGain ∧ (State.construct cfg).min.at b c = cfg.defMin ∧
    (State.construct cfg).max.at b c = cfg.defMax ∧ (State.construct cfg).gofs.read b = cfg.defGofs) ∧
  (∀ (cfg : Cfg) (b : Bank), (State.construct cfg).vref.read b = cfg.defVref ∧ (State.construct cfg).events = [] ∧
    (State.construct cfg).fault = none ∧ (State.construct cfg).refused = false) ∧
  (∀ (b : Bank) (c : Chan),
    State.reset.dac.at b c = 0x8000 ∧ State.reset.off.at b c = 0x8000 ∧ State.reset.gain.at b c = 0xFFFF ∧
    State.reset.min.at b c = 0 ∧ State.reset.max.at b c = 0xFFFF ∧ State.reset.gofs.read b = 0x2000 ∧
    State.reset.vref.read b = .fin 5)

/-- R22 'After construction … and after a successful RESET …, every entry holds the value below'; R97. -/
def Obligations.ResetReturnsToConstruction : Prop :=
  ∀ s t : State, s.cfg.supported = true → exec .reset s = .next t →
    (∀ (k : RegKind) (b : Bank) (c : Chan), c.val < s.cfg.nch →
      (t.store k).at b c = ((State.construct s.cfg).store k).at b c ∧
      t.min.at b c = (State.construct s.cfg).min.at b c ∧ t.max.at b c = (State.construct s.cfg).max.at b c) ∧
    t.gofs = (State.construct s.cfg).gofs ∧ t.vref = (State.construct s.cfg).vref

/-- Errors and the fault are results after which the run goes on (R85, R86, R91; entry 18). -/
def Obligations.EveryWellFormedInstructionCompletes : Prop :=
  ∀ (s : State) (i : Instr), i.wf s.cfg = true → ∃ t, exec i s = .next t

/-- R91: after a fault or a refusal of the spec the core still executes later requests (entry 18). The two refusals are the
model's (entries 8, 14). -/
def Obligations.NoStepFaults : Prop :=
  ∀ s : State,
    (∀ f, step s ≠ .fault f) ∧
    (∀ m, step s ≠ .refused (.notModelled m)) ∧
    (step s = .refused .notEmitted ↔ ∃ w rest, s.inputs = .cmdWord w :: rest ∧ NeverEmitted s.cfg w) ∧
    (step s = .refused .operandNotNum ↔
      ∃ h d0 d1 v rest i, s.inputs = .request h d0 d1 v :: rest ∧ decodeRequest h d0 d1 v = .ok i ∧
        ((∃ bank, i = .setref bank v) ∨ (∃ bank chan, i = .v2c bank chan v) ∨ (∃ bank chan, i = .writev bank chan v)) ∧
        s.cfg.fmt.accept v = none)

/-- R85 over all 17 requests, as a rule of the whole machine. -/
def Obligations.ErrorsChangeNothing : Prop :=
  ∀ (s t : State) (i : Instr) (e : ErrKind), i.isRequest = true → exec i s = .next t → t.result = some (.err e) →
    t = { s with result := some (.err e) } ∧ 1 ≤ e.status ∧ e.status ≤ 4 ∧
      (∀ j : Instr, j.isRequest = true → exec j t = exec j s)

/-- R30 'change nothing', with the one mark R86 lets V2C set, and R9 C2V where its result is a NaN (entry 15). -/
def Obligations.ReadsChangeNothing : Prop :=
  ∀ (s t : State) (i : Instr), i.readsOnly = true → exec i s = .next t →
    t = { s with fault := t.fault, result := t.result } ∧
    (t.fault = s.fault ∨
      (t.fault = some .numericDomain ∧ t.result = some (.fault .numericDomain) ∧
        ((∃ bank chan v, i = .v2c bank chan v) ∨
          ∃ bank chan d0 b c, i = .c2v bank chan d0 ∧ Concrete s.cfg bank chan b c ∧ s.c2v b c d0 = .nan)))

/-- R30's first two points; the results agree as well, since the result port is part of the state. -/
def Obligations.RepeatedRequestsAreIdempotent : Prop :=
  ∀ (s t : State) (i : Instr),
    (i.readsOnly = true ∨ (∃ reg bank chan d0, i = .set reg bank chan d0) ∨
      (∃ bank chan d0 d1, i = .setbounds bank chan d0 d1) ∨ (∃ bank v, i = .setref bank v)) →
    exec i s = .next t → exec i t = .next t

/-- R13 'Only SET, WRITE, WRITEV and RESET write them', R14, R15, as rules over all instructions. -/
def Obligations.OnlyWritersWriteTheStore : Prop :=
  ∀ (s t : State) (i : Instr), exec i s = .next t → i ≠ .reset →
    ((∀ reg bank chan d0, i ≠ .set reg bank chan d0 ∧ i ≠ .write reg bank chan d0) → (∀ bank chan v, i ≠ .writev bank chan v) →
      t.dac = s.dac ∧ t.off = s.off ∧ t.gain = s.gain) ∧
    ((∀ bank chan d0 d1, i ≠ .setbounds bank chan d0 d1) → t.min = s.min ∧ t.max = s.max) ∧
    t.gofs = s.gofs ∧
    ((∀ bank v, i ≠ .setref bank v) → t.vref = s.vref)

/-- The frame of the slots that the spec does not give the machine (entry 11): the targets of R52 lie below NCH. -/
def Obligations.SpareSlotsNeverChange : Prop :=
  ∀ (s t : State) (i : Instr), exec i s = .next t → ∀ (k : RegKind) (b : Bank) (c : Chan), ¬ c.val < s.cfg.nch →
    (t.store k).at b c = (s.store k).at b c ∧ t.min.at b c = s.min.at b c ∧ t.max.at b c = s.max.at b c

/-- R20 'Every field is read-only to every request'. That the configuration stands in State is the model's choice (entry 1). -/
def Obligations.ConfigurationNeverChanges : Prop :=
  ∀ s t : State, step s = .next t → t.cfg = s.cfg

/-- R16 'nothing ever removes one'; R29: an error, fault or refusal appends nothing; R30's third point names who appends. -/
def Obligations.HistoryOnlyGrows : Prop :=
  ∀ (s t : State) (i : Instr), exec i s = .next t →
    (t.events = s.events ∨ ∃ ev, t.events = s.events ++ [ev]) ∧
    (t.events ≠ s.events → i.isRequest = true →
      ((∃ reg bank chan d0, i = .write reg bank chan d0) ∨ (∃ bank chan v, i = .writev bank chan v) ∨
        (∃ rsel bank chan, i = .readreq rsel bank chan) ∨ i = .load ∨ (∃ f, i = .clear f) ∨ i = .reset) ∧
      ∃ x, t.result = some (.ok x))

/-- R17 over every step: there is no premise on the instruction. Good is Safety.lean's name for neither mark set (R17, R25). -/
def Obligations.MarksAreSticky : Prop :=
  (∀ s t : State, step s = .next t → (s.fault ≠ none → t.fault ≠ none) ∧ (s.refused = true → t.refused = true)) ∧
  (∀ s t : State, step s = .next t → t.Good → s.Good) ∧
  (∀ c : Cfg, (State.construct c).Good)

/-- R91 'After a fault or a refusal, the core still executes later requests by their rules'. -/
def Obligations.MarksDoNotSteer : Prop :=
  ∀ (s : State) (i : Instr) (f : Option Fault) (r : Bool),
    (∀ t, exec i s = .next t →
      ∃ t', exec i { s with fault := f, refused := r } = .next t' ∧ t = { t' with fault := t.fault, refused := t.refused }) ∧
    (∀ e, exec i s = .refused e → exec i { s with fault := f, refused := r } = .refused e)

/-- R23 'No rule ever reads such an entry'. The entries are free values at construction (entry 4). -/
def Obligations.UnsupportedResolutionHidesCodes : Prop :=
  ∀ (s t : State) (i : Instr) (d o g lo hi : Table) (go : PerBank Gofs),
    s.cfg.supported = false → exec i s = .next t →
    t = { t with dac := s.dac, off := s.off, gain := s.gain, min := s.min, max := s.max, gofs := s.gofs } ∧
    exec i { s with dac := d, off := o, gain := g, min := lo, max := hi, gofs := go } =
      .next { t with dac := d, off := o, gain := g, min := lo, max := hi, gofs := go }

/-- R100 for both calibration registers, SET and WRITE, every targeted channel, and the three requests that use mm and cc. -/
def Obligations.CalibrationTakesEffectAtOnce : Prop :=
  ∀ (s : State) (reg : RegSel) (k : RegKind) (bank : BankSel) (chan : ChanSel) (b : Bank) (c : Chan) (r : ℚ)
    (d0 g o : Code) (i : Instr),
    s.cfg.supported = true → s.cfg.fmt = .exact → reg.kind = some k → ValidAddress s.cfg bank chan →
    Covers bank chan b c → c.val < s.cfg.nch → s.vref.read b = .fin r →
    (i = .set reg bank chan d0 ∨ (i = .write reg bank chan d0 ∧ s.GatePasses bank chan d0)) →
    ((k = .gain ∧ g.toNat = d0.toNat % 2 ^ s.cfg.res ∧ o = s.off.at b c) ∨
      (k = .offset ∧ o.toNat = d0.toNat % 2 ^ s.cfg.res ∧ g = s.gain.at b c)) →
    ∃ t, exec i s = .next t ∧
      (∀ d, (s.cfg.res = 16 ∨ s.cfg.inv14 = .inverse) →
        exec (.c2v b.sel (Chan.sel c) d) t = .next { t with result := some (.ok (.num (.fin
          (4 * r * (d.toNat * s.cfg.slopeQ g + s.cfg.interceptQ o - s.globalQ b) / 2 ^ s.cfg.res)))) }) ∧
      (∀ q, r ≠ 0 → s.cfg.slopeQ g ≠ 0 →
        ∃ n : Code, (n.toNat : ℤ) =
            ⌊min (max ((s.dacQ b r q - s.cfg.interceptQ o) / s.cfg.slopeQ g) 0) (2 ^ s.cfg.res - 1)⌋ ∧
          exec (.v2c b.sel (Chan.sel c) (.fin q)) t = .next { t with result := some (.ok (.code n)) } ∧
          ((s.cfg.validate = true → s.min.at b c = 0 ∧ (s.max.at b c).toNat = 2 ^ s.cfg.res - 1) →
            ∃ (w : CmdWord) (u : State), w.toNat = writeWordNumber s.cfg .dac b.sel (Chan.sel c) n ∧
              exec (.writev b.sel (Chan.sel c) (.fin q)) t = .next u ∧
              u = { t with dac := u.dac, events := t.events ++ [.cmd w], result := some (.ok (.code n)) } ∧
              u.dac.at b c = n ∧ (∀ b' c', ¬ (b' = b ∧ c' = c) → u.dac.at b' c' = t.dac.at b' c')))
end

