-- ==== Sys2Proof/Laws/Decode.lean ====
section
/-! SUPPORT. The header's fields survive packing and unpacking (R33), and every selector survives its bits (R35 to R38). -/

namespace Sys2Proof

@[simp] theorem RegSel.ofBits_bits (r : RegSel) : RegSel.ofBits r.bits = r := by cases r <;> rfl

@[simp] theorem BankSel.ofBits_bits (b : BankSel) : BankSel.ofBits b.bits = b := by cases b <;> rfl

@[simp] theorem ChanSel.ofBits_bits (c : ChanSel) : ChanSel.ofBits c.bits = c := by
  cases c with
  | idx c => revert c; decide
  | all => rfl

@[simp] theorem ReadName.ofBits_bits (r : ReadName) : ReadName.ofBits r.bits = r := by
  cases r with
  | unrecognised n => revert n; decide
  | _ => rfl

/-- The number an appended pair of fields spells. -/
theorem toNat_append_eq {m n : Nat} (x : BitVec m) (y : BitVec n) : (x ++ y).toNat = x.toNat * 2 ^ n + y.toNat := by
  rw [BitVec.toNat_append, ← Nat.shiftLeft_add_eq_or_of_lt y.isLt, Nat.shiftLeft_eq]

/-- The header as a number: each field at its place (R33). -/
theorem packHeader_toNat (f : HeaderFields) :
    (packHeader f).toNat =
      f.op.toNat + f.reg.toNat * 2 ^ 5 + f.bank.toNat * 2 ^ 7 + f.chan.toNat * 2 ^ 9 + f.rsel.toNat * 2 ^ 14 +
        f.flag.toNat * 2 ^ 18 + f.reserved.toNat * 2 ^ 19 := by
  simp only [packHeader, toNat_append_eq]
  omega

/-- Unpacking a packed header gives the fields back (R33). -/
@[simp] theorem unpackHeader_packHeader (f : HeaderFields) : unpackHeader (packHeader f) = f := by
  have h := packHeader_toNat f
  have h1 := f.op.isLt
  have h2 := f.reg.isLt
  have h3 := f.bank.isLt
  have h4 := f.chan.isLt
  have h5 := f.rsel.isLt
  have h6 := f.flag.isLt
  have h7 := f.reserved.isLt
  cases f
  simp only [unpackHeader, HeaderFields.mk.injEq]
  refine ⟨?_, ?_, ?_, ?_, ?_, ?_, ?_⟩ <;>
  · apply BitVec.eq_of_toNat_eq
    rw [BitVec.extractLsb'_toNat, Nat.shiftRight_eq_div_pow, h]
    simp only at h1 h2 h3 h4 h5 h6 h7 ⊢
    omega

/-- Packing the fields of a header gives the header back (R33): the fields cover its 32 bits. -/
@[simp] theorem packHeader_unpackHeader (h : Header) : packHeader (unpackHeader h) = h := by
  have hlt := h.isLt
  apply BitVec.eq_of_toNat_eq
  rw [packHeader_toNat]
  simp only [unpackHeader, BitVec.extractLsb'_toNat, Nat.shiftRight_eq_div_pow]
  omega

/-- What a request of these fields decodes to. -/
theorem decode_requestOf (f : HeaderFields) (d0 d1 : Code) (v : Volts) :
    decode (requestOf f d0 d1 v) = decodeFields f d0 d1 v := by
  simp [decode, requestOf, decodeRequest]

/-- The four pieces of a command word survive being put together (R42 to R44). -/
theorem cmdWord_pieces (m : BitVec 2) (g c : BitVec 3) (p : BitVec 16) :
    BitVec.extractLsb' 22 2 (m ++ (g ++ (c ++ p))) = m ∧ BitVec.extractLsb' 19 3 (m ++ (g ++ (c ++ p))) = g ∧
      BitVec.extractLsb' 16 3 (m ++ (g ++ (c ++ p))) = c ∧ BitVec.extractLsb' 0 16 (m ++ (g ++ (c ++ p))) = p := by
  have h1 := m.isLt
  have h2 := g.isLt
  have h3 := c.isLt
  have h4 := p.isLt
  refine ⟨?_, ?_, ?_, ?_⟩ <;>
  · apply BitVec.eq_of_toNat_eq
    simp only [BitVec.extractLsb'_toNat, Nat.shiftRight_eq_div_pow, toNat_append_eq]
    omega

/-- The pieces of a readback word survive being put together (R46, R75). -/
theorem readWord_pieces (m : BitVec 2) (addr : BitVec 6) (g : BitVec 3) (a : BitVec 6) (z : BitVec 7) :
    BitVec.extractLsb' 22 2 (m ++ (addr ++ (g ++ (a ++ z)))) = m ∧
      BitVec.extractLsb' 16 6 (m ++ (addr ++ (g ++ (a ++ z)))) = addr ∧
      BitVec.extractLsb' 13 3 (m ++ (addr ++ (g ++ (a ++ z)))) = g ∧
      BitVec.extractLsb' 7 6 (m ++ (addr ++ (g ++ (a ++ z)))) = a ∧
      BitVec.extractLsb' 0 7 (m ++ (addr ++ (g ++ (a ++ z)))) = z := by
  have h1 := m.isLt
  have h2 := addr.isLt
  have h3 := g.isLt
  have h4 := a.isLt
  have h5 := z.isLt
  refine ⟨?_, ?_, ?_, ?_, ?_⟩ <;>
  · apply BitVec.eq_of_toNat_eq
    simp only [BitVec.extractLsb'_toNat, Nat.shiftRight_eq_div_pow, toNat_append_eq]
    omega

/-- A 24-bit word is the four pieces cut from it. -/
theorem cmdWord_eq_pieces (w : CmdWord) :
    BitVec.extractLsb' 22 2 w ++ (BitVec.extractLsb' 19 3 w ++ (BitVec.extractLsb' 16 3 w ++ BitVec.extractLsb' 0 16 w)) = w := by
  have h := w.isLt
  apply BitVec.eq_of_toNat_eq
  simp only [BitVec.extractLsb'_toNat, Nat.shiftRight_eq_div_pow, toNat_append_eq]
  omega

/-- A word whose pieces are known is the input those pieces make. -/
theorem cmdWordCh_of_pieces {w : CmdWord} {m : BitVec 2} {g c : BitVec 3} {p : BitVec 16}
    (h1 : w.extractLsb' 22 2 = m) (h2 : w.extractLsb' 19 3 = g) (h3 : w.extractLsb' 16 3 = c)
    (h4 : w.extractLsb' 0 16 = p) : cmdWordCh m g c p = .cmdWord w := by
  subst h1 h2 h3 h4
  exact congrArg Input.cmdWord (cmdWord_eq_pieces w)

/-- A word with the frame of R46 is that frame around its G and A. -/
theorem readWord_of_pieces {w : CmdWord} (h1 : (w.extractLsb' 22 2).toNat = 0) (h2 : (w.extractLsb' 19 3).toNat = 0)
    (h3 : (w.extractLsb' 16 3).toNat = 5) (h0 : w.extractLsb' 0 7 = 0) :
    (0 : BitVec 2) ++ ((5 : BitVec 6) ++ (w.extractLsb' 13 3 ++ (w.extractLsb' 7 6 ++ (0 : BitVec 7)))) = w := by
  have hlt := w.isLt
  have h0' := congrArg BitVec.toNat h0
  apply BitVec.eq_of_toNat_eq
  clear h0
  have e2 : (0 : BitVec 2).toNat = 0 := rfl
  have e7 : (0 : BitVec 7).toNat = 0 := rfl
  have e5 : (5 : BitVec 6).toNat = 5 := rfl
  simp only [BitVec.extractLsb'_toNat, Nat.shiftRight_eq_div_pow, toNat_append_eq, e2, e7, e5] at *
  omega

end Sys2Proof
end

