-- ==== Sys2Proof/Laws/Tables.lean ====
section
/-! SUPPORT. Reads after writes of banks and code tables, and which entries an address class targets (R52). -/

namespace Sys2Proof

@[simp] theorem PerBank.read_both {α : Type} (x : α) (b : Bank) : (PerBank.both x).read b = x := by
  cases b <;> rfl

@[simp] theorem PerBank.read_write_same {α : Type} (p : PerBank α) (b : Bank) (x : α) : (p.write b x).read b = x := by
  cases b <;> rfl

theorem PerBank.read_write_ne {α : Type} (p : PerBank α) {b b' : Bank} (x : α) (h : b' ≠ b) :
    (p.write b x).read b' = p.read b' := by
  cases b <;> cases b' <;> first | rfl | exact absurd rfl h

theorem PerBank.read_write {α : Type} (p : PerBank α) (b b' : Bank) (x : α) :
    (p.write b x).read b' = if b' = b then x else p.read b' := by
  cases b <;> cases b' <;> rfl

@[simp] theorem PerBank.write_write {α : Type} (p : PerBank α) (b : Bank) (x y : α) :
    (p.write b x).write b y = p.write b y := by
  cases b <;> rfl

/-- Two pairs that read alike are the same pair. -/
theorem PerBank.ext_read {α : Type} {p q : PerBank α} (h : ∀ b, p.read b = q.read b) : p = q := by
  cases p; cases q
  have h0 := h .b0
  have h1 := h .b1
  simp only [PerBank.read] at h0 h1
  rw [h0, h1]

@[simp] theorem Table.at_const (v : Code) (b : Bank) (c : Chan) : (Table.const v).at b c = v := by
  cases b <;> simp [Table.const, Table.at, PerBank.both, PerBank.read]

@[simp] theorem Table.at_put_same (t : Table) (b : Bank) (c : Chan) (v : Code) : (t.put b c v).at b c = v := by
  simp [Table.put, Table.at]

/-- Reading any entry after a write of one. -/
theorem Table.at_put (t : Table) (b b' : Bank) (c c' : Chan) (v : Code) :
    (t.put b c v).at b' c' = if b' = b ∧ c' = c then v else t.at b' c' := by
  by_cases hb : b' = b
  · subst hb
    by_cases hc : c' = c
    · subst hc; simp
    · have hne : c.val ≠ c'.val := fun h => hc (Fin.ext h.symm)
      simp [Table.put, Table.at, hc, hne]
  · simp [Table.put, Table.at, PerBank.read_write_ne _ _ hb, hb]

/-- Two tables that read alike are the same table. -/
theorem Table.ext_at {t u : Table} (h : ∀ b c, t.at b c = u.at b c) : t = u := by
  refine PerBank.ext_read fun b => ?_
  apply Vector.ext
  intro i hi
  exact h b ⟨i, hi⟩

/-- Reading any entry after a fill. -/
theorem Table.at_fill (t : Table) (ts : List (Bank × Chan)) (v : Code) (b : Bank) (c : Chan) :
    (t.fill ts v).at b c = if (b, c) ∈ ts then v else t.at b c := by
  induction ts generalizing t with
  | nil => simp [Table.fill]
  | cons p ts ih =>
    have hcons : t.fill (p :: ts) v = (t.put p.1 p.2 v).fill ts v := rfl
    rw [hcons, ih, Table.at_put]
    by_cases hmem : (b, c) ∈ ts
    · simp [hmem]
    · have hp : (b, c) = p ↔ b = p.1 ∧ c = p.2 := by cases p; simp
      simp [hmem, hp]

/-- Filling twice with the same code is filling once. -/
theorem Table.fill_fill (t : Table) (ts : List (Bank × Chan)) (v : Code) : (t.fill ts v).fill ts v = t.fill ts v := by
  refine Table.ext_at fun b c => ?_
  simp only [Table.at_fill]
  split <;> rfl

theorem Table.put_put (t : Table) (b : Bank) (c : Chan) (v w : Code) : (t.put b c v).put b c w = t.put b c w := by
  refine Table.ext_at fun b' c' => ?_
  simp only [Table.at_put]
  split <;> rfl

@[simp] theorem mem_channels (cfg : Cfg) (c : Chan) : c ∈ channels cfg ↔ c.val < cfg.nch := by
  simp [channels]

@[simp] theorem mem_bankTargets (cfg : Cfg) (b b' : Bank) (c : Chan) :
    (b', c) ∈ bankTargets cfg b ↔ b' = b ∧ c.val < cfg.nch := by
  simp only [bankTargets, List.mem_map, mem_channels, Prod.mk.injEq]
  constructor
  · rintro ⟨x, hx, rfl, rfl⟩; exact ⟨rfl, hx⟩
  · rintro ⟨rfl, hc⟩; exact ⟨c, hc, rfl, rfl⟩

@[simp] theorem mem_allTargets (cfg : Cfg) (b : Bank) (c : Chan) : (b, c) ∈ allTargets cfg ↔ c.val < cfg.nch := by
  cases b <;> simp [allTargets]

/-- A concrete class is one channel below NCH of one bank (R52). -/
theorem classify_concrete_lt {cfg : Cfg} {bank : BankSel} {chan : ChanSel} {b : Bank} {c : Chan}
    (h : classify cfg bank chan = .concrete b c) : c.val < cfg.nch := by
  have key : ∀ b' i, classifyIdx cfg b' i = .concrete b c → c.val < cfg.nch := by
    intro b' i hi
    simp only [classifyIdx] at hi
    split at hi
    · cases hi; assumption
    · cases hi
  cases bank <;> cases chan <;> first | exact key _ _ h | cases h

/-- An address has a code exactly when its class is valid (R70). -/
theorem addrcode_eq_none (cls : AddrClass) : addrcode cls = none ↔ cls = .invalid := by
  cases cls with
  | concrete b c => cases b <;> simp [addrcode]
  | broadcastBank b => cases b <;> simp [addrcode]
  | broadcastAll => simp [addrcode]
  | invalid => simp [addrcode]

end Sys2Proof
end

