-- ==== Sys2Proof/Laws/Address.lean ====
section
/-! SUPPORT. The address classes in the terms of Safety.lean: concrete, valid and covered addresses (R52), their ADDR
numbers (R44, R70), and the numbers of masked codes, payloads and write words (R7, R45, R71). -/

namespace Sys2Proof

open Machine

@[simp] theorem Bank.single_sel (b : Bank) : b.sel.single = some b := by cases b <;> rfl

theorem BankSel.single_eq_none (bank : BankSel) : bank.single = none ↔ bank = .bankAll ∨ bank = .undefined := by
  cases bank <;> simp [BankSel.single]

theorem RegSel.kind_eq_none (reg : RegSel) : reg.kind = none ↔ reg = .unrecognised := by
  cases reg <;> simp [RegSel.kind]

/-- A concrete address has the concrete class (R52). -/
theorem classify_of_concrete {cfg : Cfg} {bank : BankSel} {chan : ChanSel} {b : Bank} {c : Chan}
    (h : Concrete cfg bank chan b c) : classify cfg bank chan = .concrete b c := by
  obtain ⟨rfl, rfl, hc⟩ := h
  cases b <;> simp [Bank.sel, Chan.sel, classify, classifyIdx, hc]

/-- The concrete class is exactly the concrete addresses (R52). -/
theorem classify_eq_concrete {cfg : Cfg} {bank : BankSel} {chan : ChanSel} {b : Bank} {c : Chan} :
    classify cfg bank chan = .concrete b c ↔ Concrete cfg bank chan b c := by
  refine ⟨fun h => ?_, classify_of_concrete⟩
  have key : ∀ b' i, classifyIdx cfg b' i = .concrete b c → b' = b ∧ ChanSel.idx i = Chan.sel c ∧ c.val < cfg.nch := by
    intro b' i hi
    simp only [classifyIdx] at hi
    split at hi
    · cases hi; exact ⟨rfl, rfl, by assumption⟩
    · cases hi
  cases bank <;> cases chan <;> first | cases h | (obtain ⟨rfl, h2, h3⟩ := key _ _ h; exact ⟨rfl, h2, h3⟩)

/-- An address that is not concrete has another class (R52). -/
theorem classify_ne_concrete {cfg : Cfg} {bank : BankSel} {chan : ChanSel}
    (h : ¬ ∃ b c, Concrete cfg bank chan b c) (b : Bank) (c : Chan) : classify cfg bank chan ≠ .concrete b c :=
  fun hc => h ⟨b, c, classify_eq_concrete.mp hc⟩

/-- The invalid class is exactly the addresses that are not valid (R52). -/
theorem classify_eq_invalid {cfg : Cfg} {bank : BankSel} {chan : ChanSel} :
    classify cfg bank chan = .invalid ↔ ¬ ValidAddress cfg bank chan := by
  constructor
  · rintro h (⟨b, c, hc⟩ | ⟨rfl, hb⟩)
    · rw [classify_of_concrete hc] at h; cases h
    · cases bank <;> simp_all [classify]
  · intro h
    cases hcls : classify cfg bank chan with
    | invalid => rfl
    | concrete b c => exact absurd (Or.inl ⟨b, c, classify_eq_concrete.mp hcls⟩) h
    | broadcastBank b =>
      refine absurd (Or.inr ?_) h
      cases bank <;> cases chan <;> simp_all [classify, classifyIdx] <;> (split at hcls <;> cases hcls)
    | broadcastAll =>
      refine absurd (Or.inr ?_) h
      cases bank <;> cases chan <;> simp_all [classify, classifyIdx] <;> (split at hcls <;> cases hcls)

/-- The targets of a valid address are the entries below NCH it covers (R52). -/
theorem mem_targets {cfg : Cfg} {bank : BankSel} {chan : ChanSel} (hv : ValidAddress cfg bank chan) (b : Bank) (c : Chan) :
    (b, c) ∈ targets cfg (classify cfg bank chan) ↔ c.val < cfg.nch ∧ Covers bank chan b c := by
  rcases hv with ⟨b', c', hc⟩ | ⟨rfl, hb⟩
  · rw [classify_of_concrete hc]
    obtain ⟨rfl, rfl, hlt⟩ := hc
    simp only [targets, List.mem_singleton, Prod.mk.injEq, Covers, Chan.sel]
    cases b <;> cases b' <;> simp [Bank.sel, Fin.ext_iff] <;> omega
  · cases bank <;> cases b <;> simp_all [classify, targets, Covers, Bank.sel]

/-- The ADDR code of a valid address is its number (R44, R70). -/
theorem addrcode_classify {cfg : Cfg} {bank : BankSel} {chan : ChanSel} (hv : ValidAddress cfg bank chan) :
    ∃ a, addrcode (classify cfg bank chan) = some a ∧ a.toNat = addrNumber bank chan := by
  rcases hv with ⟨b, c, hc⟩ | ⟨rfl, hb⟩
  · rw [classify_of_concrete hc]
    obtain ⟨rfl, rfl, hlt⟩ := hc
    have := c.isLt
    cases b <;> simp [addrcode, addrNumber, Bank.sel, Chan.sel] <;> omega
  · cases bank <;> simp_all [classify, addrcode, addrNumber]

/-- The class names a concrete address or carries no bounds (R72). -/
theorem concrete_addrNumber {cfg : Cfg} {bank : BankSel} {chan : ChanSel} {b : Bank} {c : Chan}
    (h : Concrete cfg bank chan b c) : ((addrcode (.concrete b c)).getD 0).toNat = addrNumber bank chan := by
  obtain ⟨a, ha, hn⟩ := addrcode_classify (Or.inl ⟨b, c, h⟩)
  rw [classify_of_concrete h] at ha
  rw [ha, ← hn]; rfl

theorem Cfg.supported_iff (c : Cfg) : c.supported = true ↔ c.res = 14 ∨ c.res = 16 := by
  simp [Cfg.supported]

/-- Masking is reduction modulo 2^RES (R7). -/
@[simp] theorem Cfg.mask_toNat (c : Cfg) (d : Code) : (c.mask d).toNat = d.toNat % 2 ^ c.res := by
  have h1 := d.isLt
  have h2 : d.toNat % 2 ^ c.res ≤ d.toNat := Nat.mod_le _ _
  rw [Cfg.mask, BitVec.toNat_ofNat, Nat.mod_eq_of_lt (Nat.lt_of_le_of_lt h2 h1)]

/-- A masked code is at most MASK_R (R18). -/
theorem Cfg.mask_le (c : Cfg) (d : Code) : (c.mask d).toNat ≤ c.maskR := by
  have := Nat.mod_lt d.toNat (Nat.two_pow_pos c.res)
  simp only [Cfg.mask_toNat, Cfg.maskR]
  omega

/-- The payload of a masked code is the payload number of the data (R45). -/
theorem Cfg.payload_mask_toNat {c : Cfg} (h : c.supported = true) (d : Code) :
    (c.payload (c.mask d)).toNat = payloadNumber c d := by
  have hd := d.isLt
  rcases c.supported_iff.mp h with hr | hr
  · simp only [Cfg.payload, payloadNumber, hr, if_true, BitVec.toNat_shiftLeft, BitVec.toNat_ofNat, Cfg.mask_toNat,
      Nat.shiftLeft_eq]
    omega
  · have hne : ¬ c.res = 14 := by omega
    rw [Cfg.payload, payloadNumber, if_neg hne, if_neg hne, Cfg.mask_toNat, hr]
    omega

@[simp] theorem RegKind.mode_toNat (k : RegKind) : k.mode.toNat = modeNumber k := by cases k <;> rfl

/-- The write word as a number (R71). -/
theorem cwWrite_toNat {cfg : Cfg} (h : cfg.supported = true) (k : RegKind) {bank : BankSel} {chan : ChanSel}
    {a : BitVec 6} (ha : a.toNat = addrNumber bank chan) (d : Code) :
    (cwWrite cfg k a (cfg.mask d)).toNat = writeWordNumber cfg k bank chan d := by
  simp only [cwWrite, toNat_append_eq, RegKind.mode_toNat, ha, Cfg.payload_mask_toNat h, writeWordNumber]
  omega

end Sys2Proof
end

