-- ==== Sys2Proof/Laws/State.lean ====
section
/-! SUPPORT. One lemma for each field of State under each named update, so that no later proof unfolds a record update. -/

namespace Sys2Proof.Machine

variable (s : State)

/-! ### finish -/

@[simp] theorem State.finish_cfg (r : Result) : (s.finish r).cfg = s.cfg := rfl
@[simp] theorem State.finish_dac (r : Result) : (s.finish r).dac = s.dac := rfl
@[simp] theorem State.finish_off (r : Result) : (s.finish r).off = s.off := rfl
@[simp] theorem State.finish_gain (r : Result) : (s.finish r).gain = s.gain := rfl
@[simp] theorem State.finish_min (r : Result) : (s.finish r).min = s.min := rfl
@[simp] theorem State.finish_max (r : Result) : (s.finish r).max = s.max := rfl
@[simp] theorem State.finish_gofs (r : Result) : (s.finish r).gofs = s.gofs := rfl
@[simp] theorem State.finish_vref (r : Result) : (s.finish r).vref = s.vref := rfl
@[simp] theorem State.finish_events (r : Result) : (s.finish r).events = s.events := rfl
@[simp] theorem State.finish_fault (r : Result) : (s.finish r).fault = s.fault := rfl
@[simp] theorem State.finish_refused (r : Result) : (s.finish r).refused = s.refused := rfl
@[simp] theorem State.finish_result (r : Result) : (s.finish r).result = some r := rfl
@[simp] theorem State.finish_inputs (r : Result) : (s.finish r).inputs = s.inputs := rfl

/-! ### emit -/

@[simp] theorem State.emit_cfg (ev : Event) : (s.emit ev).cfg = s.cfg := rfl
@[simp] theorem State.emit_dac (ev : Event) : (s.emit ev).dac = s.dac := rfl
@[simp] theorem State.emit_off (ev : Event) : (s.emit ev).off = s.off := rfl
@[simp] theorem State.emit_gain (ev : Event) : (s.emit ev).gain = s.gain := rfl
@[simp] theorem State.emit_min (ev : Event) : (s.emit ev).min = s.min := rfl
@[simp] theorem State.emit_max (ev : Event) : (s.emit ev).max = s.max := rfl
@[simp] theorem State.emit_gofs (ev : Event) : (s.emit ev).gofs = s.gofs := rfl
@[simp] theorem State.emit_vref (ev : Event) : (s.emit ev).vref = s.vref := rfl
@[simp] theorem State.emit_events (ev : Event) : (s.emit ev).events = s.events ++ [ev] := rfl
@[simp] theorem State.emit_fault (ev : Event) : (s.emit ev).fault = s.fault := rfl
@[simp] theorem State.emit_refused (ev : Event) : (s.emit ev).refused = s.refused := rfl
@[simp] theorem State.emit_result (ev : Event) : (s.emit ev).result = s.result := rfl
@[simp] theorem State.emit_inputs (ev : Event) : (s.emit ev).inputs = s.inputs := rfl

/-! ### setVref -/

@[simp] theorem State.setVref_cfg (b : Bank) (v : Volts) : (s.setVref b v).cfg = s.cfg := rfl
@[simp] theorem State.setVref_dac (b : Bank) (v : Volts) : (s.setVref b v).dac = s.dac := rfl
@[simp] theorem State.setVref_off (b : Bank) (v : Volts) : (s.setVref b v).off = s.off := rfl
@[simp] theorem State.setVref_gain (b : Bank) (v : Volts) : (s.setVref b v).gain = s.gain := rfl
@[simp] theorem State.setVref_min (b : Bank) (v : Volts) : (s.setVref b v).min = s.min := rfl
@[simp] theorem State.setVref_max (b : Bank) (v : Volts) : (s.setVref b v).max = s.max := rfl
@[simp] theorem State.setVref_gofs (b : Bank) (v : Volts) : (s.setVref b v).gofs = s.gofs := rfl
@[simp] theorem State.setVref_vref (b : Bank) (v : Volts) : (s.setVref b v).vref = s.vref.write b v := rfl
@[simp] theorem State.setVref_events (b : Bank) (v : Volts) : (s.setVref b v).events = s.events := rfl
@[simp] theorem State.setVref_fault (b : Bank) (v : Volts) : (s.setVref b v).fault = s.fault := rfl
@[simp] theorem State.setVref_refused (b : Bank) (v : Volts) : (s.setVref b v).refused = s.refused := rfl
@[simp] theorem State.setVref_result (b : Bank) (v : Volts) : (s.setVref b v).result = s.result := rfl
@[simp] theorem State.setVref_inputs (b : Bank) (v : Volts) : (s.setVref b v).inputs = s.inputs := rfl

/-! ### setBounds -/

@[simp] theorem State.setBounds_cfg (b : Bank) (c : Chan) (lo hi : Code) : (s.setBounds b c lo hi).cfg = s.cfg := rfl
@[simp] theorem State.setBounds_dac (b : Bank) (c : Chan) (lo hi : Code) : (s.setBounds b c lo hi).dac = s.dac := rfl
@[simp] theorem State.setBounds_off (b : Bank) (c : Chan) (lo hi : Code) : (s.setBounds b c lo hi).off = s.off := rfl
@[simp] theorem State.setBounds_gain (b : Bank) (c : Chan) (lo hi : Code) : (s.setBounds b c lo hi).gain = s.gain := rfl
@[simp] theorem State.setBounds_min (b : Bank) (c : Chan) (lo hi : Code) : (s.setBounds b c lo hi).min = s.min.put b c lo := rfl
@[simp] theorem State.setBounds_max (b : Bank) (c : Chan) (lo hi : Code) : (s.setBounds b c lo hi).max = s.max.put b c hi := rfl
@[simp] theorem State.setBounds_gofs (b : Bank) (c : Chan) (lo hi : Code) : (s.setBounds b c lo hi).gofs = s.gofs := rfl
@[simp] theorem State.setBounds_vref (b : Bank) (c : Chan) (lo hi : Code) : (s.setBounds b c lo hi).vref = s.vref := rfl
@[simp] theorem State.setBounds_events (b : Bank) (c : Chan) (lo hi : Code) : (s.setBounds b c lo hi).events = s.events := rfl
@[simp] theorem State.setBounds_fault (b : Bank) (c : Chan) (lo hi : Code) : (s.setBounds b c lo hi).fault = s.fault := rfl
@[simp] theorem State.setBounds_refused (b : Bank) (c : Chan) (lo hi : Code) : (s.setBounds b c lo hi).refused = s.refused := rfl
@[simp] theorem State.setBounds_result (b : Bank) (c : Chan) (lo hi : Code) : (s.setBounds b c lo hi).result = s.result := rfl
@[simp] theorem State.setBounds_inputs (b : Bank) (c : Chan) (lo hi : Code) : (s.setBounds b c lo hi).inputs = s.inputs := rfl

/-! ### setStore -/

@[simp] theorem State.setStore_cfg (k : RegKind) (t : Table) : (s.setStore k t).cfg = s.cfg := by cases k <;> rfl
@[simp] theorem State.setStore_min (k : RegKind) (t : Table) : (s.setStore k t).min = s.min := by cases k <;> rfl
@[simp] theorem State.setStore_max (k : RegKind) (t : Table) : (s.setStore k t).max = s.max := by cases k <;> rfl
@[simp] theorem State.setStore_gofs (k : RegKind) (t : Table) : (s.setStore k t).gofs = s.gofs := by cases k <;> rfl
@[simp] theorem State.setStore_vref (k : RegKind) (t : Table) : (s.setStore k t).vref = s.vref := by cases k <;> rfl
@[simp] theorem State.setStore_events (k : RegKind) (t : Table) : (s.setStore k t).events = s.events := by cases k <;> rfl
@[simp] theorem State.setStore_fault (k : RegKind) (t : Table) : (s.setStore k t).fault = s.fault := by cases k <;> rfl
@[simp] theorem State.setStore_refused (k : RegKind) (t : Table) : (s.setStore k t).refused = s.refused := by cases k <;> rfl
@[simp] theorem State.setStore_result (k : RegKind) (t : Table) : (s.setStore k t).result = s.result := by cases k <;> rfl
@[simp] theorem State.setStore_inputs (k : RegKind) (t : Table) : (s.setStore k t).inputs = s.inputs := by cases k <;> rfl

theorem State.setStore_store (k k' : RegKind) (t : Table) :
    (s.setStore k t).store k' = if k' = k then t else s.store k' := by
  cases k <;> cases k' <;> rfl

@[simp] theorem State.setStore_store_same (k : RegKind) (t : Table) : (s.setStore k t).store k = t := by
  cases k <;> rfl

theorem State.setStore_store_ne {k k' : RegKind} (t : Table) (h : k' ≠ k) : (s.setStore k t).store k' = s.store k' := by
  rw [State.setStore_store, if_neg h]

/-- Writing back a kind's own table changes nothing. -/
@[simp] theorem State.setStore_self (k : RegKind) : s.setStore k (s.store k) = s := by
  cases k <;> rfl

@[simp] theorem State.setStore_setStore (k : RegKind) (t t' : Table) : (s.setStore k t).setStore k t' = s.setStore k t' := by
  cases k <;> rfl

/-! ### storeAll -/

@[simp] theorem State.storeAll_cfg (k : RegKind) (cls : AddrClass) (v : Code) : (s.storeAll k cls v).cfg = s.cfg := by cases k <;> rfl
@[simp] theorem State.storeAll_min (k : RegKind) (cls : AddrClass) (v : Code) : (s.storeAll k cls v).min = s.min := by cases k <;> rfl
@[simp] theorem State.storeAll_max (k : RegKind) (cls : AddrClass) (v : Code) : (s.storeAll k cls v).max = s.max := by cases k <;> rfl
@[simp] theorem State.storeAll_gofs (k : RegKind) (cls : AddrClass) (v : Code) : (s.storeAll k cls v).gofs = s.gofs := by cases k <;> rfl
@[simp] theorem State.storeAll_vref (k : RegKind) (cls : AddrClass) (v : Code) : (s.storeAll k cls v).vref = s.vref := by cases k <;> rfl
@[simp] theorem State.storeAll_events (k : RegKind) (cls : AddrClass) (v : Code) : (s.storeAll k cls v).events = s.events := by cases k <;> rfl
@[simp] theorem State.storeAll_fault (k : RegKind) (cls : AddrClass) (v : Code) : (s.storeAll k cls v).fault = s.fault := by cases k <;> rfl
@[simp] theorem State.storeAll_refused (k : RegKind) (cls : AddrClass) (v : Code) : (s.storeAll k cls v).refused = s.refused := by cases k <;> rfl
@[simp] theorem State.storeAll_result (k : RegKind) (cls : AddrClass) (v : Code) : (s.storeAll k cls v).result = s.result := by cases k <;> rfl
@[simp] theorem State.storeAll_inputs (k : RegKind) (cls : AddrClass) (v : Code) : (s.storeAll k cls v).inputs = s.inputs := by cases k <;> rfl

theorem State.storeAll_store (k k' : RegKind) (cls : AddrClass) (v : Code) :
    (s.storeAll k cls v).store k' = if k' = k then (s.store k).fill (targets s.cfg cls) v else s.store k' :=
  s.setStore_store k k' _

/-! ### restore -/

@[simp] theorem State.restore_cfg : (s.restore).cfg = s.cfg := rfl
@[simp] theorem State.restore_dac : (s.restore).dac = s.dac.fill (allTargets s.cfg) s.cfg.defDac := rfl
@[simp] theorem State.restore_off : (s.restore).off = s.off.fill (allTargets s.cfg) s.cfg.defOffset := rfl
@[simp] theorem State.restore_gain : (s.restore).gain = s.gain.fill (allTargets s.cfg) s.cfg.defGain := rfl
@[simp] theorem State.restore_min : (s.restore).min = s.min.fill (allTargets s.cfg) s.cfg.defMin := rfl
@[simp] theorem State.restore_max : (s.restore).max = s.max.fill (allTargets s.cfg) s.cfg.defMax := rfl
@[simp] theorem State.restore_gofs : (s.restore).gofs = PerBank.both s.cfg.defGofs := rfl
@[simp] theorem State.restore_vref : (s.restore).vref = PerBank.both s.cfg.defVref := rfl
@[simp] theorem State.restore_events : (s.restore).events = s.events := rfl
@[simp] theorem State.restore_fault : (s.restore).fault = s.fault := rfl
@[simp] theorem State.restore_refused : (s.restore).refused = s.refused := rfl
@[simp] theorem State.restore_result : (s.restore).result = s.result := rfl
@[simp] theorem State.restore_inputs : (s.restore).inputs = s.inputs := rfl

/-! ### commitWrite -/

@[simp] theorem State.commitWrite_cfg (e : WriteWord) : (s.commitWrite e).cfg = s.cfg := by
  simp [State.commitWrite]
@[simp] theorem State.commitWrite_min (e : WriteWord) : (s.commitWrite e).min = s.min := by
  simp [State.commitWrite]
@[simp] theorem State.commitWrite_max (e : WriteWord) : (s.commitWrite e).max = s.max := by
  simp [State.commitWrite]
@[simp] theorem State.commitWrite_gofs (e : WriteWord) : (s.commitWrite e).gofs = s.gofs := by
  simp [State.commitWrite]
@[simp] theorem State.commitWrite_vref (e : WriteWord) : (s.commitWrite e).vref = s.vref := by
  simp [State.commitWrite]
@[simp] theorem State.commitWrite_events (e : WriteWord) : (s.commitWrite e).events = s.events ++ [.cmd e.word] := by
  simp [State.commitWrite]
@[simp] theorem State.commitWrite_fault (e : WriteWord) : (s.commitWrite e).fault = s.fault := by
  simp [State.commitWrite]
@[simp] theorem State.commitWrite_refused (e : WriteWord) : (s.commitWrite e).refused = s.refused := by
  simp [State.commitWrite]
@[simp] theorem State.commitWrite_result (e : WriteWord) : (s.commitWrite e).result = s.result := by
  simp [State.commitWrite]
@[simp] theorem State.commitWrite_inputs (e : WriteWord) : (s.commitWrite e).inputs = s.inputs := by
  simp [State.commitWrite]

theorem State.commitWrite_store (e : WriteWord) (k' : RegKind) :
    (s.commitWrite e).store k' =
      if k' = e.kind then (s.store e.kind).fill (targets s.cfg e.cls) e.value else s.store k' := by
  rw [← State.storeAll_store]
  cases k' <;> rfl

/-! ### the store of a kind under the updates that leave it -/

@[simp] theorem State.finish_store (r : Result) (k : RegKind) : (s.finish r).store k = s.store k := by cases k <;> rfl
@[simp] theorem State.emit_store (ev : Event) (k : RegKind) : (s.emit ev).store k = s.store k := by cases k <;> rfl
@[simp] theorem State.setVref_store (b : Bank) (v : Volts) (k : RegKind) : (s.setVref b v).store k = s.store k := by
  cases k <;> rfl
@[simp] theorem State.setBounds_store (b : Bank) (c : Chan) (lo hi : Code) (k : RegKind) :
    (s.setBounds b c lo hi).store k = s.store k := by
  cases k <;> rfl

end Sys2Proof.Machine
end

