-- ==== Sys2Proof/Laws/Ops.lean ====
section
/-! SUPPORT. What each shared operation can do: the four ways a request ends, the gate, `encw` and `encr`, and the hand-over
of a command word. -/

namespace Sys2Proof.Machine

variable {s t : State}

theorem ok_eq (v : Value) (s : State) : ok v s = .next (s.finish (.ok v)) := rfl

theorem raise_eq (e : ErrKind) (s : State) : raise e s = .next (s.finish (.err e)) := rfl

/-- An answer in `ok` is that one next state. -/
theorem ok_next {v : Value} : ok v s = .next t ↔ t = s.finish (.ok v) := by
  rw [ok_eq, Host.Outcome.next.injEq, eq_comm]

theorem raise_next {e : ErrKind} : raise e s = .next t ↔ t = s.finish (.err e) := by
  rw [raise_eq, Host.Outcome.next.injEq, eq_comm]

theorem numericDomain_next : numericDomain s = .next t ↔
    t = { s with fault := some .numericDomain, result := some (.fault .numericDomain) } := by
  rw [numericDomain, Host.Outcome.next.injEq, eq_comm]; rfl

theorem withVolts_some {v v' : Volts} (h : s.cfg.fmt.accept v = some v') (f : Volts → Out) :
    withVolts v s f = f v' := by
  rw [withVolts, h]

theorem withVolts_none {v : Volts} (h : s.cfg.fmt.accept v = none) (f : Volts → Out) :
    withVolts v s f = .refused .operandNotNum := by
  rw [withVolts, h]

/-- An operand request that answers took its operand. -/
theorem withVolts_next {v : Volts} {f : Volts → Out} (h : withVolts v s f = .next t) :
    ∃ v', s.cfg.fmt.accept v = some v' ∧ f v' = .next t := by
  rw [withVolts] at h
  split at h
  · exact ⟨_, by assumption, h⟩
  · cases h

/-- A request that is read back was accepted as it stands. -/
theorem accept_of_admits {f : NumFmt} {v : Volts} (h : f.admits v = true) : f.accept v = some v := by
  simpa [NumFmt.admits] using h

theorem sendCommand_next {w : CmdWord} : sendCommand w s = .next t ↔ s.cfg.emits w = true ∧ t = s.emit (.cmd w) := by
  unfold sendCommand
  by_cases h : s.cfg.emits w = true
  · simp only [h, if_true, Host.Outcome.next.injEq, true_and]
    exact eq_comm
  · simp [h]

/-- The gate passes a masked value exactly when it is off, the address is a broadcast, or the bounds hold (R72). -/
theorem validates_classify {bank : BankSel} {chan : ChanSel} {d : Code} :
    validates s (classify s.cfg bank chan) (s.cfg.mask d) = true ↔ s.GatePasses bank chan d := by
  unfold State.GatePasses validates
  cases hv : s.cfg.validate with
  | false => simp
  | true =>
    rw [if_pos rfl]
    by_cases hc : ∃ b c, Concrete s.cfg bank chan b c
    · obtain ⟨b, c, hc⟩ := hc
      rw [classify_of_concrete hc]
      simp only [Bool.and_eq_true, decide_eq_true_eq, BitVec.le_def, Cfg.mask_toNat]
      refine ⟨fun h _ b' c' h' => ?_, fun h => h trivial b c hc⟩
      have heq := (classify_of_concrete hc).symm.trans (classify_of_concrete h')
      cases heq
      exact h
    · refine ⟨fun _ _ b c h => absurd ⟨b, c, h⟩ hc, fun _ => ?_⟩
      cases hcls : classify s.cfg bank chan with
      | concrete b c => exact absurd hcls (classify_ne_concrete hc b c)
      | _ => rfl

/-- When `encw` succeeds, and what it yields (R73). -/
theorem encodeWrite_ok {reg : RegSel} {k : RegKind} {bank : BankSel} {chan : ChanSel} {d : Code}
    (hs : s.cfg.supported = true) (hk : reg.kind = some k) (hv : ValidAddress s.cfg bank chan)
    (hg : s.GatePasses bank chan d) :
    ∃ e, encodeWrite s reg bank chan d = .ok e ∧ e.kind = k ∧ e.cls = classify s.cfg bank chan ∧
      e.value = s.cfg.mask d ∧ e.word.toNat = writeWordNumber s.cfg k bank chan d := by
  obtain ⟨a, ha, hn⟩ := addrcode_classify hv
  refine ⟨⟨k, classify s.cfg bank chan, s.cfg.mask d, cwWrite s.cfg k a (s.cfg.mask d)⟩, ?_, rfl, rfl, rfl,
    cwWrite_toNat hs k hn d⟩
  simp only [encodeWrite, hs, if_true, hk, ha, validates_classify.mpr hg]

/-- What a success of `encw` says (R73). -/
theorem encodeWrite_inv {reg : RegSel} {bank : BankSel} {chan : ChanSel} {d : Code} {e : WriteWord}
    (h : encodeWrite s reg bank chan d = .ok e) :
    s.cfg.supported = true ∧ reg.kind = some e.kind ∧ e.cls = classify s.cfg bank chan ∧ ValidAddress s.cfg bank chan ∧
      s.GatePasses bank chan d ∧ e.value = s.cfg.mask d ∧
      ∃ a, addrcode e.cls = some a ∧ e.word = cwWrite s.cfg e.kind a e.value := by
  rw [encodeWrite] at h
  split at h
  case isFalse => cases h
  rename_i hs
  split at h
  · cases h
  rename_i k hk
  dsimp only at h
  split at h
  · cases h
  rename_i a ha
  split at h
  case isFalse => cases h
  rename_i hg
  cases h
  refine ⟨hs, hk, rfl, ?_, validates_classify.mp hg, rfl, a, ha, rfl⟩
  by_contra hv
  rw [classify_eq_invalid.mpr hv] at ha
  cases ha

theorem encodeWrite_unsupported {reg : RegSel} {bank : BankSel} {chan : ChanSel} {d : Code}
    (hs : s.cfg.supported = false) : encodeWrite s reg bank chan d = .error .unsupportedResolution := by
  simp [encodeWrite, hs]

theorem encodeWrite_unrecognised {bank : BankSel} {chan : ChanSel} {d : Code} (hs : s.cfg.supported = true) :
    encodeWrite s .unrecognised bank chan d = .error .invalidRegisterSelector := by
  simp [encodeWrite, hs, RegSel.kind]

theorem encodeWrite_invalid {reg : RegSel} {bank : BankSel} {chan : ChanSel} {d : Code} (hs : s.cfg.supported = true)
    (hr : reg ≠ .unrecognised) (hv : ¬ ValidAddress s.cfg bank chan) :
    encodeWrite s reg bank chan d = .error .invalidAddress := by
  obtain ⟨k, hk⟩ := Option.ne_none_iff_exists'.mp (fun h => hr (reg.kind_eq_none.mp h))
  simp [encodeWrite, hs, hk, classify_eq_invalid.mpr hv, addrcode]

theorem encodeWrite_outOfRange {reg : RegSel} {bank : BankSel} {chan : ChanSel} {d : Code} (hs : s.cfg.supported = true)
    (hr : reg ≠ .unrecognised) (hv : ValidAddress s.cfg bank chan) (hg : ¬ s.GatePasses bank chan d) :
    encodeWrite s reg bank chan d = .error .outOfRange := by
  obtain ⟨k, hk⟩ := Option.ne_none_iff_exists'.mp (fun h => hr (reg.kind_eq_none.mp h))
  obtain ⟨a, ha, -⟩ := addrcode_classify hv
  have hval : validates s (classify s.cfg bank chan) (s.cfg.mask d) = false := by
    rw [Bool.eq_false_iff]; exact fun h => hg (validates_classify.mp h)
  simp [encodeWrite, hs, hk, ha, hval]

/-- The number of a readback word around the field F (R46). -/
theorem readWord_toNat (f : BitVec 16) : (readWord f).toNat = 5 * 2 ^ 16 + f.toNat := by
  have h0 : (0b00 : BitVec 2).toNat = 0 := rfl
  have h5 : (0b000101 : BitVec 6).toNat = 5 := rfl
  simp only [readWord, toNat_append_eq, h0, h5]
  omega

/-- The number of a selector field of the recommended form (R75). -/
theorem readSelField_toNat (g : BitVec 3) (a : BitVec 6) :
    (readSelField g a).toNat = g.toNat * 2 ^ 13 + a.toNat * 2 ^ 7 := by
  have h7 : (0 : BitVec 7).toNat = 0 := rfl
  simp only [readSelField, toNat_append_eq, h7]
  omega

/-- `encr` of a per-channel name at a concrete address (R76). -/
theorem encodeRead_channel {cfg : Cfg} {rsel : ReadName} {bank : BankSel} {chan : ChanSel} {b : Bank} {c : Chan}
    {fields : Table} (h : rsel.perChannel cfg.readSel = some fields) (hc : Concrete cfg bank chan b c) :
    encodeRead cfg rsel bank chan = .ok (readWord (fields.at b c)) := by
  simp only [encodeRead, readSel, h, classify_of_concrete hc]
  rfl

/-- `encr` of a device name, at any address (R75, R76). -/
theorem encodeRead_device {cfg : Cfg} {rsel : ReadName} {f : BitVec 16} (h : rsel.device cfg.readSel = some f)
    (bank : BankSel) (chan : ChanSel) : encodeRead cfg rsel bank chan = .ok (readWord f) := by
  have hp : rsel.perChannel cfg.readSel = none := by cases rsel <;> simp_all [ReadName.perChannel, ReadName.device]
  simp only [encodeRead, readSel, h, hp]
  rfl

/-- `encr` of a per-channel name at an address that is not concrete (R76). -/
theorem encodeRead_invalid {cfg : Cfg} {rsel : ReadName} {bank : BankSel} {chan : ChanSel} {fields : Table}
    (h : rsel.perChannel cfg.readSel = some fields) (hc : ¬ ∃ b c, Concrete cfg bank chan b c) :
    encodeRead cfg rsel bank chan = .error .invalidAddress := by
  have hne := classify_ne_concrete hc
  simp only [encodeRead, readSel, h]
  cases hcls : classify cfg bank chan <;> first | exact absurd hcls (hne _ _) | rfl

/-- What a success of `encr` says: its word frames an entry of READ_SEL. -/
theorem encodeRead_inv {cfg : Cfg} {rsel : ReadName} {bank : BankSel} {chan : ChanSel} {w : CmdWord}
    (h : encodeRead cfg rsel bank chan = .ok w) :
    (∃ fields b c, rsel.perChannel cfg.readSel = some fields ∧ Concrete cfg bank chan b c ∧
        w = readWord (fields.at b c)) ∨
      ∃ f, rsel.device cfg.readSel = some f ∧ w = readWord f := by
  cases hp : rsel.perChannel cfg.readSel with
  | some fields =>
    by_cases hc : ∃ b c, Concrete cfg bank chan b c
    · obtain ⟨b, c, hc⟩ := hc
      rw [encodeRead_channel hp hc] at h
      cases h
      exact .inl ⟨fields, b, c, rfl, hc, rfl⟩
    · rw [encodeRead_invalid hp hc] at h
      cases h
  | none =>
    cases hd : rsel.device cfg.readSel with
    | some f =>
      rw [encodeRead_device hd] at h
      cases h
      exact .inr ⟨f, rfl, rfl⟩
    | none =>
      simp only [encodeRead, readSel, hp, hd] at h
      cases h

/-- What C2V answers at a concrete address (R67, R9). -/
theorem execC2v_concrete {bank : BankSel} {chan : ChanSel} {b : Bank} {c : Chan} (hs : s.cfg.supported = true)
    (hc : Concrete s.cfg bank chan b c) (d0 : Code) :
    execC2v bank chan d0 s = if s.c2v b c d0 = .nan then numericDomain s else ok (.num (s.c2v b c d0)) s := by
  simp only [execC2v, hs, if_true, classify_of_concrete hc]
  cases s.c2v b c d0 <;> simp

end Sys2Proof.Machine
end

