-- ==== Sys2Proof/Laws/Emission.lean ====
section
/-! SUPPORT. Which words are emitted (R48), by the numbers of their fields, and that the words of `encw`, of `encr` and of
well-formed command-word forms are. -/

namespace Sys2Proof

open Machine

/-- The number of a word in three fields. -/
theorem toNat_mode_addr_payload (m : BitVec 2) (a : BitVec 6) (p : BitVec 16) :
    (m ++ (a ++ p)).toNat = m.toNat * 2 ^ 22 + a.toNat * 2 ^ 16 + p.toNat := by
  simp only [toNat_append_eq]; omega

theorem toNat_mode_group_ccc_payload (m : BitVec 2) (g c : BitVec 3) (p : BitVec 16) :
    (m ++ (g ++ (c ++ p))).toNat = m.toNat * 2 ^ 22 + (g.toNat * 8 + c.toNat) * 2 ^ 16 + p.toNat := by
  simp only [toNat_append_eq]; omega

/-- The words that are never emitted (R48), by the numbers of their fields. -/
theorem emits_iff (cfg : Cfg) (w : CmdWord) :
    cfg.emits w = true ↔
      (w.toNat / 2 ^ 22 = 0 ∧ w.toNat / 2 ^ 16 % 2 ^ 6 = 5 ∧ w.toNat % 2 ^ 7 = 0) ∨
      (w.toNat / 2 ^ 22 ≠ 0 ∧ cfg.supported = true ∧
        (w.toNat / 2 ^ 16 % 2 ^ 6 ≤ 2 ∨
          (8 ≤ w.toNat / 2 ^ 16 % 2 ^ 6 ∧ w.toNat / 2 ^ 16 % 2 ^ 6 < 8 + cfg.nch) ∨
          (16 ≤ w.toNat / 2 ^ 16 % 2 ^ 6 ∧ w.toNat / 2 ^ 16 % 2 ^ 6 < 16 + cfg.nch)) ∧
        (cfg.res = 14 → w.toNat % 4 = 0)) := by
  have hlt := w.isLt
  have key : ∀ (lo n k : Nat) (hk : k < 2 ^ n), w.extractLsb' lo n = BitVec.ofNat n k ↔ w.toNat / 2 ^ lo % 2 ^ n = k := by
    intro lo n k hk
    rw [← BitVec.toNat_inj, BitVec.extractLsb'_toNat, Nat.shiftRight_eq_div_pow, BitVec.toNat_ofNat, Nat.mod_eq_of_lt hk]
  have k1 : w.extractLsb' 22 2 = 0 ↔ _ := key 22 2 0 (by norm_num)
  have k2 : w.extractLsb' 16 6 = 5 ↔ _ := key 16 6 5 (by norm_num)
  have k3 : w.extractLsb' 0 7 = 0 ↔ _ := key 0 7 0 (by norm_num)
  have k4 : w.extractLsb' 0 2 = 0 ↔ _ := key 0 2 0 (by norm_num)
  have h22 : w.toNat / 2 ^ 22 % 2 ^ 2 = w.toNat / 2 ^ 22 := by omega
  simp only [pow_zero, Nat.div_one] at k3 k4
  rw [h22] at k1
  unfold Cfg.emits
  by_cases hm : w.toNat / 2 ^ 22 = 0
  · rw [if_pos (k1.mpr hm)]
    simp only [Bool.and_eq_true, decide_eq_true_eq, hm, true_and, ne_eq, not_true, false_and, or_false]
    exact and_congr k2 k3
  · rw [if_neg (fun h => hm (k1.mp h))]
    simp only [hm, false_and, false_or, ne_eq, not_false_eq_true, true_and, Bool.and_eq_true, and_assoc]
    refine and_congr_right fun _ => and_congr ?_ ?_
    · simp only [Cfg.addrUsed, BitVec.extractLsb'_toNat, Nat.shiftRight_eq_div_pow, Bool.or_eq_true, Bool.and_eq_true,
        decide_eq_true_eq, or_assoc]
    · simp only [Bool.or_eq_true, bne_iff_ne, decide_eq_true_eq]
      rw [imp_iff_not_or]
      exact or_congr_right k4

/-- A write word of used fields is emitted (R48, R73). -/
theorem emits_write {cfg : Cfg} (hs : cfg.supported = true) {m : BitVec 2} {a : BitVec 6} {p : BitVec 16} (hm : m.toNat ≠ 0)
    (ha : a.toNat ≤ 2 ∨ (8 ≤ a.toNat ∧ a.toNat < 8 + cfg.nch) ∨ (16 ≤ a.toNat ∧ a.toNat < 16 + cfg.nch))
    (hp : cfg.res = 14 → p.toNat % 4 = 0) : cfg.emits (m ++ (a ++ p)) = true := by
  have h1 := a.isLt
  have h2 := p.isLt
  have e1 : (m ++ (a ++ p)).toNat / 2 ^ 22 = m.toNat := by rw [toNat_mode_addr_payload]; omega
  have e2 : (m ++ (a ++ p)).toNat / 2 ^ 16 % 2 ^ 6 = a.toNat := by rw [toNat_mode_addr_payload]; omega
  have e3 : (m ++ (a ++ p)).toNat % 4 = p.toNat % 4 := by rw [toNat_mode_addr_payload]; omega
  refine (emits_iff _ _).mpr (.inr ⟨by omega, hs, ?_, fun h => by rw [e3]; exact hp h⟩)
  rw [e2]; exact ha

/-- The words that are not emitted are those that R48 lists (and R73's). -/
theorem emits_eq_false (cfg : Cfg) (w : CmdWord) : cfg.emits w = false ↔ NeverEmitted cfg w := by
  have hn := cfg.nch_le
  rw [Bool.eq_false_iff, ne_eq, emits_iff, NeverEmitted]
  cases hs : cfg.supported
  · simp only [Bool.false_eq_true, false_and, and_false, or_false, true_or, and_true]
    omega
  · simp only [Bool.true_eq_false, true_and, false_or]
    omega

/-- A readback word is emitted when its field has F[6:0] = 0 (R46, R48). -/
theorem emits_readWord (cfg : Cfg) {f : BitVec 16} (hf : f.toNat % 2 ^ 7 = 0) : cfg.emits (readWord f) = true := by
  have h := readWord_toNat f
  have hlt := f.isLt
  refine (emits_iff _ _).mpr (.inl ⟨?_, ?_, ?_⟩) <;> rw [h] <;> omega

/-- A readback word of the recommended form is emitted (R75). -/
theorem emits_read (cfg : Cfg) (g : BitVec 3) (a : BitVec 6) : cfg.emits (readWord (readSelField g a)) = true :=
  emits_readWord cfg (by rw [readSelField_toNat]; omega)

/-- Every recommended field of a per-channel name has the recommended form around the channel's ADDR code (R75). -/
theorem ReadSel.channelFields_at (g : BitVec 3) (b : Bank) (c : Chan) :
    ∃ a, addrcode (.concrete b c) = some a ∧ (ReadSel.channelFields g).at b c = readSelField g a := by
  cases b <;> exact ⟨_, rfl, Vector.getElem_ofFn (i := c.val) c.isLt⟩

/-- The recommended table yields none of R48's words. -/
theorem ReadSel.recommended_lowBitsClear : ReadSel.recommended.LowBitsClear := by
  refine ⟨fun fields hf b c => ?_, fun f hf => ?_⟩ <;>
    simp only [ReadSel.recommended, List.mem_cons, List.mem_nil_iff, or_false] at hf
  · rcases hf with rfl | rfl | rfl | rfl <;>
    · obtain ⟨a, -, ha⟩ := ReadSel.channelFields_at _ b c
      rw [ha, readSelField_toNat]
      omega
  · rcases hf with rfl | rfl | rfl | rfl | rfl | rfl <;> (rw [readSelField_toNat]; omega)

/-- The ADDR code of a class is one the configuration uses, when a concrete channel is below NCH (R44). -/
theorem addrcode_used {cfg : Cfg} {cls : AddrClass} {a : BitVec 6} (h : addrcode cls = some a)
    (hc : ∀ b c, cls = .concrete b c → c.val < cfg.nch) :
    a.toNat ≤ 2 ∨ (8 ≤ a.toNat ∧ a.toNat < 8 + cfg.nch) ∨ (16 ≤ a.toNat ∧ a.toNat < 16 + cfg.nch) := by
  cases cls with
  | concrete b c =>
    have hlt := hc b c rfl
    have h8 := c.isLt
    cases b <;> cases h <;> simp only [BitVec.toNat_ofNat] <;> omega
  | broadcastBank b => cases b <;> cases h <;> exact .inl (by decide)
  | broadcastAll => cases h; exact .inl (by decide)
  | invalid => cases h

/-- Every word `encw` yields is emitted (R48, R73). -/
theorem emits_encodeWrite {s : State} {reg : RegSel} {bank : BankSel} {chan : ChanSel} {d : Code} {e : WriteWord}
    (h : encodeWrite s reg bank chan d = .ok e) : s.cfg.emits e.word = true := by
  obtain ⟨hs, -, hcls, hv, -, hval, a, ha, hw⟩ := encodeWrite_inv h
  rw [hw, cwWrite]
  refine emits_write hs (by rw [RegKind.mode_toNat]; cases e.kind <;> decide) (addrcode_used ha ?_) fun h14 => ?_
  · intro b c hbc
    exact (classify_eq_concrete.mp (hcls.symm.trans hbc)).2.2
  · rw [hval, Cfg.payload_mask_toNat hs, payloadNumber, if_pos h14]; omega

/-- Every word `encr` yields is emitted under a READ_SEL that agrees with R48. -/
theorem emits_encodeRead {cfg : Cfg} (hl : cfg.readSel.LowBitsClear) {rsel : ReadName} {bank : BankSel} {chan : ChanSel}
    {w : CmdWord} (h : encodeRead cfg rsel bank chan = .ok w) : cfg.emits w = true := by
  rcases encodeRead_inv h with ⟨fields, b, c, hp, -, rfl⟩ | ⟨f, hd, rfl⟩
  · refine emits_readWord cfg (hl.1 fields ?_ b c)
    cases rsel <;> simp_all [ReadName.perChannel]
  · refine emits_readWord cfg (hl.2 f ?_)
    cases rsel <;> simp_all [ReadName.device]

/-- A word the decoder rejects is never emitted: it is no row of the table (R48). -/
theorem neverEmitted_of_decode_error (cfg : Cfg) {w : CmdWord} {e : DecodeError} (h : decodeCmdWord w = .error e) :
    NeverEmitted cfg w := by
  have hw := w.isLt
  have e1 : (w.extractLsb' 22 2).toNat = w.toNat / 2 ^ 22 := by
    rw [BitVec.extractLsb'_toNat, Nat.shiftRight_eq_div_pow]; omega
  have e2 : (w.extractLsb' 19 3).toNat = w.toNat / 2 ^ 19 % 8 := by
    rw [BitVec.extractLsb'_toNat, Nat.shiftRight_eq_div_pow]
  have e3 : (w.extractLsb' 16 3).toNat = w.toNat / 2 ^ 16 % 8 := by
    rw [BitVec.extractLsb'_toNat, Nat.shiftRight_eq_div_pow]
  have e4 : w.extractLsb' 0 7 = 0 ↔ w.toNat % 2 ^ 7 = 0 := by
    rw [← BitVec.toNat_inj, BitVec.extractLsb'_toNat, Nat.shiftRight_zero]; rfl
  have hn := cfg.nch_le
  simp only [decodeCmdWord, e1, e2, e3, e4] at h
  by_contra hne
  rw [NeverEmitted] at hne
  by_cases hm : w.toNat / 2 ^ 22 = 0
  · have hg : w.toNat / 2 ^ 19 % 8 = 0 := by omega
    have hc : w.toNat / 2 ^ 16 % 8 = 5 := by omega
    have hl : w.toNat % 2 ^ 7 = 0 := by omega
    rw [hm, hg, hc] at h
    simp only [hl, if_true] at h
    cases h
  · have hg : w.toNat / 2 ^ 19 % 8 = 1 ∨ w.toNat / 2 ^ 19 % 8 = 2 ∨ w.toNat / 2 ^ 19 % 8 = 0 ∧
        (w.toNat / 2 ^ 16 % 8 = 0 ∨ w.toNat / 2 ^ 16 % 8 = 1 ∨ w.toNat / 2 ^ 16 % 8 = 2) := by omega
    have hm3 : w.toNat / 2 ^ 22 = 1 ∨ w.toNat / 2 ^ 22 = 2 ∨ w.toNat / 2 ^ 22 = 3 := by omega
    rcases hm3 with hm | hm | hm <;> rcases hg with hg | hg | ⟨hg, hc | hc | hc⟩ <;> rw [hm, hg] at h <;>
      first
      | cases h
      | (rw [hc] at h; cases h)

/-- The two ways of writing a word's address field agree (R44). -/
theorem append_group_ccc (m : BitVec 2) (g c : BitVec 3) (p : BitVec 16) {a : BitVec 6}
    (ha : a.toNat = g.toNat * 8 + c.toNat) : m ++ (a ++ p) = m ++ (g ++ (c ++ p)) := by
  apply BitVec.eq_of_toNat_eq
  rw [toNat_mode_addr_payload, toNat_mode_group_ccc_payload, ha]

/-- A command-word form hands over the word it encodes to (entry 7). -/
theorem exec_of_encode_cmdWord {i : Instr} {w : CmdWord} (h : encode i = .cmdWord w) (s : State) :
    exec i s = sendCommand w s := by
  cases i <;> first
    | (cases h; done)
    | (cases h; rfl)
    | (cases h; exact congrArg (sendCommand · s) (append_group_ccc _ _ _ _ rfl))

/-- A payload the configuration can produce has the low bits of R45. -/
theorem payloadOk_iff {cfg : Cfg} {p : BitVec 16} :
    cfg.payloadOk p = true ↔ cfg.supported = true ∧ (cfg.res = 14 → p.toNat % 4 = 0) := by
  have h : p.extractLsb' 0 2 = 0 ↔ p.toNat % 4 = 0 := by
    rw [← BitVec.toNat_inj, BitVec.extractLsb'_toNat, Nat.shiftRight_zero]; rfl
  simp only [Cfg.payloadOk, Bool.and_eq_true, Bool.or_eq_true, bne_iff_ne, decide_eq_true_eq, h]
  rw [imp_iff_not_or]

/-- A write word to one channel or to a broadcast address is emitted when its channel and payload are used (R48). -/
theorem emits_cmdWordCh {cfg : Cfg} {m : BitVec 2} {g c : BitVec 3} {p : BitVec 16} {w : CmdWord}
    (h : cmdWordCh m g c p = .cmdWord w) (hm : m.toNat ≠ 0) (hpl : cfg.payloadOk p = true)
    (hg : g.toNat = 0 ∧ c.toNat ≤ 2 ∨ (g.toNat = 1 ∨ g.toNat = 2) ∧ cfg.channelOk c = true) : cfg.emits w = true := by
  have ha : ((g ++ c : BitVec 6)).toNat = g.toNat * 8 + c.toNat := toNat_append_eq g c
  cases h
  rw [← append_group_ccc m g c p ha]
  refine emits_write (payloadOk_iff.mp hpl).1 hm ?_ (payloadOk_iff.mp hpl).2
  rw [ha]
  simp only [Cfg.channelOk, decide_eq_true_eq] at hg
  omega

/-- A well-formed command-word form is emitted (R48). -/
theorem emits_of_wf {cfg : Cfg} {i : Instr} {w : CmdWord} (h : encode i = .cmdWord w) (hw : i.wf cfg = true) :
    cfg.emits w = true := by
  cases i
  case cwReadSel g a => cases h; exact emits_read cfg g a
  all_goals
    simp only [Instr.wf, Bool.and_eq_true] at hw
    first
    | (cases h; done)
    | exact emits_cmdWordCh h (by decide) hw.2 (.inr ⟨by decide, hw.1⟩)
    | exact emits_cmdWordCh h (by decide) hw (.inl (by decide))

end Sys2Proof
end

