-- ==== Sys2Proof/Laws/Num.lean ====
section
/-! SUPPORT. Under the exact reference each operation on rationals is the operation of ℚ (R9), and what the clamp and the
floor give. -/

namespace Sys2Proof

@[simp] theorem Volts.isZero_fin (q : ℚ) : (Volts.fin q).isZero = decide (q = 0) := rfl

@[simp] theorem NumFmt.zero_exact (neg : Bool) : NumFmt.exact.zero neg = .fin 0 := by cases neg <;> rfl

@[simp] theorem NumFmt.add_exact (a b : ℚ) : NumFmt.exact.add (.fin a) (.fin b) = .fin (a + b) := rfl

@[simp] theorem NumFmt.neg_exact (a : ℚ) : NumFmt.exact.neg (.fin a) = .fin (-a) := by
  by_cases h : a = 0 <;> simp [NumFmt.neg, h]

@[simp] theorem NumFmt.sub_exact (a b : ℚ) : NumFmt.exact.sub (.fin a) (.fin b) = .fin (a - b) := by
  simp [NumFmt.sub, sub_eq_add_neg]

@[simp] theorem NumFmt.mul_exact (a b : ℚ) : NumFmt.exact.mul (.fin a) (.fin b) = .fin (a * b) := by
  by_cases ha : a = 0 <;> by_cases hb : b = 0 <;> simp [NumFmt.mul, ha, hb, NumFmt.round, Volts.toRat]

theorem NumFmt.div_exact (a b : ℚ) (hb : b ≠ 0) : NumFmt.exact.div (.fin a) (.fin b) = .fin (a / b) := by
  by_cases ha : a = 0 <;> simp [NumFmt.div, ha, hb, NumFmt.round, Volts.toRat]

@[simp] theorem NumFmt.accept_exact (q : ℚ) : NumFmt.exact.accept (.fin q) = some (.fin q) := rfl

/-- The floor of a clamped rational. -/
theorem Volts.clampFloor_fin (lo hi : Nat) (q : ℚ) :
    (Volts.fin q).clampFloor lo hi = some ⌊min (max q (lo : ℚ)) (hi : ℚ)⌋ := rfl

/-- A clamped and floored value lies between the bounds. -/
theorem Volts.clampFloor_bounds {lo hi : Nat} (hle : lo ≤ hi) {v : Volts} {z : Int}
    (h : v.clampFloor lo hi = some z) : (lo : Int) ≤ z ∧ z ≤ hi := by
  have hq : (lo : ℚ) ≤ hi := by exact_mod_cast hle
  have key : ∀ q : ℚ, (lo : Int) ≤ ⌊min (max q (lo : ℚ)) (hi : ℚ)⌋ ∧ ⌊min (max q (lo : ℚ)) (hi : ℚ)⌋ ≤ hi := by
    intro q
    constructor
    · rw [Int.le_floor]; push_cast; exact le_min (le_max_right _ _) hq
    · have h1 : ((⌊min (max q (lo : ℚ)) (hi : ℚ)⌋ : Int) : ℚ) ≤ hi := le_trans (Int.floor_le _) (min_le_right _ _)
      exact_mod_cast h1
  have hi' : (lo : Int) ≤ hi := by exact_mod_cast hle
  cases v with
  | nan => simp [Volts.clampFloor] at h
  | posInf => simp only [Volts.clampFloor, Option.some.injEq] at h; omega
  | negInf => simp only [Volts.clampFloor, Option.some.injEq] at h; omega
  | negZero => simp only [Volts.clampFloor, Option.some.injEq] at h; exact h ▸ key 0
  | fin q => simp only [Volts.clampFloor, Option.some.injEq] at h; exact h ▸ key q

end Sys2Proof
end

