-- ==== Sys2Proof/Laws/Step.lean ====
section
/-! SUPPORT. What one instruction and one step can do, said once: the inversion lemmas of the meanings, of `exec` and of
`step`. -/

namespace Sys2Proof.Machine

variable {s t : State}

/-- What an instruction that answers can have done. -/
inductive Effect (s t : State) : Prop where
  /-- a result and nothing else: a read, or an error (R30, R85) -/
  | result (r : Result) (h : t = s.finish r)
  /-- the fault NumericDomain (R86) -/
  | fault (h : t = { s with fault := some .numericDomain, result := some (.fault .numericDomain) })
  /-- a masked code in the targets of an address (R54) -/
  | stored (k : RegKind) (cls : AddrClass) (d : Code) (hs : s.cfg.supported = true)
      (h : t = (s.storeAll k cls (s.cfg.mask d)).finish (.ok .unit))
  /-- the bounds of one channel (R57) -/
  | bounded (b : Bank) (c : Chan) (lo hi : Code) (hs : s.cfg.supported = true)
      (h : t = (s.setBounds b c (s.cfg.mask lo) (s.cfg.mask hi)).finish (.ok .unit))
  /-- a reference voltage (R59) -/
  | referenced (b : Bank) (v v' : Volts) (ha : s.cfg.fmt.accept v = some v')
      (h : t = (s.setVref b v').finish (.ok .unit))
  /-- a register write, stored and emitted (R78, R79) -/
  | written (reg : RegSel) (bank : BankSel) (chan : ChanSel) (d : Code) (e : WriteWord) (x : Value)
      (he : encodeWrite s reg bank chan d = .ok e) (h : t = (s.commitWrite e).finish (.ok x))
  /-- a readback request (R80) -/
  | asked (rsel : ReadName) (bank : BankSel) (chan : ChanSel) (w : CmdWord)
      (he : encodeRead s.cfg rsel bank chan = .ok w) (h : t = (s.emit (.cmd w)).finish (.ok (.word w)))
  /-- a load pulse or a clear level (R81, R82) -/
  | pulsed (ev : Event) (hev : ev = .loadPulse ∨ ∃ f, ev = .clear f) (h : t = (s.emit ev).finish (.ok .unit))
  /-- a reset (R83) -/
  | restored (hs : s.cfg.supported = true) (h : t = (s.emit .resetPulse).restore.finish (.ok .unit))
  /-- a command word handed over (R93) -/
  | sent (w : CmdWord) (hw : s.cfg.emits w = true) (h : t = s.emit (.cmd w))

theorem effect_ok {v : Value} (h : ok v s = .next t) : Effect s t := .result _ (ok_next.mp h)

theorem effect_raise {e : ErrKind} (h : raise e s = .next t) : Effect s t := .result _ (raise_next.mp h)

theorem effect_numericDomain (h : numericDomain s = .next t) : Effect s t := .fault (numericDomain_next.mp h)

theorem effect_sendCommand {w : CmdWord} (h : sendCommand w s = .next t) : Effect s t :=
  .sent w (sendCommand_next.mp h).1 (sendCommand_next.mp h).2

/-- Every instruction that answers a next state has one of these effects. -/
theorem exec_effect {i : Instr} (h : exec i s = .next t) : Effect s t := by
  cases i with
  | get reg bank chan =>
    simp only [exec, execGet] at h
    split at h
    · split at h
      · exact effect_raise h
      · split at h
        · exact effect_ok h
        · exact effect_raise h
    · exact effect_raise h
  | set reg bank chan d0 =>
    simp only [exec, execSet] at h
    split at h
    · rename_i hs
      split at h
      · exact effect_raise h
      · split at h
        · exact effect_raise h
        · exact .stored _ _ d0 hs (ok_next.mp h)
    · exact effect_raise h
  | getgofs bank =>
    simp only [exec, execGetgofs] at h
    split at h
    · split at h
      · exact effect_ok h
      · exact effect_raise h
    · exact effect_raise h
  | getbounds bank chan =>
    simp only [exec, execGetbounds] at h
    split at h
    · split at h
      · exact effect_ok h
      · exact effect_raise h
    · exact effect_raise h
  | setbounds bank chan d0 d1 =>
    simp only [exec, execSetbounds] at h
    split at h
    · rename_i hs
      split at h
      · exact .bounded _ _ d0 d1 hs (ok_next.mp h)
      · exact effect_raise h
    · exact effect_raise h
  | getref bank =>
    simp only [exec, execGetref] at h
    split at h
    · exact effect_ok h
    · exact effect_raise h
  | setref bank v =>
    obtain ⟨v', ha, h⟩ := withVolts_next h
    split at h
    · exact .referenced _ v v' ha (ok_next.mp h)
    · exact effect_raise h
  | v2c bank chan v =>
    obtain ⟨v', -, h⟩ := withVolts_next h
    split at h
    · split at h
      · split at h
        · exact effect_ok h
        · exact effect_numericDomain h
      · exact effect_raise h
    · exact effect_raise h
  | c2v bank chan d0 =>
    simp only [exec, execC2v] at h
    split at h
    · split at h
      · split at h
        · exact effect_numericDomain h
        · exact effect_ok h
      · exact effect_raise h
    · exact effect_raise h
  | encw reg bank chan d0 =>
    simp only [exec, execEncw] at h
    split at h
    · exact effect_ok h
    · exact effect_raise h
  | encr rsel bank chan =>
    simp only [exec, execEncr] at h
    split at h
    · exact effect_ok h
    · exact effect_raise h
  | write reg bank chan d0 =>
    simp only [exec, execWrite] at h
    split at h
    · rename_i e he
      exact .written _ _ _ _ e _ he (ok_next.mp h)
    · exact effect_raise h
  | writev bank chan v =>
    obtain ⟨v', -, h⟩ := withVolts_next h
    split at h
    · split at h
      · split at h
        · exact effect_numericDomain h
        · split at h
          · rename_i e he
            exact .written _ _ _ _ e _ he (ok_next.mp h)
          · exact effect_raise h
      · exact effect_raise h
    · exact effect_raise h
  | readreq rsel bank chan =>
    simp only [exec, execReadreq] at h
    split at h
    · rename_i w hw
      exact .asked _ _ _ w hw (ok_next.mp h)
    · exact effect_raise h
  | load => exact .pulsed _ (Or.inl rfl) (ok_next.mp h)
  | clear flag => exact .pulsed _ (Or.inr ⟨flag, rfl⟩) (ok_next.mp h)
  | reset =>
    simp only [exec, execReset] at h
    split at h
    · rename_i hs
      exact .restored hs (ok_next.mp h)
    · exact effect_raise h
  | _ => exact effect_sendCommand h

/-- A step that answers took nothing, or took one input and refused or ran it (R47, R105). -/
theorem step_next_cases (h : step s = .next t) :
    (s.inputs = [] ∧ t = s) ∨
      ∃ inp rest, s.inputs = inp :: rest ∧
        ((∃ i, decode inp = .ok i ∧ exec i { s with inputs := rest } = .next t) ∨
          ((∃ hd d0 d1 v, inp = .request hd d0 d1 v) ∧
            t = { s with inputs := rest, refused := true, result := some .illegalRequest })) := by
  rw [step] at h
  split at h
  · rename_i hin
    cases h
    exact .inl ⟨hin, rfl⟩
  · rename_i inp rest hin
    refine .inr ⟨inp, rest, hin, ?_⟩
    unfold stepInput at h
    split at h
    · rename_i i hi
      exact .inl ⟨i, hi, h⟩
    · split at h
      · cases h
        exact .inr ⟨⟨_, _, _, _, rfl⟩, rfl⟩
      · cases h

/-- No instruction changes the configuration (R20). -/
theorem Effect.cfg_eq (h : Effect s t) : t.cfg = s.cfg := by
  cases h <;> subst_vars <;> simp

/-- No instruction takes an input. -/
theorem Effect.inputs_eq (h : Effect s t) : t.inputs = s.inputs := by
  cases h <;> subst_vars <;> simp

/-- The history keeps what it held, and gains at most one event (R16). -/
theorem Effect.events_eq (h : Effect s t) : t.events = s.events ∨ ∃ ev, t.events = s.events ++ [ev] := by
  cases h <;> subst_vars <;> simp

end Sys2Proof.Machine
end

