-- ==== Sys2Proof/Laws/Transfer.lean ====
section
/-! SUPPORT. The transfer function under the exact reference, as formulas in ℚ (R60 to R66). -/

namespace Sys2Proof.Machine

variable {s : State}

theorem substDefault_cast (x d : Code) :
    ((substDefault x.toNat d.toNat : Int) : ℚ) = if x = d then (d.toNat : ℚ) else (x.toNat : ℚ) - d.toNat := by
  by_cases h : x = d
  · subst h; simp [substDefault]
  · have hne : x.toNat ≠ d.toNat := fun e => h (BitVec.eq_of_toNat_eq e)
    have hz : ((x.toNat : Int) - d.toNat) ≠ 0 := by omega
    simp [substDefault, h, hz]

theorem two_pow_ne_zero (n : Nat) : (2 : ℚ) ^ n ≠ 0 := pow_ne_zero n (by norm_num)

theorem State.mm_exact (hf : s.cfg.fmt = .exact) (b : Bank) (c : Chan) : s.mm b c = .fin (s.slopeQ b c) := by
  have h2 : (((2 ^ s.cfg.res : Int) : ℚ)) ≠ 0 := by push_cast; exact two_pow_ne_zero _
  rw [State.mm, hf, Volts.ofInt, Volts.ofInt, NumFmt.div_exact _ _ h2, State.slopeQ, Cfg.slopeQ]
  congr 1
  push_cast
  rw [State.tg, substDefault_cast]

theorem State.cc_cast (b : Bank) (c : Chan) : ((s.cc b c : Int) : ℚ) = s.interceptQ b c := by
  rw [State.cc, State.interceptQ, Cfg.interceptQ, State.offTerm, Int.cast_sub, substDefault_cast, Cfg.half]
  push_cast
  rfl

theorem State.globalTerm_cast (b : Bank) : ((s.globalTerm b : Int) : ℚ) = s.globalQ b := by
  rw [State.globalTerm, State.globalQ, Cfg.k]
  split <;> push_cast <;> rfl

theorem State.dacCode_exact (hf : s.cfg.fmt = .exact) {b : Bank} {r : ℚ} (hr : s.vref.read b = .fin r) (h0 : r ≠ 0)
    (q : ℚ) : s.dacCode b (.fin q) = .fin (s.dacQ b r q) := by
  have h4 : ((4 : Int) : ℚ) * r ≠ 0 := mul_ne_zero (by norm_num) h0
  simp only [State.dacCode, hf, hr, Volts.ofInt, NumFmt.mul_exact, NumFmt.div_exact _ _ h4, NumFmt.add_exact,
    State.globalTerm_cast, State.dacQ]
  push_cast
  rfl

theorem State.unclamped_exact (hf : s.cfg.fmt = .exact) {b : Bank} {c : Chan} {r : ℚ} (hr : s.vref.read b = .fin r)
    (h0 : r ≠ 0) (hm : s.slopeQ b c ≠ 0) (q : ℚ) : s.unclamped b c (.fin q) = .fin (s.forwardQ b c r q) := by
  simp only [State.unclamped, State.dacCode_exact hf hr h0, State.mm_exact hf, Volts.ofInt, State.cc_cast, hf,
    NumFmt.sub_exact, NumFmt.div_exact _ _ hm, State.forwardQ]

/-- The forward function in exact arithmetic (R64): it answers the clamped floor, a RES-bit code. -/
theorem State.v2c_exact (hs : s.cfg.supported = true) (hf : s.cfg.fmt = .exact) {b : Bank} {c : Chan} {r : ℚ}
    (hr : s.vref.read b = .fin r) (h0 : r ≠ 0) (hm : s.slopeQ b c ≠ 0) (q : ℚ) :
    ∃ n : Code, s.v2c b c (.fin q) = some n ∧
      (n.toNat : ℤ) = ⌊Min.min (Max.max (s.forwardQ b c r q) 0) (2 ^ s.cfg.res - 1)⌋ := by
  have hcf := Volts.clampFloor_fin s.cfg.deviceMin s.cfg.deviceMax (s.forwardQ b c r q)
  have hb := Volts.clampFloor_bounds (Nat.zero_le _) hcf
  have hmax : ((s.cfg.deviceMax : Nat) : ℚ) = 2 ^ s.cfg.res - 1 := by
    rw [Cfg.deviceMax, Nat.cast_sub Nat.one_le_two_pow]; push_cast; rfl
  have hlt : s.cfg.deviceMax < 2 ^ 16 := by
    rcases s.cfg.supported_iff.mp hs with h | h <;> simp [Cfg.deviceMax, h]
  refine ⟨BitVec.ofInt 16 ⌊Min.min (Max.max (s.forwardQ b c r q) (s.cfg.deviceMin : ℚ)) (s.cfg.deviceMax : ℚ)⌋, ?_, ?_⟩
  · simp only [State.v2c, hr, Volts.isZero_fin, h0, decide_false, State.mm_exact hf, hm,
      State.unclamped_exact hf hr h0 hm, hcf, Option.map_some]
    rfl
  · rw [BitVec.toNat_ofInt]
    simp only [Cfg.deviceMin, Nat.cast_zero, hmax] at hb ⊢
    omega

/-- The inverse function in exact arithmetic (R66). -/
theorem State.c2v_exact (hf : s.cfg.fmt = .exact) (hi : s.cfg.res = 16 ∨ s.cfg.inv14 = .inverse) {b : Bank} {r : ℚ}
    (hr : s.vref.read b = .fin r) (c : Chan) (d : Code) : s.c2v b c d = .fin (s.inverseQ b c r d) := by
  have hno : ¬ (s.cfg.res = 14 ∧ s.cfg.inv14 = .literal) := by
    rintro ⟨h1, h2⟩; rcases hi with h | h
    · omega
    · rw [h2] at h; cases h
  have h2 : (((2 ^ s.cfg.res : Int) : ℚ)) ≠ 0 := by push_cast; exact two_pow_ne_zero _
  simp only [State.c2v, hno, if_false, State.c2vInverse, State.invDacCode, hf, hr, State.mm_exact hf, Volts.ofInt,
    State.cc_cast, State.globalTerm_cast, NumFmt.mul_exact, NumFmt.add_exact, NumFmt.sub_exact, NumFmt.div_exact _ _ h2,
    State.inverseQ]
  push_cast
  rfl

/-- A code that V2C yields is at most MASK_R in every format (R64). -/
theorem State.v2c_le (b : Bank) (c : Chan) {v : Volts} {n : Code} (h : s.v2c b c v = some n) :
    n.toNat ≤ 2 ^ s.cfg.res - 1 := by
  simp only [State.v2c] at h
  split at h
  · cases h
  split at h
  · cases h
  obtain ⟨z, hz, rfl⟩ := Option.map_eq_some_iff.mp h
  have hb := Volts.clampFloor_bounds (Nat.zero_le _) hz
  simp only [Nat.cast_zero, Cfg.deviceMax] at hb
  rw [BitVec.toNat_ofInt]
  omega

end Sys2Proof.Machine
end

