-- ==== Sys2Proof/Machine/Assembler.lean ====
section
/-! DEFINITION. The assembler text of R50 and the pseudo-instructions of R51. A line assembles to the inputs the host
presents: one request, or the two of SETVL. Spaces around a mnemonic and an operand do not count (entry 22). -/

namespace Sys2Proof

/-- The pseudo-instructions (R51). -/
inductive Pseudo where
  | writeall (reg : RegSel) (data : Code)
  | writebank (reg : RegSel) (bank : BankSel) (data : Code)
  | setv (bank : BankSel) (chan : ChanSel) (volts : Volts)
  | setvl (bank : BankSel) (chan : ChanSel) (volts : Volts)
  | clron
  | clroff
  deriving DecidableEq, Repr

/-- What a pseudo-instruction expands to (R51). -/
def Pseudo.expand : Pseudo → List Instr
  | .writeall reg data => [.write reg .bankAll .all data]
  | .writebank reg bank data => [.write reg bank .all data]
  | .setv bank chan volts => [.writev bank chan volts]
  | .setvl bank chan volts => [.writev bank chan volts, .load]
  | .clron => [.clear true]
  | .clroff => [.clear false]

/-- The pieces of a text between the separators. -/
def splitText (sep : Char) : List Char → List (List Char)
  | [] => [[]]
  | ch :: cs =>
    if ch = sep then [] :: splitText sep cs
    else
      match splitText sep cs with
      | [] => [[ch]]
      | w :: ws => (ch :: w) :: ws

/-- A text without the spaces at its two ends. -/
def trimText (cs : List Char) : List Char :=
  ((cs.dropWhile (· = ' ')).reverse.dropWhile (· = ' ')).reverse

/-- The value of a digit in base 10 or 16. -/
def digitValue (base : Nat) (ch : Char) : Option Nat :=
  let d :=
    if 48 ≤ ch.toNat ∧ ch.toNat ≤ 57 then ch.toNat - 48
    else if 65 ≤ ch.toNat ∧ ch.toNat ≤ 70 then ch.toNat - 55
    else if 97 ≤ ch.toNat ∧ ch.toNat ≤ 102 then ch.toNat - 87
    else 16
  if d < base then some d else none

/-- The number a run of digits spells, after what stands before it. -/
def digitsValue (base : Nat) : Nat → List Char → Option Nat
  | acc, [] => some acc
  | acc, ch :: cs =>
    match digitValue base ch with
    | some d => digitsValue base (acc * base + d) cs
    | none => none

/-- A natural number in decimal or `0x` hex (R50); at least one digit. -/
def natText : List Char → Option Nat
  | [] => none
  | '0' :: 'x' :: ch :: cs => digitsValue 16 0 (ch :: cs)
  | cs => digitsValue 10 0 cs

/-- A natural number below a bound. -/
def boundedText (bound : Nat) (cs : List Char) : Option Nat :=
  match natText cs with
  | some n => if n < bound then some n else none
  | none => none

/-- `<data>`, `<min>`, `<max>`, `<code>`: a 16-bit number (R50). -/
def dataText (cs : List Char) : Option Code := (boundedText (2 ^ 16) cs).map (BitVec.ofNat 16)

/-- A nonnegative decimal number, read exactly as a rational (R50). -/
def decimalText (cs : List Char) : Option ℚ :=
  match splitText '.' cs with
  | [whole] => if whole = [] then none else (digitsValue 10 0 whole).map (fun n => (n : ℚ))
  | [whole, frac] =>
    if whole = [] ∨ frac = [] then none
    else (digitsValue 10 0 (whole ++ frac)).map (fun n => (n : ℚ) / (10 ^ frac.length : Nat))
  | _ => none

/-- `<volts>` (R50). -/
def voltsText : List Char → Option Volts
  | '-' :: cs => (decimalText cs).map (fun q => .fin (-q))
  | cs => (decimalText cs).map .fin

/-- The raw form `NAME=<n>` of a field of the given width. -/
def rawField (name : String) (width : Nat) (cs : List Char) : Option (BitVec width) :=
  match splitText '=' cs with
  | [l, r] => if l = name.toList then (boundedText (2 ^ width) r).map (BitVec.ofNat width) else none
  | _ => none

/-- `<reg>` (R50). -/
def regText (cs : List Char) : Option RegSel :=
  if cs = "DAC".toList then some .dac
  else if cs = "OFFSET".toList then some .offset
  else if cs = "GAIN".toList then some .gain
  else (rawField "REG" 2 cs).map RegSel.ofBits

/-- `<bank>` (R50). -/
def bankText (cs : List Char) : Option BankSel :=
  if cs = "B0".toList then some .bank0
  else if cs = "B1".toList then some .bank1
  else if cs = "BALL".toList then some .bankAll
  else (rawField "BANK" 2 cs).map BankSel.ofBits

/-- `<chan>` (R50): a decimal index of the 5-bit field, or `ALL`. -/
def chanText (cs : List Char) : Option ChanSel :=
  if cs = "ALL".toList then some .all
  else if cs = [] then none
  else
    match digitsValue 10 0 cs with
    | some n => if n < 32 then some (ChanSel.ofBits (BitVec.ofNat 5 n)) else none
    | none => none

/-- The readback names of R38 with their spellings. -/
def readNames : List (String × ReadName) :=
  [("X1A", .x1a), ("X1B", .x1b), ("C", .c), ("M", .m), ("CONTROL", .control), ("OFS0", .ofs0), ("OFS1", .ofs1),
    ("ABSEL0", .absel0), ("ABSEL1", .absel1), ("GPIO", .gpio)]

/-- `<rname>` (R50). -/
def readNameText (cs : List Char) : Option ReadName :=
  match readNames.find? (fun p => p.1.toList = cs) with
  | some p => some p.2
  | none => (rawField "RSEL" 4 cs).map ReadName.ofBits

/-- `<0|1>` (R50). -/
def flagText (cs : List Char) : Option Bool :=
  if cs = "0".toList then some false else if cs = "1".toList then some true else none

/-- The operands of ENCR and READREQ: bank and channel default to B0 and 0 (R50). -/
def readOperands (f : ReadName → BankSel → ChanSel → Instr) : List (List Char) → Option Instr
  | [r] => do return f (← readNameText r) .bank0 (.idx 0)
  | [r, b, c] => do return f (← readNameText r) (← bankText b) (← chanText c)
  | _ => none

/-- The operands `<reg>, <bank>, <chan>, <data>`. -/
def writeOperands (f : RegSel → BankSel → ChanSel → Code → Instr) : List (List Char) → Option Instr
  | [r, b, c, d] => do return f (← regText r) (← bankText b) (← chanText c) (← dataText d)
  | _ => none

/-- The operands `<bank>, <chan>, <volts>`. -/
def voltsOperands (f : BankSel → ChanSel → Volts → Instr) : List (List Char) → Option Instr
  | [b, c, v] => do return f (← bankText b) (← chanText c) (← voltsText v)
  | _ => none

/-- An operand list of one instruction. -/
abbrev OperandsText := List (List Char) → Option Instr

/-- The request lines of R50, by mnemonic. -/
def requestLines : List (String × OperandsText) :=
  [("GET", fun
    | [r, b, c] => do return .get (← regText r) (← bankText b) (← chanText c)
    | _ => none),
   ("SET", writeOperands .set),
   ("GETGOFS", fun
    | [b] => (bankText b).map .getgofs
    | _ => none),
   ("GETBOUNDS", fun
    | [b, c] => do return .getbounds (← bankText b) (← chanText c)
    | _ => none),
   ("SETBOUNDS", fun
    | [b, c, lo, hi] => do return .setbounds (← bankText b) (← chanText c) (← dataText lo) (← dataText hi)
    | _ => none),
   ("GETREF", fun
    | [b] => (bankText b).map .getref
    | _ => none),
   ("SETREF", fun
    | [b, v] => do return .setref (← bankText b) (← voltsText v)
    | _ => none),
   ("V2C", voltsOperands .v2c),
   ("C2V", fun
    | [b, c, d] => do return .c2v (← bankText b) (← chanText c) (← dataText d)
    | _ => none),
   ("ENCW", writeOperands .encw),
   ("ENCR", readOperands .encr),
   ("WRITE", writeOperands .write),
   ("WRITEV", voltsOperands .writev),
   ("READREQ", readOperands .readreq),
   ("LOAD", fun
    | [] => some .load
    | _ => none),
   ("CLEAR", fun
    | [f] => (flagText f).map .clear
    | _ => none),
   ("RESET", fun
    | [] => some .reset
    | _ => none)]

/-- The pseudo-instruction lines of R51, by mnemonic. -/
def pseudoLines : List (String × (List (List Char) → Option Pseudo)) :=
  [("WRITEALL", fun
    | [r, d] => do return .writeall (← regText r) (← dataText d)
    | _ => none),
   ("WRITEBANK", fun
    | [r, b, d] => do return .writebank (← regText r) (← bankText b) (← dataText d)
    | _ => none),
   ("SETV", fun
    | [b, c, v] => do return .setv (← bankText b) (← chanText c) (← voltsText v)
    | _ => none),
   ("SETVL", fun
    | [b, c, v] => do return .setvl (← bankText b) (← chanText c) (← voltsText v)
    | _ => none),
   ("CLRON", fun
    | [] => some .clron
    | _ => none),
   ("CLROFF", fun
    | [] => some .clroff
    | _ => none)]

/-- The instructions a line spells (R50, R51); none where it is no line of the text. -/
def parseLine (line : String) : Option (List Instr) :=
  let cs := trimText line.toList
  let name := cs.takeWhile (· ≠ ' ')
  let rest := trimText (cs.dropWhile (· ≠ ' '))
  let operands := if rest = [] then [] else (splitText ',' rest).map trimText
  match requestLines.find? (fun p => p.1.toList = name), pseudoLines.find? (fun p => p.1.toList = name) with
  | some p, _ => (p.2 operands).map (fun i => [i])
  | none, some p => (p.2 operands).map Pseudo.expand
  | none, none => none

/-- The inputs a line assembles to: `H` by R33, followed by its operands (R50). -/
def assemble (line : String) : Option (List Input) := (parseLine line).map (fun is => is.map encode)

end Sys2Proof
end

