-- ==== Sys2Proof/Tests/Slice0.lean ====
section
/-! SUPPORT. Tests of the model and witnesses for the statements. Expected values are those of 95_test_vectors.md (cited by
section) or written out by hand from the rules. A name test_hyp_X shows that the hypotheses of Obligations.X can be met
together. -/

-- one theorem after another: each kernel evaluation would otherwise take a thread of its own
set_option Elab.async false

namespace Sys2Proof.Tests

open Machine

/-! ### Small states -/

/-- `16/8/off`, after construction. -/
def s16 : State := State.reset

/-- `16/8/on`, after construction. -/
def s16v : State := State.construct (Cfg.standard16 .v0 7 true)

/-- `16/8/on` with the bounds (100, 200) on B0 0. -/
def s16b : State := s16v.setBounds .b0 0 100 200

/-- `14/4/off`, after construction. -/
def s14 : State := State.construct (Cfg.standard14 .v1 3 false)

/-- `14/4/off` with the printed inverse. -/
def s14lit : State := State.construct { Cfg.standard14 .v1 3 false with inv14 := .literal }

/-- RES 12, which is not supported. -/
def s12 : State := State.construct { Cfg.standard16 .v0 7 false with res := 12 }

/-- `16/8/off` in binary32. -/
def s32 : State := State.construct { Cfg.standard16 .v0 7 false with fmt := .binary32 }

/-- `16/8/off` in binary32 with an infinite reference voltage on bank 0. -/
def s32inf : State := s32.setVref .b0 .posInf

/-- RES 12 and a READ_SEL with fields of its own for one channel and one device name. -/
def s12sel : State :=
  State.construct { Cfg.standard16 .v0 7 false with
    res := 12,
    readSel := { ReadSel.recommended with m := (ReadSel.channelFields 3).put .b1 7 0xABCD, gpio := 0x1234 } }

/-- The step of a request presented to `s`. -/
def ask (h : Header) (d0 d1 : Code) (v : Volts) (s : State) : Option State :=
  match step { s with inputs := [.request h d0 d1 v] } with
  | .next t => some t
  | _ => none

/-- The step of a command word presented to `s`. -/
def send (w : CmdWord) (s : State) : Option State :=
  match step { s with inputs := [.cmdWord w] } with
  | .next t => some t
  | _ => none

/-- The result a request ends with. -/
def res (h : Header) (d0 d1 : Code) (v : Volts) (s : State) : Option Result := (ask h d0 d1 v s).bind State.result

/-! ### Well-formedness: each check refuses an ill-formed term -/

/-- R9: NaN is no rational. -/
theorem test_wf_setref_exact_refuses_nan : (Instr.setref .bank0 .nan).wf s16.cfg = false := by decide +kernel

/-- R9. -/
theorem test_wf_v2c_exact_refuses_infinity : (Instr.v2c .bank0 (.idx 0) .posInf).wf s16.cfg = false := by decide +kernel

/-- R9. -/
theorem test_wf_writev_exact_refuses_negZero : (Instr.writev .bank0 (.idx 0) .negZero).wf s16.cfg = false := by decide +kernel

/-- 1/10 is no binary32 number. -/
theorem test_wf_setref_binary32_refuses_one_tenth : (Instr.setref .bank0 (.fin (1 / 10))).wf s32.cfg = false := by decide +kernel

/-- 1/2 is. -/
theorem test_wf_setref_binary32_takes_one_half : (Instr.setref .bank0 (.fin (1 / 2))).wf s32.cfg = true := by decide +kernel

/-- R44 with NCH = 4. -/
theorem test_wf_channel_at_nch_is_refused : (Instr.cwWrDacB0Ch 4 0).wf s14.cfg = false ∧ (Instr.cwWrDacB0Ch 3 0).wf s14.cfg = true := by decide +kernel

/-- R45 with RES 14. -/
theorem test_wf_payload_low_bits_are_refused : (Instr.cwWrGainB1All 1).wf s14.cfg = false ∧ (Instr.cwWrGainB1All 4).wf s14.cfg = true := by decide +kernel

/-- R73 against R76. -/
theorem test_wf_unsupported_res_is_refused : (Instr.cwWrOffsetAllAll 0).wf s12.cfg = false ∧ (Instr.cwReadSel 4 1).wf s12.cfg = true := by decide +kernel

/-! ### Decoding: one word of each row, written out from 95_test_vectors.md (2.1, 2.4) and R33 to R46 -/

theorem test_decode_get : decodeRequest 0x00000661 0 0 (.fin 0) = .ok (.get .dac .bank0 (.idx 3)) := by rfl

theorem test_decode_set : decodeRequest 0x00003F62 0x1234 0 (.fin 0) = .ok (.set .dac .bankAll .all 0x1234) := by rfl

theorem test_decode_getgofs : decodeRequest 0x00000083 0 0 (.fin 0) = .ok (.getgofs .bank1) := by rfl

theorem test_decode_getbounds : decodeRequest 0x00000404 0 0 (.fin 0) = .ok (.getbounds .bank0 (.idx 2)) := by rfl

theorem test_decode_setbounds : decodeRequest 0x00000405 0x0064 0xEA60 (.fin 0) = .ok (.setbounds .bank0 (.idx 2) 100 60000) := by rfl

theorem test_decode_getref : decodeRequest 0x00000006 0 0 (.fin 0) = .ok (.getref .bank0) := by rfl

theorem test_decode_setref : decodeRequest 0x00000087 0 0 (.fin 10) = .ok (.setref .bank1 (.fin 10)) := by rfl

theorem test_decode_v2c : decodeRequest 0x00000888 0 0 (.fin (-5)) = .ok (.v2c .bank1 (.idx 4) (.fin (-5))) := by rfl

theorem test_decode_c2v : decodeRequest 0x00000889 0xA000 0 (.fin 0) = .ok (.c2v .bank1 (.idx 4) 0xA000) := by rfl

theorem test_decode_encw : decodeRequest 0x0000066A 0x1234 0 (.fin 0) = .ok (.encw .dac .bank0 (.idx 3) 0x1234) := by rfl

theorem test_decode_encr : decodeRequest 0x0000060B 0 0 (.fin 0) = .ok (.encr .x1a .bank0 (.idx 3)) := by rfl

theorem test_decode_write : decodeRequest 0x00000ACC 0x8001 0 (.fin 0) = .ok (.write .offset .bank1 (.idx 5) 0x8001) := by rfl

theorem test_decode_writev : decodeRequest 0x0000000D 0 0 (.fin 1) = .ok (.writev .bank0 (.idx 0) (.fin 1)) := by rfl

theorem test_decode_readreq : decodeRequest 0x0001000E 0 0 (.fin 0) = .ok (.readreq .control .bank0 (.idx 0)) := by rfl

theorem test_decode_load : decodeRequest 0x0000000F 0 0 (.fin 0) = .ok (.load) := by rfl

theorem test_decode_clear : decodeRequest 0x00040010 0 0 (.fin 0) = .ok (.clear true) := by rfl

theorem test_decode_reset : decodeRequest 0x00000011 0 0 (.fin 0) = .ok (.reset) := by rfl

theorem test_decode_cwWrDacB0Ch : decodeCmdWord 0xCFABCD = .ok (.cwWrDacB0Ch 7 0xABCD) := by rfl

theorem test_decode_cwWrDacB1Ch : decodeCmdWord 0xD7ABCD = .ok (.cwWrDacB1Ch 7 0xABCD) := by rfl

theorem test_decode_cwWrDacB0All : decodeCmdWord 0xC1ABCD = .ok (.cwWrDacB0All 0xABCD) := by rfl

theorem test_decode_cwWrDacB1All : decodeCmdWord 0xC2ABCD = .ok (.cwWrDacB1All 0xABCD) := by rfl

theorem test_decode_cwWrDacAllAll : decodeCmdWord 0xC0ABCD = .ok (.cwWrDacAllAll 0xABCD) := by rfl

theorem test_decode_cwWrOffsetB0Ch : decodeCmdWord 0x8FABCD = .ok (.cwWrOffsetB0Ch 7 0xABCD) := by rfl

theorem test_decode_cwWrOffsetB1Ch : decodeCmdWord 0x97ABCD = .ok (.cwWrOffsetB1Ch 7 0xABCD) := by rfl

theorem test_decode_cwWrOffsetB0All : decodeCmdWord 0x81ABCD = .ok (.cwWrOffsetB0All 0xABCD) := by rfl

theorem test_decode_cwWrOffsetB1All : decodeCmdWord 0x82ABCD = .ok (.cwWrOffsetB1All 0xABCD) := by rfl

theorem test_decode_cwWrOffsetAllAll : decodeCmdWord 0x80ABCD = .ok (.cwWrOffsetAllAll 0xABCD) := by rfl

theorem test_decode_cwWrGainB0Ch : decodeCmdWord 0x4FABCD = .ok (.cwWrGainB0Ch 7 0xABCD) := by rfl

theorem test_decode_cwWrGainB1Ch : decodeCmdWord 0x57ABCD = .ok (.cwWrGainB1Ch 7 0xABCD) := by rfl

theorem test_decode_cwWrGainB0All : decodeCmdWord 0x41ABCD = .ok (.cwWrGainB0All 0xABCD) := by rfl

theorem test_decode_cwWrGainB1All : decodeCmdWord 0x42ABCD = .ok (.cwWrGainB1All 0xABCD) := by rfl

theorem test_decode_cwWrGainAllAll : decodeCmdWord 0x40ABCD = .ok (.cwWrGainAllAll 0xABCD) := by rfl

theorem test_decode_cwReadSel : decodeCmdWord 0x056B80 = .ok (.cwReadSel 3 0x17) := by rfl

/-- R47: op 0x00, op 0x12, and reserved bit 19. -/
theorem test_decode_reserved_requests :
    decodeRequest 0x00000000 0 0 (.fin 0) = .error .reservedOp ∧ decodeRequest 0x00000012 0 0 (.fin 0) = .error .reservedOp ∧
      decodeRequest 0x00080061 0 0 (.fin 0) = .error .reservedBits := by exact ⟨rfl, rfl, rfl⟩

/-- R48: ADDR 0b000011 and ADDR 0b011000 in a write word, another special function, and F[6:0] not zero. -/
theorem test_decode_unused_words :
    decodeCmdWord 0xC30000 = .error .notEmittedWord ∧ decodeCmdWord 0xD80000 = .error .notEmittedWord ∧
      decodeCmdWord 0x040000 = .error .notEmittedWord ∧ decodeCmdWord 0x050001 = .error .notEmittedWord := by
  exact ⟨rfl, rfl, rfl, rfl⟩

/-- R27: the bytes of S7's word. -/
theorem test_bytes_msb_first : CmdWord.bytes 0xCB1234 = [0xCB, 0x12, 0x34] := by decide

/-- R50: an assembled line of program P2. -/
theorem test_assemble_writev : assemble "WRITEV B0, 2, -9.5" = some [.request 0x0000040D 0 0 (.fin (-19 / 2))] := by
  decide +kernel

/-- The rows' match words as table words (entry 21), each run as the first instruction after reset. -/
theorem test_table_words :
    decodeTableWord 32 0x00000001 = some (.get .unrecognised .bank0 (.idx 0)) ∧
      decodeTableWord 24 0x050000 = some (.cwReadSel 0 0) ∧ decodeTableWord 32 0 = none := by exact ⟨rfl, rfl, rfl⟩

/-! ### One step of each instruction (95_test_vectors.md 2.2 to 2.6) -/

/-- 2.2. -/
theorem test_get_after_construction : res 0x00000661 0 0 (.fin 0) s16 = some (.ok (.code 0x8000)) := by decide +kernel

/-- 2.2: chan = NCH. -/
theorem test_get_channel_at_nch : res 0x00001061 0 0 (.fin 0) s16 = some (.err .invalidAddress) := by decide +kernel

/-- 2.2. -/
theorem test_set_masks_to_fourteen_bits :
    (ask 0x000004E2 0xFFFF 0 (.fin 0) s14).map (fun t => t.dac.at .b1 2) = some 0x3FFF := by
  decide +kernel

/-- 2.2, D43. -/
theorem test_set_is_not_validated :
    (ask 0x00000062 50 0 (.fin 0) s16b).map (fun t => (t.dac.at .b0 0, t.events)) = some (50, []) := by
  decide +kernel

/-- 2.2. -/
theorem test_getgofs_bank1 : res 0x00000083 0 0 (.fin 0) s16 = some (.ok (.gofs 0x2000)) := by decide +kernel

/-- 2.2. -/
theorem test_getgofs_bankAll : res 0x00000103 0 0 (.fin 0) s16 = some (.err .invalidAddress) := by decide +kernel

/-- 2.2. -/
theorem test_getbounds_after_construction :
    res 0x00000004 0 0 (.fin 0) s16 = some (.ok (.bounds 0 0xFFFF)) := by
  decide +kernel

/-- R56. -/
theorem test_getbounds_broadcast : res 0x00003E04 0 0 (.fin 0) s16 = some (.err .invalidAddress) := by decide +kernel

/-- 2.2, NCH aside. -/
theorem test_setbounds_masks :
    (ask 0x00000005 100 60000 (.fin 0) s14).map (fun t => (t.min.at .b0 0, t.max.at .b0 0)) = some (100, 10848) := by
  decide +kernel

/-- 2.2. -/
theorem test_setbounds_broadcast : res 0x00003E05 1 2 (.fin 0) s16 = some (.err .invalidAddress) := by decide +kernel

/-- 2.2. -/
theorem test_getref_after_construction :
    res 0x00000006 0 0 (.fin 0) s16 = some (.ok (.num (.fin 5))) := by
  decide +kernel

/-- 2.6: RES = 12. -/
theorem test_getref_without_supported_res :
    res 0x00000006 0 0 (.fin 0) s12 = some (.ok (.num (.fin 5))) := by
  decide +kernel

/-- 2.2. -/
theorem test_setref_other_bank_untouched :
    (ask 0x00000087 0 0 (.fin 10) s16).map (fun t => (t.vref.read .b0, t.vref.read .b1)) = some (.fin 5, .fin 10) := by
  decide +kernel

/-- 2.2. -/
theorem test_setref_negative_is_stored :
    (ask 0x00000007 0 0 (.fin (-5)) s16).map (fun t => t.vref.read .b0) = some (.fin (-5)) := by
  decide +kernel

/-- 2.3: x = 65532.72. -/
theorem test_v2c_inexact_floor :
    res 0x00000008 0 0 (.fin (9999 / 1000)) s16 = some (.ok (.code 0xFFFC)) := by
  decide +kernel

/-- 2.3: gain 0xFFFE gives mm = 0. -/
theorem test_v2c_slope_zero_faults :
    (ask 0x00000008 0 0 (.fin 1) (s16.setStore .gain (s16.gain.put .b0 0 0xFFFE))).map (fun t => (t.result, t.fault)) = some (some (.fault .numericDomain), some .numericDomain) := by
  decide +kernel

/-- 2.3, D38. -/
theorem test_c2v_code_is_not_masked :
    res 0x00000009 0xFFFF 0 (.fin 0) s14 = some (.ok (.num (.fin (286715 / 4096)))) := by
  decide +kernel

/-- 2.3: INV14 = literal gives 9.5. -/
theorem test_c2v_literal_inverse :
    res 0x00000009 0x2000 0 (.fin 0) s14lit = some (.ok (.num (.fin (19 / 2)))) := by
  decide +kernel

/-- 2.4. -/
theorem test_encw_bound_is_inclusive :
    res 0x0000006A 200 0 (.fin 0) s16b = some (.ok (.word 0xC800C8)) := by
  decide +kernel

/-- 2.4, D18. -/
theorem test_encw_validates_gain : res 0x0000002A 50 0 (.fin 0) s16b = some (.err .outOfRange) := by decide +kernel

/-- 2.4. -/
theorem test_encr_input_register : res 0x0000060B 0 0 (.fin 0) s16 = some (.ok (.word 0x050580)) := by decide +kernel

/-- 2.4. -/
theorem test_encr_unrecognised_name :
    res 0x0002800B 0 0 (.fin 0) s16 = some (.err .invalidRegisterSelector) := by
  decide +kernel

/-- 2.5. -/
theorem test_write_broadcast_fourteen_bits :
    (ask 0x00003E6C 0x1000 0 (.fin 0) s14).map (fun t => (t.events, t.dac.at .b0 3, t.dac.at .b1 3)) = some ([.cmd 0xC14000], 0x1000, 0x2000) := by
  decide +kernel

/-- 2.6. -/
theorem test_write_selector_error_before_address :
    res 0x0000018C 50 0 (.fin 0) s16b = some (.err .invalidRegisterSelector) := by
  decide +kernel

/-- 2.5. -/
theorem test_writev_stores_and_emits :
    (ask 0x00000E8D 0 0 (.fin (-5)) s16).map (fun t => (t.result, t.events, t.dac.at .b1 7)) = some (some (.ok (.code 0x4000)), [.cmd 0xD74000], 0x4000) := by
  decide +kernel

/-- 2.5. -/
theorem test_writev_clamped_out_of_range :
    (ask 0x0000040D 0 0 (.fin 10) (s16v.setBounds .b0 2 100 60000)).map (fun t => (t.result, t.events)) = some (some (.err .outOfRange), []) := by
  decide +kernel

/-- 2.5. -/
theorem test_readreq_gpio :
    (ask 0x0002400E 0 0 (.fin 0) s16).map (fun t => (t.result, t.events)) = some (some (.ok (.word 0x058580)), [.cmd 0x058580]) := by
  decide +kernel

/-- R80: X1A at a broadcast address. -/
theorem test_readreq_error_emits_nothing :
    (ask 0x00003F0E 0 0 (.fin 0) s16).map (fun t => (t.result, t.events)) = some (some (.err .invalidAddress), []) := by
  decide +kernel

/-- 2.6: no resolution check. -/
theorem test_load_pulse :
    (ask 0x0000000F 0 0 (.fin 0) s12).map (fun t => (t.result, t.events)) = some (some (.ok .unit), [.loadPulse]) := by
  decide +kernel

/-- 2.5. -/
theorem test_clear_levels :
    ((ask 0x00040010 0 0 (.fin 0) s16).map State.events, (ask 0x00000010 0 0 (.fin 0) s16).map State.events) = (some [.clear true], some [.clear false]) := by
  decide +kernel

/-- 2.5. -/
theorem test_reset_restores :
    (ask 0x00000011 0 0 (.fin 0) ((s16.setVref .b0 (.fin (5 / 2))).setStore .dac (s16.dac.put .b0 0 1))).map (fun t => (t.vref.read .b0, t.dac.at .b0 0, t.events)) = some (.fin 5, 0x8000, [.resetPulse]) := by
  decide +kernel

/-- 2.5. -/
theorem test_reset_unsupported_res :
    (ask 0x00000011 0 0 (.fin 0) s12).map (fun t => (t.result, t.events)) = some (some (.err .unsupportedResolution), []) := by
  decide +kernel

/-- 2.4 for the word, entry 7 for the effect. -/
theorem test_cwWrDacB0Ch_is_handed_over :
    (send 0xCFABCD s16).map (fun t => (t.events, t.dac, t.result)) = some ([.cmd 0xCFABCD], s16.dac, none) := by
  decide +kernel

/-- 2.4 for the word, entry 7 for the effect. -/
theorem test_cwWrDacB1Ch_is_handed_over :
    (send 0xD7ABCD s16).map (fun t => (t.events, t.dac, t.result)) = some ([.cmd 0xD7ABCD], s16.dac, none) := by
  decide +kernel

/-- 2.4 for the word, entry 7 for the effect. -/
theorem test_cwWrDacB0All_is_handed_over :
    (send 0xC1ABCD s16).map (fun t => (t.events, t.dac, t.result)) = some ([.cmd 0xC1ABCD], s16.dac, none) := by
  decide +kernel

/-- 2.4 for the word, entry 7 for the effect. -/
theorem test_cwWrDacB1All_is_handed_over :
    (send 0xC2ABCD s16).map (fun t => (t.events, t.dac, t.result)) = some ([.cmd 0xC2ABCD], s16.dac, none) := by
  decide +kernel

/-- 2.4 for the word, entry 7 for the effect. -/
theorem test_cwWrDacAllAll_is_handed_over :
    (send 0xC0ABCD s16).map (fun t => (t.events, t.dac, t.result)) = some ([.cmd 0xC0ABCD], s16.dac, none) := by
  decide +kernel

/-- 2.4 for the word, entry 7 for the effect. -/
theorem test_cwWrOffsetB0Ch_is_handed_over :
    (send 0x8FABCD s16).map (fun t => (t.events, t.dac, t.result)) = some ([.cmd 0x8FABCD], s16.dac, none) := by
  decide +kernel

/-- 2.4 for the word, entry 7 for the effect. -/
theorem test_cwWrOffsetB1Ch_is_handed_over :
    (send 0x97ABCD s16).map (fun t => (t.events, t.dac, t.result)) = some ([.cmd 0x97ABCD], s16.dac, none) := by
  decide +kernel

/-- 2.4 for the word, entry 7 for the effect. -/
theorem test_cwWrOffsetB0All_is_handed_over :
    (send 0x81ABCD s16).map (fun t => (t.events, t.dac, t.result)) = some ([.cmd 0x81ABCD], s16.dac, none) := by
  decide +kernel

/-- 2.4 for the word, entry 7 for the effect. -/
theorem test_cwWrOffsetB1All_is_handed_over :
    (send 0x82ABCD s16).map (fun t => (t.events, t.dac, t.result)) = some ([.cmd 0x82ABCD], s16.dac, none) := by
  decide +kernel

/-- 2.4 for the word, entry 7 for the effect. -/
theorem test_cwWrOffsetAllAll_is_handed_over :
    (send 0x80ABCD s16).map (fun t => (t.events, t.dac, t.result)) = some ([.cmd 0x80ABCD], s16.dac, none) := by
  decide +kernel

/-- 2.4 for the word, entry 7 for the effect. -/
theorem test_cwWrGainB0Ch_is_handed_over :
    (send 0x4FABCD s16).map (fun t => (t.events, t.dac, t.result)) = some ([.cmd 0x4FABCD], s16.dac, none) := by
  decide +kernel

/-- 2.4 for the word, entry 7 for the effect. -/
theorem test_cwWrGainB1Ch_is_handed_over :
    (send 0x57ABCD s16).map (fun t => (t.events, t.dac, t.result)) = some ([.cmd 0x57ABCD], s16.dac, none) := by
  decide +kernel

/-- 2.4 for the word, entry 7 for the effect. -/
theorem test_cwWrGainB0All_is_handed_over :
    (send 0x41ABCD s16).map (fun t => (t.events, t.dac, t.result)) = some ([.cmd 0x41ABCD], s16.dac, none) := by
  decide +kernel

/-- 2.4 for the word, entry 7 for the effect. -/
theorem test_cwWrGainB1All_is_handed_over :
    (send 0x42ABCD s16).map (fun t => (t.events, t.dac, t.result)) = some ([.cmd 0x42ABCD], s16.dac, none) := by
  decide +kernel

/-- 2.4 for the word, entry 7 for the effect. -/
theorem test_cwWrGainAllAll_is_handed_over :
    (send 0x40ABCD s16).map (fun t => (t.events, t.dac, t.result)) = some ([.cmd 0x40ABCD], s16.dac, none) := by
  decide +kernel

/-- 2.4 for the word, entry 7 for the effect. -/
theorem test_cwReadSel_is_handed_over :
    (send 0x056B80 s16).map (fun t => (t.events, t.dac, t.result)) = some ([.cmd 0x056B80], s16.dac, none) := by
  decide +kernel

/-- R48 with NCH = 4. -/
theorem test_cwWrDacB0Ch_at_nch_is_refused :
    (match exec (.cwWrDacB0Ch 4 0) s14 with | .refused r => decide (r = .notEmitted) | _ => false) = true := by
  decide +kernel

/-- 2.6. -/
theorem test_reserved_op_is_refused :
    (ask 0x00000000 0 0 (.fin 0) s12).map (fun t => (t.result, t.refused, t.fault)) = some (some .illegalRequest, true, none) := by
  decide +kernel

/-- R13; entry 5. -/
theorem test_idle_step : (match step s16 with | .next t => decide (t = s16) | _ => false) = true := by decide +kernel

/-- IEEE 754: 0.1 is 0x3DCCCCCD. -/
theorem test_round_binary32_one_tenth :
    NumFmt.binary32.round (1 / 10) = .fin (13421773 / 134217728) := by
  decide +kernel

/-- 2^24 + 1 and 2^24 + 3 lie halfway. -/
theorem test_round_ties_to_even :
    NumFmt.binary32.round 16777217 = .fin 16777216 ∧ NumFmt.binary32.round 16777219 = .fin 16777220 := by
  decide +kernel

/-- R41. -/
theorem test_statuses :
    [Result.ok .unit, .err .invalidAddress, .err .invalidRegisterSelector, .err .outOfRange, .err .unsupportedResolution, .fault .numericDomain, .illegalRequest].map Result.status = [0, 1, 2, 3, 4, 5, 6] := by
  decide +kernel

/-! ### Witnesses: the hypotheses of each statement, met together -/

theorem notConcrete {cfg : Cfg} {bank : BankSel} {chan : ChanSel}
    (h : (match classify cfg bank chan with | .concrete _ _ => false | _ => true) = true) :
    ¬ ∃ b c, Concrete cfg bank chan b c := by
  rintro ⟨b, c, hc⟩
  rw [classify_of_concrete hc] at h
  cases h

theorem notValid {cfg : Cfg} {bank : BankSel} {chan : ChanSel} (h : classify cfg bank chan = .invalid) :
    ¬ ValidAddress cfg bank chan := classify_eq_invalid.mp h

theorem nextWith {o : Host.Outcome State Fault Refusal} {p : State → Bool}
    (h : (match o with | .next t => p t | _ => false) = true) : ∃ t, o = .next t ∧ p t = true := by
  split at h
  · exact ⟨_, rfl, h⟩
  · cases h

theorem concreteLow (cfg : Cfg) : Concrete cfg .bank0 (.idx 0) .b0 0 := ⟨rfl, rfl, cfg.nch_pos⟩

theorem concreteHigh : Concrete s16.cfg .bank1 (.idx 7) .b1 7 := ⟨rfl, rfl, by decide⟩

theorem validLow (cfg : Cfg) : ValidAddress cfg .bank0 (.idx 0) := .inl ⟨.b0, 0, concreteLow cfg⟩

theorem validAll (cfg : Cfg) : ValidAddress cfg .bankAll .all := .inr ⟨rfl, by decide⟩

theorem test_hyp_CommandWordsHaveOneSpelling : decodeCmdWord 0xCB1234 = .ok (.cwWrDacB0Ch 3 0x1234) := by rfl

/-- GETGOFS B1, with every unlisted field 0 and with every one set. -/
theorem test_hyp_UnlistedHeaderFieldsAreIgnored :
    let h : Header := 0x00000083
    let h' : Header := 0x0007FEE3
    h ≠ h' ∧ h.extractLsb' 0 5 = h'.extractLsb' 0 5 ∧ h.extractLsb' 19 13 = h'.extractLsb' 19 13 ∧
      ((h.extractLsb' 0 5).toNat ∈ [0x01, 0x02, 0x0A, 0x0C] → h.extractLsb' 5 2 = h'.extractLsb' 5 2) ∧
      h.extractLsb' 7 2 = h'.extractLsb' 7 2 ∧
      ((h.extractLsb' 0 5).toNat ∈ [0x01, 0x02, 0x04, 0x05, 0x08, 0x09, 0x0A, 0x0B, 0x0C, 0x0D, 0x0E] →
        h.extractLsb' 9 5 = h'.extractLsb' 9 5) ∧
      ((h.extractLsb' 0 5).toNat ∈ [0x0B, 0x0E] → h.extractLsb' 14 4 = h'.extractLsb' 14 4) ∧
      ((h.extractLsb' 0 5).toNat = 0x10 → h.extractLsb' 18 1 = h'.extractLsb' 18 1) := by decide

/-- Reserved ops 0x00, 0x12 and 0x1F and reserved bit 19; ops 0x01 and 0x11 with none. -/
theorem test_hyp_ReservedRequestsAreRefused :
    (({ s16 with inputs := [.request 0 0 0 (.fin 0)] } : State).inputs = .request 0 0 0 (.fin 0) :: []) ∧
      ((0x00000000 : Header).extractLsb' 0 5).toNat = 0 ∧ 0x12 ≤ ((0x00000012 : Header).extractLsb' 0 5).toNat ∧
      0x12 ≤ ((0x0000001F : Header).extractLsb' 0 5).toNat ∧ (0x00080061 : Header).extractLsb' 19 13 ≠ 0 ∧
      (1 ≤ ((0x00000001 : Header).extractLsb' 0 5).toNat ∧ ((0x00000011 : Header).extractLsb' 0 5).toNat ≤ 0x11 ∧
        (0x00000011 : Header).extractLsb' 19 13 = 0) := by
  exact ⟨rfl, by decide, by decide, by decide, by decide, by decide⟩

theorem test_hyp_StepRunsDecodedInput :
    s16.inputs = [] ∧ decode (.request 0x00000011 0 0 (.fin 0)) = .ok .reset ∧ decodeCmdWord 0xC30000 = .error .notEmittedWord := by
  exact ⟨rfl, rfl, rfl⟩

theorem test_hyp_GetReturnsStoredCode :
    s12.cfg.supported = false ∧
      (s16.cfg.supported = true ∧ RegSel.dac ≠ .unrecognised ∧ ¬ ∃ b c, Concrete s16.cfg .bank0 (.idx 8) b c) ∧
      (s16.cfg.supported = true ∧ RegSel.gain.kind = some .gain ∧ Concrete s16.cfg .bank0 (.idx 0) .b0 0) ∧
      (s16.cfg.supported = true ∧ RegSel.dac.kind = some .dac ∧ Concrete s16.cfg .bank1 (.idx 7) .b1 7) :=
  ⟨rfl, ⟨rfl, by decide, notConcrete rfl⟩, ⟨rfl, rfl, concreteLow _⟩, ⟨rfl, rfl, concreteHigh⟩⟩

theorem test_hyp_SetStoresMaskedCode :
    s12.cfg.supported = false ∧
      (s16.cfg.supported = true ∧ RegSel.dac ≠ .unrecognised ∧ ¬ ValidAddress s16.cfg .bankAll (.idx 0)) ∧
      (s16.cfg.supported = true ∧ RegSel.gain.kind = some .gain ∧ ValidAddress s16.cfg .bank0 (.idx 0) ∧
        Covers .bank0 (.idx 0) .b0 0 ∧ ¬ Covers .bank0 (.idx 0) .b1 7) ∧
      (s16.cfg.supported = true ∧ RegSel.dac.kind = some .dac ∧ ValidAddress s16.cfg .bankAll .all ∧
        Covers .bankAll .all .b1 7 ∧ (7 : Chan).val < s16.cfg.nch) :=
  ⟨rfl, ⟨rfl, by decide, notValid rfl⟩,
    ⟨rfl, rfl, validLow _, ⟨.inl rfl, .inl rfl⟩, fun h => by rcases h.1 with h | h <;> cases h⟩,
    ⟨rfl, rfl, validAll _, ⟨.inr rfl, .inr rfl⟩, by decide⟩⟩

theorem test_hyp_GetgofsReturnsGlobalOffset :
    s12.cfg.supported = false ∧ s16.cfg.supported = true ∧ BankSel.bank1 = Bank.b1.sel ∧
      (∃ t, Instr.load ≠ .reset ∧ exec .load s16 = .next t) ∧ (∃ t, exec .reset s16 = .next t) := by
  exact ⟨rfl, rfl, rfl, ⟨_, by decide, rfl⟩, ⟨_, rfl⟩⟩

theorem test_hyp_GetboundsReturnsBounds :
    s12.cfg.supported = false ∧ (s16.cfg.supported = true ∧ ¬ ∃ b c, Concrete s16.cfg .bank0 .all b c) ∧
      (s16.cfg.supported = true ∧ Concrete s16.cfg .bank1 (.idx 7) .b1 7) :=
  ⟨rfl, ⟨rfl, notConcrete rfl⟩, ⟨rfl, concreteHigh⟩⟩

/-- Bounds 1 and 0 after the request, validation on: the premise of the corner case. -/
theorem test_hyp_SetboundsStoresMaskedBounds :
    s12.cfg.supported = false ∧ (s16.cfg.supported = true ∧ ¬ ∃ b c, Concrete s16.cfg .bank0 (.idx 8) b c) ∧
      (s16v.cfg.supported = true ∧ Concrete s16v.cfg .bank0 (.idx 0) .b0 0 ∧
        let t := s16v.setBounds .b0 0 (s16v.cfg.mask 1) (s16v.cfg.mask 0)
        (t.max.at .b0 0).toNat < (t.min.at .b0 0).toNat ∧ t.cfg.validate = true ∧
        t.cfg.fmt.accept (.fin 0) = some (.fin 0) ∧ t.v2c .b0 0 (.fin 0) = some 0x8000) :=
  ⟨rfl, ⟨rfl, notConcrete rfl⟩, ⟨rfl, concreteLow _, by decide +kernel⟩⟩

theorem test_hyp_GetrefReturnsReference : BankSel.bank0 = Bank.b0.sel ∧ BankSel.bank1 = Bank.b1.sel := ⟨rfl, rfl⟩

theorem test_hyp_SetrefStoresReference :
    s32.cfg.fmt.accept .nan = some .nan ∧ s16.cfg.fmt.accept (.fin (-5)) = some (.fin (-5)) ∧ BankSel.bank0 = Bank.b0.sel ∧
      s16.cfg.fmt = .exact ∧ s16.cfg.fmt.accept .nan = none := by decide +kernel

theorem test_hyp_V2cFollowsExactFormula :
    s16.cfg.supported = true ∧ s16.cfg.fmt = .exact ∧ Concrete s16.cfg .bank1 (.idx 7) .b1 7 ∧
      s16.vref.read .b1 = .fin 5 ∧ (5 : ℚ) ≠ 0 ∧ s16.slopeQ .b1 7 ≠ 0 :=
  ⟨rfl, rfl, concreteHigh, rfl, by norm_num, by decide +kernel⟩

/-- In binary32: +inf, -inf, a zero divided by a negative slope (gain 0x7FFF, V = -10), and V = 1. -/
theorem test_hyp_V2cConvertsInEveryFormat :
    s32.cfg.supported = true ∧ Concrete s32.cfg .bank0 (.idx 0) .b0 0 ∧ (s32.vref.read .b0).isZero = false ∧
      (s32.mm .b0 0).isZero = false ∧
      (s32.cfg.fmt.accept .posInf = some .posInf ∧ s32.unclamped .b0 0 .posInf = .posInf) ∧
      (s32.cfg.fmt.accept .negInf = some .negInf ∧ s32.unclamped .b0 0 .negInf = .negInf) ∧
      (let s := s32.setStore .gain (s32.gain.put .b0 0 0x7FFF)
       (s.mm .b0 0).isZero = false ∧ s.unclamped .b0 0 (.fin (-10)) = .negZero) ∧
      (s32.cfg.fmt.accept (.fin 5) = some (.fin 5) ∧ s32.unclamped .b0 0 (.fin 5) = .fin 49152 ∧
        s32.v2c .b0 0 (.fin 5) = some 0xC000) :=
  ⟨rfl, concreteLow _, by decide +kernel, by decide +kernel, by decide +kernel, by decide +kernel, by decide +kernel,
    by decide +kernel⟩

/-- Vref = 0; gain one below the default; a NaN operand in binary32; and a state whose mark is set. -/
theorem test_hyp_NumericDomainFaults :
    (s16.cfg.supported = true ∧ Concrete s16.cfg .bank0 (.idx 0) .b0 0 ∧ s16.cfg.fmt.accept (.fin 1) = some (.fin 1) ∧
        ((s16.setVref .b0 (.fin 0)).vref.read .b0).isZero = true ∧
        ((s16.gain.put .b0 0 0xFFFE).at .b0 0).toNat + 1 = s16.cfg.defGain.toNat) ∧
      (s32.cfg.supported = true ∧ Concrete s32.cfg .bank0 (.idx 0) .b0 0 ∧ s32.cfg.fmt.accept .nan = some .nan ∧
        s32.dacCode .b0 .nan = .nan ∧ s32.unclamped .b0 0 .nan = .nan) ∧
      (∃ t, ({ s16 with fault := some .numericDomain } : State).fault = some .numericDomain ∧
        step { s16 with fault := some .numericDomain } = .next t) :=
  ⟨⟨rfl, concreteLow _, by decide +kernel, by decide +kernel, by decide +kernel⟩,
    ⟨rfl, concreteLow _, by decide +kernel, by decide +kernel, by decide +kernel⟩, ⟨_, rfl, rfl⟩⟩

theorem test_hyp_VoltageRequestErrors :
    (s12.cfg.fmt.accept (.fin 1) = some (.fin 1) ∧ s12.cfg.supported = false) ∧
      (s16.cfg.fmt.accept (.fin 1) = some (.fin 1) ∧ s16.cfg.supported = true ∧
        ¬ ∃ b c, Concrete s16.cfg .bankAll .all b c) :=
  ⟨by decide +kernel, by decide +kernel, rfl, notConcrete rfl⟩

theorem test_hyp_V2cNeverExceedsFullScale :
    ∃ t, exec (.v2c .bank0 (.idx 0) (.fin 20)) s16 = .next t ∧ t.result = some (.ok (.code 0xFFFF)) :=
  nextWith (p := fun t => decide (t.result = some (.ok (.code 0xFFFF)))) (by decide +kernel)
    |>.imp fun _ h => ⟨h.1, of_decide_eq_true h.2⟩

theorem test_hyp_V2cIsMonotone :
    s16.cfg.supported = true ∧ s16.cfg.fmt = .exact ∧ Concrete s16.cfg .bank0 (.idx 0) .b0 0 ∧
      s16.vref.read .b0 = .fin 5 ∧ (0 : ℚ) < 5 ∧ 0 < s16.slopeQ .b0 0 ∧ (-20 : ℚ) ≤ 20 :=
  ⟨rfl, rfl, concreteLow _, rfl, by norm_num, by decide +kernel, by norm_num⟩

/-- Gain 0x7FFF (2.3). -/
theorem test_hyp_ReducedGainGivesZero :
    let s := s16.setStore .gain (s16.gain.put .b0 0 0x7FFF)
    s.cfg.supported = true ∧ s.cfg.fmt = .exact ∧ Concrete s.cfg .bank0 (.idx 0) .b0 0 ∧ s.vref.read .b0 = .fin 5 ∧
      (5 : ℚ) ≠ 0 ∧ s.cfg.defGain.toNat = 2 ^ s.cfg.res - 1 ∧ (s.gain.at .b0 0).toNat + 1 < s.cfg.defGain.toNat ∧
      0 < s.dacQ .b0 5 0 - s.interceptQ .b0 0 :=
  ⟨rfl, rfl, concreteLow _, rfl, by norm_num, by decide, by decide, by decide +kernel⟩

theorem test_hyp_C2vFollowsExactInverse :
    s14.cfg.supported = true ∧ s14.cfg.fmt = .exact ∧ (s14.cfg.res = 16 ∨ s14.cfg.inv14 = .inverse) ∧
      Concrete s14.cfg .bank0 (.idx 0) .b0 0 ∧ s14.vref.read .b0 = .fin 5 :=
  ⟨rfl, rfl, .inr rfl, concreteLow _, rfl⟩

theorem test_hyp_C2vLiteralFourteenBit :
    s14lit.cfg.res = 14 ∧ s14lit.cfg.inv14 = .literal ∧ s14lit.cfg.fmt = .exact ∧
      Concrete s14lit.cfg .bank0 (.idx 0) .b0 0 ∧ s14lit.vref.read .b0 = .fin 5 :=
  ⟨rfl, rfl, rfl, concreteLow _, rfl⟩

/-- A number; a NaN, infinity times the zero of code 0x8000; and the exact reference. -/
theorem test_hyp_C2vCompletesOrFaultsOnNan :
    (s32.cfg.supported = true ∧ Concrete s32.cfg .bank0 (.idx 0) .b0 0 ∧ s32.c2v .b0 0 0xC000 = .fin 5) ∧
      (s32inf.cfg.supported = true ∧ Concrete s32inf.cfg .bank0 (.idx 0) .b0 0 ∧ s32inf.c2v .b0 0 0x8000 = .nan) ∧
      (s16.cfg.fmt = .exact ∧ s16.vref.read .b0 = .fin 5) :=
  ⟨⟨rfl, concreteLow _, by decide +kernel⟩, ⟨rfl, concreteLow _, by decide +kernel⟩, rfl, rfl⟩

/-- The ends of the span, V = -10 and V = 10 - 20/2^16. -/
theorem test_hyp_RoundTripWithinOneStep :
    s16.cfg.supported = true ∧ s16.cfg.fmt = .exact ∧ (s16.cfg.res = 16 ∨ s16.cfg.inv14 = .inverse) ∧
      Concrete s16.cfg .bank0 (.idx 0) .b0 0 ∧ s16.DefaultCalibration .b0 0 ∧ s16.vref.read .b0 = .fin 5 ∧ (0 : ℚ) < 5 ∧
      (0 ≤ s16.dacQ .b0 5 (-10) ∧ s16.dacQ .b0 5 (10 - 20 / 65536) ≤ 2 ^ s16.cfg.res - 1) ∧
      s16.gofs.read .b0 = 0x2000 :=
  ⟨rfl, rfl, .inl rfl, concreteLow _, ⟨by decide, by decide, by decide, by decide⟩, rfl, by norm_num,
    by decide +kernel, by decide⟩

/-- Inside the gate at both ends, (100, 200). -/
theorem test_hyp_EncwReturnsWriteWord :
    s16b.cfg.supported = true ∧ RegSel.gain.kind = some .gain ∧ ValidAddress s16b.cfg .bank0 (.idx 0) ∧
      s16b.GatePasses .bank0 (.idx 0) 100 ∧ s16b.GatePasses .bank0 (.idx 0) 200 :=
  ⟨rfl, rfl, validLow _, validates_classify.mp (by decide +kernel), validates_classify.mp (by decide +kernel)⟩

theorem test_hyp_WriteStoresAndEmits :
    s16b.cfg.supported = true ∧ RegSel.dac.kind = some .dac ∧ ValidAddress s16b.cfg .bank0 .all ∧
      s16b.GatePasses .bank0 .all 0 ∧ Covers .bank0 .all .b0 7 ∧ ¬ Covers .bank0 .all .b1 7 ∧ RegKind.gain ≠ .dac :=
  ⟨rfl, rfl, .inr ⟨rfl, by decide⟩, validates_classify.mp (by decide +kernel), ⟨.inl rfl, .inr rfl⟩,
    (fun h => by rcases h.1 with h | h <;> cases h), by decide⟩

/-- One below and one above the bounds. -/
theorem test_hyp_WriteErrorsInOrder :
    s12.cfg.supported = false ∧
      (s16b.cfg.supported = true ∧ RegSel.dac ≠ .unrecognised ∧ ¬ ValidAddress s16b.cfg .bankAll (.idx 0)) ∧
      (s16b.cfg.supported = true ∧ RegSel.dac ≠ .unrecognised ∧ s16b.cfg.validate = true ∧
        Concrete s16b.cfg .bank0 (.idx 0) .b0 0 ∧ ¬ s16b.InBounds .b0 0 99 ∧ ¬ s16b.InBounds .b0 0 201) :=
  ⟨rfl, ⟨rfl, by decide, notValid rfl⟩,
    ⟨rfl, by decide, rfl, concreteLow _, by unfold State.InBounds; decide +kernel, by unfold State.InBounds; decide +kernel⟩⟩

theorem test_hyp_BroadcastBypassesValidation :
    s16b.cfg.validate = true ∧ s16b.cfg.supported = true ∧ RegSel.dac.kind = some .dac ∧ BankSel.bankAll ≠ .undefined ∧
      (7 : Chan).val < s16b.cfg.nch ∧ ¬ s16b.InBounds .b0 0 50 := by
  refine ⟨rfl, rfl, rfl, by decide, by decide, ?_⟩
  unfold State.InBounds; decide +kernel

theorem test_hyp_EncwPredictsWrite :
    ∃ t, exec (.write .dac .bank0 (.idx 3) 0x1234) s16 = .next t ∧ t.result = some (.ok (.word 0xCB1234)) :=
  ⟨_, rfl, by decide +kernel⟩

/-- A per-channel and a device name whose fields are not the recommended ones. -/
theorem test_hyp_ReadbackRequestWords :
    Concrete s12sel.cfg .bank1 (.idx 7) .b1 7 ∧ s12sel.cfg.readSel.m.at .b1 7 = 0xABCD ∧
      res 0x0000CE8B 0 0 (.fin 0) s12sel = some (.ok (.word 0x05ABCD)) ∧ s12sel.cfg.readSel.gpio = 0x1234 ∧
      res 0x0002400B 0 0 (.fin 0) s12sel = some (.ok (.word 0x051234)) :=
  ⟨⟨rfl, rfl, by decide⟩, by decide +kernel, by decide +kernel, rfl, by decide +kernel⟩

theorem test_hyp_ReadbackRequestErrors :
    (ReadName.ofBits 10 = .unrecognised 0 ∧ ReadName.ofBits 15 = .unrecognised 5) ∧
      (ReadName.x1a ∈ [ReadName.x1a, .x1b, .c, .m] ∧ ¬ ∃ b c, Concrete s16.cfg .bankAll .all b c) :=
  ⟨by decide, by decide, notConcrete rfl⟩

theorem test_hyp_RecommendedReadbackWords :
    s16.cfg.readSel = ReadSel.recommended ∧ Concrete s16.cfg .bank1 (.idx 7) .b1 7 := ⟨rfl, concreteHigh⟩

/-- Inside the bounds (1638 = 0x0666) and above them, as in program P2. -/
theorem test_hyp_WritevConvertsStoresAndEmits :
    let s := s16v.setBounds .b0 0 100 60000
    s.cfg.supported = true ∧ Concrete s.cfg .bank0 (.idx 0) .b0 0 ∧ s.cfg.validate = true ∧
      (s.cfg.fmt.accept (.fin (-19 / 2)) = some (.fin (-19 / 2)) ∧ s.v2c .b0 0 (.fin (-19 / 2)) = some 0x0666 ∧
        (s.min.at .b0 0).toNat ≤ (0x0666 : Code).toNat ∧ (0x0666 : Code).toNat ≤ (s.max.at .b0 0).toNat) ∧
      (s.cfg.fmt.accept (.fin 10) = some (.fin 10) ∧ s.v2c .b0 0 (.fin 10) = some 0xFFFF ∧
        (s.max.at .b0 0).toNat < (0xFFFF : Code).toNat) :=
  ⟨rfl, concreteLow _, rfl, by decide +kernel, by decide +kernel⟩

theorem test_hyp_WritevInExactArithmetic :
    s16v.cfg.supported = true ∧ s16v.cfg.fmt = .exact ∧ Concrete s16v.cfg .bank0 (.idx 0) .b0 0 ∧
      s16v.vref.read .b0 = .fin 5 ∧ (5 : ℚ) ≠ 0 ∧ s16v.slopeQ .b0 0 ≠ 0 ∧
      (s16v.cfg.validate = true ∧ s16v.min.at .b0 0 = 0 ∧ (s16v.max.at .b0 0).toNat = 2 ^ s16v.cfg.res - 1) :=
  ⟨rfl, rfl, concreteLow _, rfl, by norm_num, by decide +kernel, by decide +kernel⟩

theorem test_hyp_ClearAppendsLevel :
    ∃ t u, exec (.clear true) s16 = .next t ∧ Instr.load.isRequest = true ∧ exec .load s16 = .next u :=
  ⟨_, _, rfl, by decide, rfl⟩

theorem test_hyp_ResetRestoresEveryEntry :
    s12.cfg.supported = false ∧ s14.cfg.supported = true ∧ (3 : Chan).val < s14.cfg.nch := by decide

/-- RES 14 with a shifted payload and the last channel; READSEL needs nothing. -/
theorem test_hyp_CommandWordsAreHandedOver :
    s14.cfg.supported = true ∧ (s14.cfg.res = 14 ∧ (0xAF34 : BitVec 16).toNat % 4 = 0) ∧
      (3 : BitVec 3).toNat < s14.cfg.nch := by decide

/-- One word of each kind that is never emitted, with NCH = 4 and RES 14, one under RES 12, and one that is emitted. -/
theorem test_hyp_UnemittableWordsAreRefused :
    (encode (.cwWrDacB0Ch 4 0) = .cmdWord 0xCC0000 ∧ NeverEmitted s14.cfg 0xCC0000) ∧
      (encode (.cwWrDacB0Ch 3 1) = .cmdWord 0xCB0001 ∧ NeverEmitted s14.cfg 0xCB0001) ∧
      (encode (.cwWrGainB1Ch 4 0) = .cmdWord 0x540000 ∧ NeverEmitted s14.cfg 0x540000) ∧
      (encode (.cwWrDacAllAll 0) = .cmdWord 0xC00000 ∧ NeverEmitted s12.cfg 0xC00000) ∧
      (encode (.cwWrDacB1Ch 3 4) = .cmdWord 0xD30004 ∧ ¬ NeverEmitted s14.cfg 0xD30004) := by
  unfold NeverEmitted
  exact ⟨⟨rfl, by decide⟩, ⟨rfl, by decide⟩, ⟨rfl, by decide⟩, ⟨rfl, by decide⟩, rfl, by decide⟩

theorem test_hyp_WriteIsSetThenCommandWord :
    ∃ t, exec (.write .gain .bankAll .all 0x7000) s16 = .next t ∧ t.result = some (.ok (.word 0x407000)) :=
  ⟨_, rfl, by decide +kernel⟩

/-- A state of a 14-bit core with a word in its history and a request to take. -/
def sInv : State :=
  { s14 with events := [.cmd 0xC14000], inputs := [.request 0x0000000F 0 0 (.fin 0)] }

theorem sInv_inv : sInv.Inv where
  legal := ⟨fun _ => by decide, ⟨.fin 5, rfl⟩, ReadSel.recommended_lowBitsClear⟩
  masked := fun _ => by
    refine ⟨?_, ?_, ?_, ?_, ?_⟩ <;> intro b c <;> cases b <;> revert c <;> decide
  vrefHeld := fun b => ⟨.fin 5, by cases b <;> rfl⟩
  history := fun w hw => by
    have : w = 0xC14000 := by simpa [sInv] using hw
    subst this; decide

theorem test_hyp_EveryStepKeepsInvariant : sInv.Inv ∧ ∃ t, step sInv = .next t := ⟨sInv_inv, _, rfl⟩

theorem test_hyp_ConstructionMeetsInvariant : (Cfg.standard14 .v1 3 true).Legal :=
  ⟨fun _ => by decide, ⟨.fin 5, rfl⟩, ReadSel.recommended_lowBitsClear⟩

theorem test_hyp_ConstructionHoldsDefaults : (Cfg.standard14 .v1 3 true).supported = true := by decide

theorem test_hyp_ResetReturnsToConstruction :
    s14.cfg.supported = true ∧ (∃ t, exec .reset s14 = .next t) ∧ (3 : Chan).val < s14.cfg.nch :=
  ⟨rfl, ⟨_, rfl⟩, by decide⟩

theorem test_hyp_EveryWellFormedInstructionCompletes :
    (Instr.writev .bank0 (.idx 0) (.fin 1)).wf s16.cfg = true ∧ (Instr.cwWrDacB0Ch 7 0).wf s16.cfg = true := by
  decide +kernel

/-- Both refusals occur: an unused word, and a NaN presented to an exact core for SETREF, V2C and WRITEV. -/
theorem test_hyp_NoStepFaults :
    (NeverEmitted s16.cfg 0xC30000 ∧ step { s16 with inputs := [.cmdWord 0xC30000] } = .refused .notEmitted) ∧
      step { s16 with inputs := [.request 0x00000007 0 0 .nan] } = .refused .operandNotNum ∧
      step { s16 with inputs := [.request 0x00000008 0 0 .nan] } = .refused .operandNotNum ∧
      step { s16 with inputs := [.request 0x0000000D 0 0 .nan] } = .refused .operandNotNum :=
  ⟨⟨by unfold NeverEmitted; decide, rfl⟩, rfl, rfl, rfl⟩

theorem test_hyp_ErrorsChangeNothing :
    ∃ t, (Instr.getref .bankAll).isRequest = true ∧ exec (.getref .bankAll) s16 = .next t ∧
      t.result = some (.err .invalidAddress) := ⟨_, by decide, rfl, rfl⟩

theorem test_hyp_ReadsChangeNothing :
    (∃ t, (Instr.getref .bank0).readsOnly = true ∧ exec (.getref .bank0) s16 = .next t) ∧
      (∃ t, exec (.v2c .bank0 (.idx 0) (.fin 1)) (s16.setVref .b0 (.fin 0)) = .next t ∧ t.fault = some .numericDomain) ∧
      (∃ t, exec (.c2v .bank0 (.idx 0) 0x8000) s32inf = .next t ∧ t.fault = some .numericDomain) :=
  ⟨⟨_, by decide, rfl⟩, ⟨_, rfl, by decide +kernel⟩,
    nextWith (p := fun t => decide (t.fault = some .numericDomain)) (by decide +kernel)
      |>.imp fun _ h => ⟨h.1, of_decide_eq_true h.2⟩⟩

theorem test_hyp_RepeatedRequestsAreIdempotent :
    (∃ t, (Instr.getref .bank0).readsOnly = true ∧ exec (.getref .bank0) s16 = .next t) ∧
      (∃ t, exec (.set .dac .bankAll .all 1) s16 = .next t) ∧ (∃ t, exec (.setbounds .bank0 (.idx 0) 1 2) s16 = .next t) ∧
      (∃ t, exec (.setref .bank0 (.fin 0)) s16 = .next t) :=
  ⟨⟨_, by decide, rfl⟩, ⟨_, rfl⟩, ⟨_, rfl⟩, ⟨_, rfl⟩⟩

theorem test_hyp_OnlyWritersWriteTheStore : ∃ t, exec .load s16 = .next t ∧ Instr.load ≠ .reset := ⟨_, rfl, by decide⟩

/-- NCH = 4 leaves the slots 4 to 7 spare. -/
theorem test_hyp_SpareSlotsNeverChange :
    (∃ t, exec (.set .dac .bankAll .all 1) s14 = .next t) ∧ ¬ (4 : Chan).val < s14.cfg.nch := ⟨⟨_, rfl⟩, by decide⟩

theorem test_hyp_ConfigurationNeverChanges : ∃ t, step sInv = .next t := ⟨_, rfl⟩

theorem test_hyp_HistoryOnlyGrows :
    ∃ t, exec .load s16 = .next t ∧ t.events ≠ s16.events ∧ Instr.load.isRequest = true := ⟨_, rfl, by decide, by decide⟩

theorem test_hyp_MarksAreSticky :
    (∃ t, step { sInv with fault := some .numericDomain, refused := true } = .next t) ∧
      (∃ t, step sInv = .next t ∧ t.Good) := ⟨⟨_, rfl⟩, ⟨_, rfl, rfl, rfl⟩⟩

theorem test_hyp_MarksDoNotSteer :
    (∃ t, exec .load s16 = .next t) ∧ exec (.setref .bank0 .nan) s16 = .refused .operandNotNum := ⟨⟨_, rfl⟩, rfl⟩

theorem test_hyp_UnsupportedResolutionHidesCodes :
    s12.cfg.supported = false ∧ (∃ t, exec (.getref .bank0) s12 = .next t) ∧
      (∃ t, exec (.get .dac .bank0 (.idx 0)) s12 = .next t) := ⟨rfl, ⟨_, rfl⟩, ⟨_, rfl⟩⟩

/-- A WRITE of GAIN to every channel with validation on, seen at B1 7; a SET of OFFSET on a 14-bit core, at B0 0. -/
theorem test_hyp_CalibrationTakesEffectAtOnce :
    (s16v.cfg.supported = true ∧ s16v.cfg.fmt = .exact ∧ RegSel.gain.kind = some .gain ∧
        ValidAddress s16v.cfg .bankAll .all ∧ Covers .bankAll .all .b1 7 ∧ (7 : Chan).val < s16v.cfg.nch ∧
        s16v.vref.read .b1 = .fin 5 ∧ s16v.GatePasses .bankAll .all 0x7FFF ∧
        (0x7FFF : Code).toNat = (0x7FFF : Code).toNat % 2 ^ s16v.cfg.res ∧ s16v.cfg.res = 16 ∧ (5 : ℚ) ≠ 0 ∧
        s16v.cfg.slopeQ 0x7FFF ≠ 0 ∧
        (s16v.cfg.validate = true ∧ s16v.min.at .b1 7 = 0 ∧ (s16v.max.at .b1 7).toNat = 2 ^ s16v.cfg.res - 1)) ∧
      (s14.cfg.supported = true ∧ s14.cfg.fmt = .exact ∧ RegSel.offset.kind = some .offset ∧
        ValidAddress s14.cfg .bank0 (.idx 0) ∧ Covers .bank0 (.idx 0) .b0 0 ∧ (0 : Chan).val < s14.cfg.nch ∧
        s14.vref.read .b0 = .fin 5 ∧ (0x1234 : Code).toNat = (0x9234 : Code).toNat % 2 ^ s14.cfg.res ∧
        s14.cfg.inv14 = .inverse ∧ s14.cfg.slopeQ (s14.gain.at .b0 0) ≠ 0) :=
  ⟨⟨rfl, rfl, rfl, validAll _, ⟨.inr rfl, .inr rfl⟩, by decide, rfl, validates_classify.mp (by decide +kernel), by decide,
      rfl, by norm_num, by decide +kernel, by decide +kernel⟩,
    ⟨rfl, rfl, rfl, validLow _, ⟨.inl rfl, .inl rfl⟩, by decide, rfl, by decide, rfl, by decide +kernel⟩⟩

end Sys2Proof.Tests
end

/-! ## Proofs of 00_scope.md: conversions in every format, the frame of the reading requests, the configuration -/

namespace Sys2Proof.Machine

variable {s t : State}

/-! ### V2C and C2V in every number format (R64 to R67) -/

/-- What V2C answers at a concrete address, for an operand taken as `v'` (R65, R86). -/
theorem execV2c_concrete {bank : BankSel} {chan : ChanSel} {b : Bank} {c : Chan} {v v' : Volts}
    (hs : s.cfg.supported = true) (hc : Concrete s.cfg bank chan b c) (ha : s.cfg.fmt.accept v = some v') :
    execV2c bank chan v s = (s.v2c b c v').elim (numericDomain s) (fun n => ok (.code n) s) := by
  simp only [execV2c, withVolts_some ha, hs, if_true, classify_of_concrete hc]
  cases s.v2c b c v' <;> rfl

/-- The full scale of a supported resolution fits a data slot (R5, R40). -/
theorem deviceMax_lt {cfg : Cfg} (hs : cfg.supported = true) : cfg.deviceMax < 2 ^ 16 := by
  rcases cfg.supported_iff.mp hs with h | h <;> simp [Cfg.deviceMax, h]

/-- Only a NaN has no clamped floor (R64). -/
theorem clampFloor_of_ne_nan {x : Volts} (h : x ≠ .nan) (lo hi : Nat) : ∃ z, x.clampFloor lo hi = some z := by
  cases x with
  | nan => exact absurd rfl h
  | _ => exact ⟨_, rfl⟩

/-- The negative zero clamps to the code 0 (R64). -/
theorem clampFloor_negZero (hi : Nat) : Volts.negZero.clampFloor 0 hi = some 0 := by
  have hclamp : Min.min (Max.max (0 : ℚ) ((0 : Nat) : ℚ)) (hi : ℚ) = 0 := by simp
  rw [Volts.clampFloor, hclamp]
  rfl

/-- With a reference and a slope that are not zero, the forward function yields a code unless `x` is a NaN (R64). -/
theorem State.v2c_of_ne_nan {b : Bank} {c : Chan} {v : Volts} (hv : (s.vref.read b).isZero = false)
    (hm : (s.mm b c).isZero = false) (hx : s.unclamped b c v ≠ .nan) : ∃ n, s.v2c b c v = some n := by
  obtain ⟨z, hz⟩ := clampFloor_of_ne_nan hx s.cfg.deviceMin s.cfg.deviceMax
  exact ⟨BitVec.ofInt 16 z, by simp [State.v2c, hv, hm, hz]⟩

/-- A code of the forward function is the clamped floor of `x` as a number: the data slot holds it whole (R64). -/
theorem State.clampFloor_of_v2c {b : Bank} {c : Chan} {v : Volts} {n : Code} (hs : s.cfg.supported = true)
    (h : s.v2c b c v = some n) :
    (s.unclamped b c v).clampFloor s.cfg.deviceMin s.cfg.deviceMax = some (n.toNat : ℤ) := by
  simp only [State.v2c] at h
  split at h
  · cases h
  split at h
  · cases h
  obtain ⟨z, hz, rfl⟩ := Option.map_eq_some_iff.mp h
  have hlt := deviceMax_lt hs
  have hb := Volts.clampFloor_bounds (Nat.zero_le _) hz
  rw [hz, BitVec.toNat_ofInt, Option.some.injEq]
  omega

/-- `DEVICE_MAX` in ℚ (R64). -/
theorem deviceMax_cast (cfg : Cfg) : (cfg.deviceMax : ℚ) = 2 ^ cfg.res - 1 := by
  rw [Cfg.deviceMax, Nat.cast_sub Nat.one_le_two_pow]
  push_cast
  rfl

/-- Settles O16: a code is the clamped floor of `x`, read off case by case. -/
theorem v2cConvertsInEveryFormat : Obligations.V2cConvertsInEveryFormat := by
  intro s bank chan b c v v' hs hc ha
  have hcode : ∀ code, s.v2c b c v' = some code →
      exec (.v2c bank chan v) s = .next { s with result := some (.ok (.code code)) } := by
    intro code hcode
    rw [exec, execV2c_concrete hs hc ha, hcode]
    rfl
  refine ⟨hcode, fun hv hm hx => ?_⟩
  obtain ⟨n, hn⟩ := State.v2c_of_ne_nan hv hm hx
  have hfloor := State.clampFloor_of_v2c hs hn
  refine ⟨n, hcode n hn, fun hpos => ?_, fun hlow => ?_, fun x hfin => ?_⟩
  · rw [hpos, Volts.clampFloor, Option.some.injEq, Nat.cast_inj] at hfloor
    exact hfloor.symm
  · rcases hlow with hneg | hzero
    · rw [hneg, Volts.clampFloor, Option.some.injEq, Nat.cast_inj] at hfloor
      exact hfloor.symm
    · rw [hzero, Cfg.deviceMin, clampFloor_negZero, Option.some.injEq, eq_comm, Nat.cast_eq_zero] at hfloor
      exact hfloor
  · rw [hfin, Volts.clampFloor_fin, Option.some.injEq, Cfg.deviceMin, deviceMax_cast] at hfloor
    exact_mod_cast hfloor.symm

/-- The printed 14-bit formula in exact arithmetic (I3). -/
theorem State.c2vLiteral_exact (hf : s.cfg.fmt = .exact) {b : Bank} {r : ℚ} (hr : s.vref.read b = .fin r) (c : Chan)
    (d : Code) :
    s.c2vLiteral b c d = .fin (4 * r * (d.toNat * s.slopeQ b c + (s.off.at b c).toNat - 2 ^ 13) / 2 ^ 14 -
      ((s.gofs.read b).toNat : ℚ) / 2 ^ 14) := by
  have h14 : (((2 ^ 14 : Int) : ℚ)) ≠ 0 := by norm_num
  simp only [State.c2vLiteral, hf, hr, State.mm_exact hf, Volts.ofInt, NumFmt.mul_exact, NumFmt.add_exact,
    NumFmt.sub_exact, NumFmt.div_exact _ _ h14]
  push_cast
  rfl

/-- Under the exact reference both inverses yield rationals (R9, R66, I3). -/
theorem State.c2v_exact_ne_nan (hs : s.cfg.supported = true) (hf : s.cfg.fmt = .exact) {b : Bank} {r : ℚ}
    (hr : s.vref.read b = .fin r) (c : Chan) (d : Code) : s.c2v b c d ≠ .nan := by
  by_cases hlit : s.cfg.res = 14 ∧ s.cfg.inv14 = .literal
  · rw [State.c2v, if_pos hlit, State.c2vLiteral_exact hf hr]
    exact Volts.noConfusion
  · have hinv : s.cfg.res = 16 ∨ s.cfg.inv14 = .inverse := by
      rcases s.cfg.supported_iff.mp hs with h14 | h16
      · cases hi : s.cfg.inv14 with
        | inverse => exact .inr rfl
        | literal => exact absurd ⟨h14, hi⟩ hlit
      · exact .inl h16
    rw [State.c2v_exact hf hinv hr]
    exact Volts.noConfusion

/-- Settles O24: C2V's answer at a concrete address, and that exact arithmetic has no NaN. -/
theorem c2vCompletesOrFaultsOnNan : Obligations.C2vCompletesOrFaultsOnNan := by
  intro s bank chan b c d0 hs hc
  refine ⟨fun hne => ?_, fun hnan => ?_, fun r hf hr => State.c2v_exact_ne_nan hs hf hr c d0⟩
  · rw [exec, execC2v_concrete hs hc, if_neg hne]
    rfl
  · rw [exec, execC2v_concrete hs hc, if_pos hnan]
    rfl

/-! ### The reading requests (R30)

Six of the eight cannot fault: whatever they answer, they write the result port and nothing else (R53, R55, R56, R58,
R74, R77). V2C and C2V may set the fault mark as well. -/

theorem execGet_finishes (reg : RegSel) (bank : BankSel) (chan : ChanSel) (s : State) :
    ∃ r, execGet reg bank chan s = .next (s.finish r) := by
  unfold execGet
  split
  · split
    · exact ⟨_, rfl⟩
    · split <;> exact ⟨_, rfl⟩
  · exact ⟨_, rfl⟩

theorem execGetgofs_finishes (bank : BankSel) (s : State) : ∃ r, execGetgofs bank s = .next (s.finish r) := by
  unfold execGetgofs
  split
  · split <;> exact ⟨_, rfl⟩
  · exact ⟨_, rfl⟩

theorem execGetbounds_finishes (bank : BankSel) (chan : ChanSel) (s : State) :
    ∃ r, execGetbounds bank chan s = .next (s.finish r) := by
  unfold execGetbounds
  split
  · split <;> exact ⟨_, rfl⟩
  · exact ⟨_, rfl⟩

theorem execGetref_finishes (bank : BankSel) (s : State) : ∃ r, execGetref bank s = .next (s.finish r) := by
  unfold execGetref
  split <;> exact ⟨_, rfl⟩

theorem execEncw_finishes (reg : RegSel) (bank : BankSel) (chan : ChanSel) (d0 : Code) (s : State) :
    ∃ r, execEncw reg bank chan d0 s = .next (s.finish r) := by
  unfold execEncw
  split <;> exact ⟨_, rfl⟩

theorem execEncr_finishes (rsel : ReadName) (bank : BankSel) (chan : ChanSel) (s : State) :
    ∃ r, execEncr rsel bank chan s = .next (s.finish r) := by
  unfold execEncr
  split <;> exact ⟨_, rfl⟩

/-- The state after the fault NumericDomain: the mark and the result port (R86). -/
def State.numericFault (s : State) : State :=
  { s with fault := some .numericDomain, result := some (.fault .numericDomain) }

/-- A V2C that answers writes the result port, or faults NumericDomain (R65). -/
theorem execV2c_next {bank : BankSel} {chan : ChanSel} {v : Volts} (h : execV2c bank chan v s = .next t) :
    (∃ r, t = s.finish r) ∨ t = s.numericFault := by
  obtain ⟨v', -, h⟩ := withVolts_next h
  split at h
  · split at h
    · split at h
      · exact .inl ⟨_, ok_next.mp h⟩
      · exact .inr (numericDomain_next.mp h)
    · exact .inl ⟨_, raise_next.mp h⟩
  · exact .inl ⟨_, raise_next.mp h⟩

/-- A C2V writes the result port, or faults NumericDomain where the result at its concrete address is a NaN (R67, R9). -/
theorem execC2v_next {bank : BankSel} {chan : ChanSel} {d0 : Code} (h : execC2v bank chan d0 s = .next t) :
    (∃ r, t = s.finish r) ∨
      (t = s.numericFault ∧ ∃ b c, Concrete s.cfg bank chan b c ∧ s.c2v b c d0 = .nan) := by
  unfold execC2v at h
  split at h
  · split at h
    · rename_i b c hcls
      split at h
      · exact .inr ⟨numericDomain_next.mp h, b, c, classify_eq_concrete.mp hcls, by assumption⟩
      · exact .inl ⟨_, ok_next.mp h⟩
    · exact .inl ⟨_, raise_next.mp h⟩
  · exact .inl ⟨_, raise_next.mp h⟩

/-- Which reading request may fault NumericDomain, and when (R86, entry 15). -/
def MayFault (s : State) (i : Instr) : Prop :=
  (∃ bank chan v, i = .v2c bank chan v) ∨
    ∃ bank chan d0 b c, i = .c2v bank chan d0 ∧ Concrete s.cfg bank chan b c ∧ s.c2v b c d0 = .nan

/-- What a reading request that answers has done (R30). -/
theorem exec_readsOnly_next {i : Instr} (hi : i.readsOnly = true) (h : exec i s = .next t) :
    (∃ r, t = s.finish r) ∨ (t = s.numericFault ∧ MayFault s i) := by
  have finished : (∃ r, exec i s = .next (s.finish r)) → ∃ r, t = s.finish r := by
    rintro ⟨r, hr⟩
    exact ⟨r, Host.Outcome.next.inj (h.symm.trans hr)⟩
  cases i with
  | get reg bank chan => exact .inl (finished (execGet_finishes reg bank chan s))
  | getgofs bank => exact .inl (finished (execGetgofs_finishes bank s))
  | getbounds bank chan => exact .inl (finished (execGetbounds_finishes bank chan s))
  | getref bank => exact .inl (finished (execGetref_finishes bank s))
  | encw reg bank chan d0 => exact .inl (finished (execEncw_finishes reg bank chan d0 s))
  | encr rsel bank chan => exact .inl (finished (execEncr_finishes rsel bank chan s))
  | v2c bank chan v => exact (execV2c_next h).imp_right fun ht => ⟨ht, .inl ⟨bank, chan, v, rfl⟩⟩
  | c2v bank chan d0 =>
    exact (execC2v_next h).imp_right fun ⟨ht, b, c, hc, hnan⟩ => ⟨ht, .inr ⟨bank, chan, d0, b, c, rfl, hc, hnan⟩⟩
  | _ => cases hi

/-- Settles O49, by the two things a reading request can do. -/
theorem readsChangeNothing : Obligations.ReadsChangeNothing := by
  intro s t i hi h
  rcases exec_readsOnly_next hi h with ⟨r, rfl⟩ | ⟨rfl, hfault⟩
  · exact ⟨rfl, .inl rfl⟩
  · exact ⟨rfl, .inr ⟨rfl, rfl, hfault⟩⟩

/-! ### The configuration (R20) -/

/-- Settles O53: a step idles, refuses its input or runs an instruction, and no instruction's effect writes the
configuration. -/
theorem configurationNeverChanges : Obligations.ConfigurationNeverChanges := by
  intro s t h
  rcases step_next_cases h with ⟨-, rfl⟩ | ⟨inp, rest, -, ⟨i, -, hexec⟩ | ⟨-, rfl⟩⟩
  · rfl
  · exact (exec_effect hexec).cfg_eq
  · rfl

end Sys2Proof.Machine

/-! ## Proofs of 10_state.md: the invariant, construction and reset, who writes what, the marks, the hidden codes -/

namespace Sys2Proof.Machine

variable {s t : State}

/-! ### The invariant (R5, R9, R18, R48)

One lemma for each operation on the state, then one for each effect of an instruction. -/

/-- Writing a RES-bit code to listed entries keeps a table masked. -/
theorem masked_fill {c : Cfg} {tb : Table} {v : Code} (ht : tb.Masked c) (hv : v.toNat ≤ c.maskR)
    (ts : List (Bank × Chan)) : (tb.fill ts v).Masked c := by
  intro b i
  rw [Table.at_fill]
  split
  · exact hv
  · exact ht b i

theorem masked_put {c : Cfg} {tb : Table} {v : Code} (ht : tb.Masked c) (hv : v.toNat ≤ c.maskR) (b : Bank)
    (i : Chan) : (tb.put b i v).Masked c :=
  masked_fill ht hv [(b, i)]

/-- The masking invariant by register kinds (R18). -/
theorem State.masked_iff : s.Masked ↔ (s.cfg.supported = true →
    (∀ k, (s.store k).Masked s.cfg) ∧ s.min.Masked s.cfg ∧ s.max.Masked s.cfg) := by
  refine imp_congr_right fun _ => ⟨?_, ?_⟩
  · rintro ⟨hdac, hoff, hgain, hmin, hmax⟩
    refine ⟨fun k => ?_, hmin, hmax⟩
    cases k with
    | gain => exact hgain
    | offset => exact hoff
    | dac => exact hdac
  · rintro ⟨hstore, hmin, hmax⟩
    exact ⟨hstore .dac, hstore .offset, hstore .gain, hmin, hmax⟩

/-- The invariant does not speak of the marks, the result port and the inputs. -/
theorem State.Inv.with_ports (h : s.Inv) (f : Option Fault) (m : Bool) (r : Option Result) (l : List Input) :
    ({ s with fault := f, refused := m, result := r, inputs := l } : State).Inv :=
  ⟨h.legal, h.masked, h.vrefHeld, h.history⟩

theorem State.Inv.finish (h : s.Inv) (r : Result) : (s.finish r).Inv := h.with_ports _ _ _ _

theorem State.Inv.storeAll (h : s.Inv) (k : RegKind) (cls : AddrClass) (d : Code) :
    (s.storeAll k cls (s.cfg.mask d)).Inv := by
  refine ⟨by simpa using h.legal, State.masked_iff.mpr fun hs => ?_, ?_, ?_⟩
  · rw [State.storeAll_cfg] at hs ⊢
    obtain ⟨hstore, hmin, hmax⟩ := State.masked_iff.mp h.masked hs
    refine ⟨fun k' => ?_, by simpa using hmin, by simpa using hmax⟩
    rw [State.storeAll_store]
    split
    · exact masked_fill (hstore k) (s.cfg.mask_le d) _
    · exact hstore k'
  · simpa [State.VrefHeld] using h.vrefHeld
  · simpa [State.HistoryEmitted] using h.history

theorem State.Inv.setBounds (h : s.Inv) (b : Bank) (c : Chan) (lo hi : Code) :
    (s.setBounds b c (s.cfg.mask lo) (s.cfg.mask hi)).Inv := by
  refine ⟨h.legal, fun hs => ?_, h.vrefHeld, h.history⟩
  obtain ⟨hdac, hoff, hgain, hmin, hmax⟩ := h.masked hs
  exact ⟨hdac, hoff, hgain, masked_put hmin (s.cfg.mask_le lo) b c, masked_put hmax (s.cfg.mask_le hi) b c⟩

theorem State.Inv.setVref (h : s.Inv) (b : Bank) {v : Volts} (hv : s.cfg.fmt.Holds v) : (s.setVref b v).Inv := by
  refine ⟨h.legal, h.masked, fun b' => ?_, h.history⟩
  rw [State.setVref_cfg, State.setVref_vref, PerBank.read_write]
  split
  · exact hv
  · exact h.vrefHeld b'

/-- An event keeps the invariant when its word, if it has one, is one the core can emit (R48). -/
theorem State.Inv.emit (h : s.Inv) {ev : Event} (hev : ∀ w, ev = .cmd w → s.cfg.emits w = true) : (s.emit ev).Inv := by
  refine ⟨h.legal, h.masked, h.vrefHeld, fun w hw => ?_⟩
  rw [State.emit_events, List.mem_append, List.mem_singleton] at hw
  rcases hw with hold | hnew
  · exact h.history w hold
  · exact hev w hnew.symm

theorem State.Inv.emit_cmd (h : s.Inv) {w : CmdWord} (hw : s.cfg.emits w = true) : (s.emit (.cmd w)).Inv :=
  h.emit fun _ hcmd => Event.cmd.inj hcmd ▸ hw

/-- The defaults of a legal configuration are RES-bit codes and a Num, so RESET keeps the invariant (R5, R83). -/
theorem State.Inv.restore (h : s.Inv) : s.restore.Inv := by
  obtain ⟨hcodes, hvref, -⟩ := h.legal
  refine ⟨h.legal, fun hs => ?_, fun b => ?_, h.history⟩
  · obtain ⟨hdac, hoff, hgain, hmin, hmax⟩ := h.masked hs
    obtain ⟨ddac, doff, dgain, dmin, dmax⟩ := hcodes hs
    exact ⟨masked_fill hdac ddac _, masked_fill hoff doff _, masked_fill hgain dgain _, masked_fill hmin dmin _,
      masked_fill hmax dmax _⟩
  · rw [State.restore_vref, PerBank.read_both]
    exact hvref

/-- What `encw` yields keeps the invariant when it is stored and emitted (R18, R48, R73). -/
theorem State.Inv.commitWrite (h : s.Inv) {reg : RegSel} {bank : BankSel} {chan : ChanSel} {d : Code} {e : WriteWord}
    (he : encodeWrite s reg bank chan d = .ok e) : (s.commitWrite e).Inv := by
  obtain ⟨-, -, -, -, -, hval, -⟩ := encodeWrite_inv he
  have hemits := emits_encodeWrite he
  rw [State.commitWrite, hval]
  exact (h.storeAll e.kind e.cls d).emit_cmd (by rwa [State.storeAll_cfg])

/-- Every effect of an instruction keeps the invariant. -/
theorem Effect.inv (h : Effect s t) (hi : s.Inv) : t.Inv := by
  obtain ⟨-, -, hreadSel⟩ := hi.legal
  cases h with
  | result r h => exact h ▸ hi.finish r
  | fault h => exact h ▸ hi.with_ports _ _ _ _
  | stored k cls d _ h => exact h ▸ (hi.storeAll k cls d).finish _
  | bounded b c lo hi' _ h => exact h ▸ (hi.setBounds b c lo hi').finish _
  | referenced b v v' ha h => exact h ▸ (hi.setVref b ⟨v, ha⟩).finish _
  | written reg bank chan d e x he h => exact h ▸ (hi.commitWrite he).finish _
  | asked rsel bank chan w he h => exact h ▸ (hi.emit_cmd (emits_encodeRead hreadSel he)).finish _
  | pulsed ev hev h =>
    refine h ▸ (hi.emit fun w hw => ?_).finish _
    rcases hev with rfl | ⟨f, rfl⟩ <;> cases hw
  | restored _ h => exact h ▸ (hi.emit fun _ hw => Event.noConfusion hw).restore.finish _
  | sent w hw h => exact h ▸ hi.emit_cmd hw

/-- Settles O42: a step idles, refuses its input or has an instruction's effect, and each keeps the invariant. -/
theorem everyStepKeepsInvariant : Obligations.EveryStepKeepsInvariant := by
  intro s t hi h
  rcases step_next_cases h with ⟨-, rfl⟩ | ⟨inp, rest, -, ⟨i, -, hexec⟩ | ⟨-, rfl⟩⟩
  · exact hi
  · exact (exec_effect hexec).inv (hi.with_ports _ _ _ rest)
  · exact hi.with_ports _ _ _ rest

/-! ### Construction and RESET (R22, R23, R96, R97) -/

/-- With a supported resolution a constructed table holds its default everywhere (R22). -/
theorem initialTable_at {cfg : Cfg} (hs : cfg.supported = true) (n : Nat) (v : Code) (b : Bank) (c : Chan) :
    (initialTable cfg n v).at b c = v := by
  rw [initialTable, if_pos hs, Table.at_const]

theorem State.construct_gofs {cfg : Cfg} (hs : cfg.supported = true) :
    (State.construct cfg).gofs = PerBank.both cfg.defGofs :=
  if_pos hs

/-- A constructed core has no history, so a legal configuration is all that the invariant asks of it (R96). -/
theorem State.construct_inv {cfg : Cfg} (hl : cfg.Legal) : (State.construct cfg).Inv := by
  have ⟨hcodes, hvref, _⟩ := hl
  refine ⟨hl, fun hs => ?_, fun b => ?_, fun w hw => absurd hw List.not_mem_nil⟩
  · obtain ⟨hdac, hoff, hgain, hmin, hmax⟩ := hcodes hs
    have masked : ∀ (n : Nat) {v : Code}, v.toNat ≤ cfg.maskR → (initialTable cfg n v).Masked cfg :=
      fun n v hv b c => (initialTable_at hs n v b c).symm ▸ hv
    exact ⟨masked 0 hdac, masked 1 hoff, masked 2 hgain, masked 3 hmin, masked 4 hmax⟩
  · exact (PerBank.read_both cfg.defVref b).symm ▸ hvref

theorem standard_legal : Cfg.standard.Legal :=
  ⟨fun _ => by decide, ⟨.fin 5, rfl⟩, ReadSel.recommended_lowBitsClear⟩

/-- Settles O43: the defaults of a legal configuration are what the invariant asks for, and the standard configuration
is legal. -/
theorem constructionMeetsInvariant : Obligations.ConstructionMeetsInvariant :=
  ⟨fun _ hl => State.construct_inv hl, State.construct_inv standard_legal⟩

/-- The code entries of a constructed core with a supported resolution (R22). -/
theorem construct_entries {cfg : Cfg} (hs : cfg.supported = true) (b : Bank) (c : Chan) :
    (State.construct cfg).dac.at b c = cfg.defDac ∧ (State.construct cfg).off.at b c = cfg.defOffset ∧
      (State.construct cfg).gain.at b c = cfg.defGain ∧ (State.construct cfg).min.at b c = cfg.defMin ∧
      (State.construct cfg).max.at b c = cfg.defMax ∧ (State.construct cfg).gofs.read b = cfg.defGofs :=
  ⟨initialTable_at hs _ _ b c, initialTable_at hs _ _ b c, initialTable_at hs _ _ b c, initialTable_at hs _ _ b c,
    initialTable_at hs _ _ b c, by rw [State.construct_gofs hs, PerBank.read_both]⟩

/-- Settles O44: each entry reads its default, and the numbers are the standard configuration's. -/
theorem constructionHoldsDefaults : Obligations.ConstructionHoldsDefaults := by
  have reference : ∀ (cfg : Cfg) (b : Bank), (State.construct cfg).vref.read b = cfg.defVref :=
    fun cfg b => PerBank.read_both cfg.defVref b
  refine ⟨fun cfg b c hs => construct_entries hs b c, fun cfg b => ⟨reference cfg b, rfl, rfl, rfl⟩, fun b c => ?_⟩
  obtain ⟨hdac, hoff, hgain, hmin, hmax, hgofs⟩ := construct_entries (cfg := Cfg.standard) rfl b c
  exact ⟨hdac, hoff, hgain, hmin, hmax, hgofs, reference Cfg.standard b⟩

/-- RESET fills each table below NCH with its default (R83). -/
theorem at_fill_allTargets (tb : Table) (cfg : Cfg) (v : Code) (b : Bank) (c : Chan) :
    (tb.fill (allTargets cfg) v).at b c = if c.val < cfg.nch then v else tb.at b c := by
  rw [Table.at_fill]
  simp only [mem_allTargets]

/-- What a RESET that answers has done: an error, or the pulse and the defaults (R83). -/
theorem execReset_next (h : execReset s = .next t) :
    (s.cfg.supported = false ∧ t = s.finish (.err .unsupportedResolution)) ∨
      (s.cfg.supported = true ∧ t = (s.emit .resetPulse).restore.finish (.ok .unit)) := by
  rw [execReset] at h
  split at h
  next hs => exact .inr ⟨hs, ok_next.mp h⟩
  next hs => exact .inl ⟨Bool.eq_false_iff.mpr hs, raise_next.mp h⟩

/-- Settles O45: RESET and construction leave the same default in every entry of a channel. -/
theorem resetReturnsToConstruction : Obligations.ResetReturnsToConstruction := by
  intro s t hs h
  rcases execReset_next h with ⟨hno, -⟩ | ⟨-, rfl⟩
  · exact absurd (hs.symm.trans hno) Bool.noConfusion
  have entry : ∀ (tb : Table) (n : Nat) (v : Code) (b : Bank) (c : Chan), c.val < s.cfg.nch →
      (tb.fill (allTargets s.cfg) v).at b c = (initialTable s.cfg n v).at b c := by
    intro tb n v b c hc
    rw [at_fill_allTargets, if_pos hc, initialTable_at hs]
  refine ⟨fun k b c hc => ⟨?_, entry s.min 3 _ b c hc, entry s.max 4 _ b c hc⟩, (State.construct_gofs hs).symm, rfl⟩
  cases k with
  | dac => exact entry s.dac 0 _ b c hc
  | offset => exact entry s.off 1 _ b c hc
  | gain => exact entry s.gain 2 _ b c hc

/-! ### What each instruction can have done (R13 to R16, R26, R29)

`Effect` names no instruction. The statements about who writes what need the effect tied to the instruction and to the
class of its address. -/

/-- What the instruction can have done. -/
inductive EffectOf (s t : State) : Instr → Prop where
  /-- a result, and the fault mark at most: a read, an error, the fault (R30, R85, R86) -/
  | ended (i : Instr) (f : Option Fault) (r : Result) (ht : t = ({ s with fault := f } : State).finish r) :
      EffectOf s t i
  /-- SET (R54) -/
  | stored (reg : RegSel) (k : RegKind) (bank : BankSel) (chan : ChanSel) (d v : Code)
      (ht : t = (s.storeAll k (classify s.cfg bank chan) v).finish (.ok .unit)) : EffectOf s t (.set reg bank chan d)
  /-- SETBOUNDS (R57) -/
  | bounded (bank : BankSel) (chan : ChanSel) (d0 d1 : Code) (b : Bank) (c : Chan) (lo hi : Code)
      (hc : c.val < s.cfg.nch) (ht : t = (s.setBounds b c lo hi).finish (.ok .unit)) :
      EffectOf s t (.setbounds bank chan d0 d1)
  /-- SETREF (R59) -/
  | referenced (bank : BankSel) (b : Bank) (v v' : Volts) (ht : t = (s.setVref b v').finish (.ok .unit)) :
      EffectOf s t (.setref bank v)
  /-- WRITE or WRITEV (R78, R79) -/
  | written (i : Instr) (hi : (∃ reg bank chan d0, i = .write reg bank chan d0) ∨ ∃ bank chan v, i = .writev bank chan v)
      (bank : BankSel) (chan : ChanSel) (e : WriteWord) (hcls : e.cls = classify s.cfg bank chan) (x : Value)
      (ht : t = (s.commitWrite e).finish (.ok x)) : EffectOf s t i
  /-- READREQ, LOAD or CLEAR (R80 to R82) -/
  | signalled (i : Instr) (hi : (∃ rsel bank chan, i = .readreq rsel bank chan) ∨ i = .load ∨ ∃ f, i = .clear f)
      (ev : Event) (x : Value) (ht : t = (s.emit ev).finish (.ok x)) : EffectOf s t i
  /-- RESET (R83) -/
  | restored (ht : t = (s.emit .resetPulse).restore.finish (.ok .unit)) : EffectOf s t .reset
  /-- a command-word form (R93) -/
  | sent (i : Instr) (w : CmdWord) (hi : encode i = .cmdWord w) (ht : t = s.emit (.cmd w)) : EffectOf s t i

theorem effectOf_finish (i : Instr) {r : Result} (h : t = s.finish r) : EffectOf s t i := .ended i s.fault r h

theorem effectOf_numericFault (i : Instr) (h : t = s.numericFault) : EffectOf s t i :=
  .ended i (some .numericDomain) (.fault .numericDomain) h

theorem effectOf_raise (i : Instr) {e : ErrKind} (h : raise e s = .next t) : EffectOf s t i :=
  effectOf_finish i (raise_next.mp h)

theorem effectOf_readsOnly {i : Instr} (hi : i.readsOnly = true) (h : exec i s = .next t) : EffectOf s t i := by
  rcases exec_readsOnly_next hi h with ⟨r, ht⟩ | ⟨ht, -⟩
  · exact effectOf_finish i ht
  · exact effectOf_numericFault i ht

theorem effectOf_set {reg : RegSel} {bank : BankSel} {chan : ChanSel} {d0 : Code}
    (h : execSet reg bank chan d0 s = .next t) : EffectOf s t (.set reg bank chan d0) := by
  unfold execSet at h
  split at h
  · split at h
    · exact effectOf_raise _ h
    · split at h
      · exact effectOf_raise _ h
      · exact .stored reg _ bank chan d0 _ (ok_next.mp h)
  · exact effectOf_raise _ h

theorem effectOf_setbounds {bank : BankSel} {chan : ChanSel} {d0 d1 : Code}
    (h : execSetbounds bank chan d0 d1 s = .next t) : EffectOf s t (.setbounds bank chan d0 d1) := by
  unfold execSetbounds at h
  split at h
  · split at h
    next b c hcls => exact .bounded bank chan d0 d1 b c _ _ (classify_concrete_lt hcls) (ok_next.mp h)
    · exact effectOf_raise _ h
  · exact effectOf_raise _ h

theorem effectOf_setref {bank : BankSel} {v : Volts} (h : execSetref bank v s = .next t) :
    EffectOf s t (.setref bank v) := by
  obtain ⟨v', -, h⟩ := withVolts_next h
  split at h
  · exact .referenced bank _ v v' (ok_next.mp h)
  · exact effectOf_raise _ h

/-- The class that `encw` yields is that of its selectors (R73). -/
theorem encodeWrite_cls {reg : RegSel} {bank : BankSel} {chan : ChanSel} {d : Code} {e : WriteWord}
    (h : encodeWrite s reg bank chan d = .ok e) : e.cls = classify s.cfg bank chan := by
  obtain ⟨-, -, hcls, -⟩ := encodeWrite_inv h
  exact hcls

theorem effectOf_write {reg : RegSel} {bank : BankSel} {chan : ChanSel} {d0 : Code}
    (h : execWrite reg bank chan d0 s = .next t) : EffectOf s t (.write reg bank chan d0) := by
  unfold execWrite at h
  split at h
  next e he => exact .written _ (.inl ⟨reg, bank, chan, d0, rfl⟩) bank chan e (encodeWrite_cls he) _ (ok_next.mp h)
  · exact effectOf_raise _ h

theorem effectOf_writev {bank : BankSel} {chan : ChanSel} {v : Volts} (h : execWritev bank chan v s = .next t) :
    EffectOf s t (.writev bank chan v) := by
  obtain ⟨v', -, h⟩ := withVolts_next h
  split at h
  · split at h
    · split at h
      · exact effectOf_numericFault _ (numericDomain_next.mp h)
      · split at h
        next e he => exact .written _ (.inr ⟨bank, chan, v, rfl⟩) bank chan e (encodeWrite_cls he) _ (ok_next.mp h)
        · exact effectOf_raise _ h
    · exact effectOf_raise _ h
  · exact effectOf_raise _ h

theorem effectOf_readreq {rsel : ReadName} {bank : BankSel} {chan : ChanSel}
    (h : execReadreq rsel bank chan s = .next t) : EffectOf s t (.readreq rsel bank chan) := by
  unfold execReadreq at h
  split at h
  · exact .signalled _ (.inl ⟨rsel, bank, chan, rfl⟩) _ _ (ok_next.mp h)
  · exact effectOf_raise _ h

theorem effectOf_reset (h : execReset s = .next t) : EffectOf s t .reset := by
  rcases execReset_next h with ⟨-, ht⟩ | ⟨-, ht⟩
  · exact effectOf_finish _ ht
  · exact .restored ht

theorem effectOf_cmdWord {i : Instr} {w : CmdWord} (hi : encode i = .cmdWord w) (h : exec i s = .next t) :
    EffectOf s t i := by
  rw [exec_of_encode_cmdWord hi] at h
  exact .sent i w hi (sendCommand_next.mp h).2

/-- Every instruction that answers a next state has one of its own effects. -/
theorem exec_effectOf {i : Instr} (h : exec i s = .next t) : EffectOf s t i := by
  by_cases hr : i.readsOnly = true
  · exact effectOf_readsOnly hr h
  cases i with
  | get | getgofs | getbounds | getref | v2c | c2v | encw | encr => exact absurd rfl hr
  | set reg bank chan d0 => exact effectOf_set h
  | setbounds bank chan d0 d1 => exact effectOf_setbounds h
  | setref bank v => exact effectOf_setref h
  | write reg bank chan d0 => exact effectOf_write h
  | writev bank chan v => exact effectOf_writev h
  | readreq rsel bank chan => exact effectOf_readreq h
  | load => exact .signalled _ (.inr (.inl rfl)) _ _ (ok_next.mp h)
  | clear flag => exact .signalled _ (.inr (.inr ⟨flag, rfl⟩)) _ _ (ok_next.mp h)
  | reset => exact effectOf_reset h
  | _ => exact effectOf_cmdWord rfl h

/-- Settles O51: of each effect, the parts of the store it leaves, and which instruction can have it. -/
theorem onlyWritersWriteTheStore : Obligations.OnlyWritersWriteTheStore := by
  intro s t i h hreset
  cases exec_effectOf h with
  | stored reg k bank chan d v ht =>
    subst ht
    exact ⟨fun hset _ => absurd rfl (hset reg bank chan d).1, fun _ => by simp, by simp, fun _ => by simp⟩
  | bounded bank chan d0 d1 b c lo hi _ ht =>
    subst ht
    exact ⟨fun _ _ => ⟨rfl, rfl, rfl⟩, fun hb => absurd rfl (hb bank chan d0 d1), rfl, fun _ => rfl⟩
  | referenced bank b v v' ht =>
    subst ht
    exact ⟨fun _ _ => ⟨rfl, rfl, rfl⟩, fun _ => ⟨rfl, rfl⟩, rfl, fun hv => absurd rfl (hv bank v)⟩
  | written _ hi bank chan e _ x ht =>
    subst ht
    refine ⟨fun hwrite hwritev => ?_, fun _ => by simp, by simp, fun _ => by simp⟩
    rcases hi with ⟨reg, bank, chan, d0, hi⟩ | ⟨bank, chan, v, hi⟩
    · exact absurd hi (hwrite reg bank chan d0).2
    · exact absurd hi (hwritev bank chan v)
  | restored _ => exact absurd rfl hreset
  | ended | signalled | sent =>
    subst_vars
    exact ⟨fun _ _ => ⟨rfl, rfl, rfl⟩, fun _ => ⟨rfl, rfl⟩, rfl, fun _ => rfl⟩

/-! ### The spare slots (entry 11) -/

/-- The targets of any address lie below NCH (R52). -/
theorem lt_nch_of_mem_targets {cfg : Cfg} {bank : BankSel} {chan : ChanSel} {b : Bank} {c : Chan}
    (h : (b, c) ∈ targets cfg (classify cfg bank chan)) : c.val < cfg.nch := by
  by_cases hv : ValidAddress cfg bank chan
  · exact ((mem_targets hv b c).mp h).1
  · rw [classify_eq_invalid.mpr hv] at h
    exact absurd h List.not_mem_nil

/-- Filling the targets of an address leaves the spare slots. -/
theorem at_fill_targets_spare (tb : Table) {cfg : Cfg} (bank : BankSel) (chan : ChanSel) (v : Code) (b : Bank)
    {c : Chan} (hc : ¬ c.val < cfg.nch) : (tb.fill (targets cfg (classify cfg bank chan)) v).at b c = tb.at b c := by
  rw [Table.at_fill, if_neg fun hmem => hc (lt_nch_of_mem_targets hmem)]

theorem storeAll_store_spare (k k' : RegKind) (bank : BankSel) (chan : ChanSel) (v : Code) (b : Bank) {c : Chan}
    (hc : ¬ c.val < s.cfg.nch) :
    ((s.storeAll k (classify s.cfg bank chan) v).store k').at b c = (s.store k').at b c := by
  rw [State.storeAll_store]
  split
  next hk => rw [at_fill_targets_spare _ bank chan v b hc, hk]
  · rfl

/-- A channel that exists is none of the spare slots. -/
theorem at_put_spare {cfg : Cfg} (tb : Table) (b b' : Bank) {c c' : Chan} (v : Code) (hc : c.val < cfg.nch)
    (hc' : ¬ c'.val < cfg.nch) : (tb.put b c v).at b' c' = tb.at b' c' := by
  rw [Table.at_put, if_neg (by rintro ⟨-, rfl⟩; exact hc' hc)]

/-- RESET leaves the spare slots. -/
theorem at_fill_allTargets_spare (tb : Table) {cfg : Cfg} (v : Code) (b : Bank) {c : Chan} (hc : ¬ c.val < cfg.nch) :
    (tb.fill (allTargets cfg) v).at b c = tb.at b c := by
  rw [at_fill_allTargets, if_neg hc]

/-- Settles O52: every write goes to targets below NCH. -/
theorem spareSlotsNeverChange : Obligations.SpareSlotsNeverChange := by
  intro s t i h k b c hc
  cases exec_effectOf h with
  | stored reg k' bank chan d v ht =>
    subst ht
    exact ⟨by rw [State.finish_store, storeAll_store_spare k' k bank chan v b hc], by simp, by simp⟩
  | bounded bank chan d0 d1 b' c' lo hi hc' ht =>
    subst ht
    exact ⟨by simp, at_put_spare s.min b' b lo hc' hc, at_put_spare s.max b' b hi hc' hc⟩
  | written _ _ bank chan e hcls x ht =>
    subst ht
    refine ⟨?_, by simp, by simp⟩
    rw [State.finish_store, State.commitWrite, State.emit_store, hcls, storeAll_store_spare e.kind k bank chan _ b hc]
  | restored ht =>
    subst ht
    refine ⟨?_, at_fill_allTargets_spare _ _ b hc, at_fill_allTargets_spare _ _ b hc⟩
    cases k <;> exact at_fill_allTargets_spare _ _ b hc
  | ended | referenced | signalled | sent => subst_vars; exact ⟨by cases k <;> rfl, rfl, rfl⟩

/-! ### The history and the marks (R16, R17) -/

/-- Settles O54: an effect that appends an event is an emitting request's success, or a command-word form's. -/
theorem historyOnlyGrows : Obligations.HistoryOnlyGrows := by
  intro s t i h
  refine ⟨(exec_effect h).events_eq, fun hgrew hreq => ?_⟩
  cases exec_effectOf h with
  | ended | bounded | referenced => subst_vars; exact absurd rfl hgrew
  | stored reg k bank chan d v ht => subst ht; exact absurd (State.storeAll_events s _ _ _) hgrew
  | written _ hi bank chan e _ x ht =>
    exact ⟨hi.imp_right .inl, x, by rw [ht, State.finish_result]⟩
  | signalled _ hi ev x ht =>
    refine ⟨.inr (.inr ?_), x, by rw [ht, State.finish_result]⟩
    exact hi.imp_right (Or.imp_right .inl)
  | restored ht => exact ⟨by simp, .unit, by rw [ht, State.finish_result]⟩
  | sent _ w hi _ =>
    rw [Instr.isRequest, hi] at hreq
    cases hreq

/-- No effect clears a mark (R17). -/
theorem Effect.marks_kept (h : Effect s t) :
    (s.fault ≠ none → t.fault ≠ none) ∧ (s.refused = true → t.refused = true) := by
  cases h <;> subst_vars <;> simp

/-- No step clears a mark (R17). -/
theorem step_marks_kept (h : step s = .next t) :
    (s.fault ≠ none → t.fault ≠ none) ∧ (s.refused = true → t.refused = true) := by
  rcases step_next_cases h with ⟨-, rfl⟩ | ⟨inp, rest, -, ⟨i, -, hexec⟩ | ⟨-, rfl⟩⟩
  · exact ⟨id, id⟩
  · exact (exec_effect hexec).marks_kept
  · exact ⟨id, fun _ => rfl⟩

/-- Settles O55: no effect clears a mark, so a good state comes from a good state. -/
theorem marksAreSticky : Obligations.MarksAreSticky := by
  refine ⟨fun s t h => step_marks_kept h, fun s t h hgood => ?_, fun c => ⟨rfl, rfl⟩⟩
  obtain ⟨hfault, hrefused⟩ := step_marks_kept h
  exact ⟨not_not.mp fun hf => hfault hf hgood.1,
    Bool.eq_false_iff.mpr fun hr => Bool.noConfusion ((hrefused hr).symm.trans hgood.2)⟩

/-! ### The hidden codes (R23, R84) -/

/-- The code entries of a state: what holds no defined value under an unsupported RES (R23). -/
structure CodeEntries where
  dac : Table
  off : Table
  gain : Table
  min : Table
  max : Table
  gofs : PerBank Gofs

def State.codes (s : State) : CodeEntries :=
  { dac := s.dac, off := s.off, gain := s.gain, min := s.min, max := s.max, gofs := s.gofs }

/-- The state with other code entries. -/
def State.withCodes (s : State) (n : CodeEntries) : State :=
  { s with dac := n.dac, off := n.off, gain := n.gain, min := n.min, max := n.max, gofs := n.gofs }

/-- From `s` the meaning answers alike whatever the code entries are, and keeps them. -/
def Blind (f : State → Out) (s : State) : Prop :=
  ∀ t n, f s = .next t → f (s.withCodes n) = .next (t.withCodes n)

theorem blind_ok (v : Value) : Blind (ok v) s := by
  rintro t n ⟨⟩
  rfl

theorem blind_raise (e : ErrKind) : Blind (raise e) s := by
  rintro t n ⟨⟩
  rfl

theorem blind_emit (ev : Event) (v : Value) : Blind (fun u => ok v (u.emit ev)) s := by
  rintro t n ⟨⟩
  rfl

theorem blind_sendCommand (w : CmdWord) : Blind (sendCommand w) s := by
  intro t n h
  obtain ⟨hw, rfl⟩ := sendCommand_next.mp h
  exact sendCommand_next.mpr ⟨hw, rfl⟩

theorem blind_withVolts {f : Volts → State → Out} (hf : ∀ v', Blind (f v') s) (v : Volts) :
    Blind (fun u => withVolts v u fun v' => f v' u) s := by
  intro t n h
  obtain ⟨v', ha, h⟩ := withVolts_next h
  exact (withVolts_some (s := s.withCodes n) ha _).trans (hf v' t n h)

/-- A meaning is blind if it agrees with a blind one on every state with the configuration of `s`. -/
theorem Blind.of_eq {f g : State → Out} (hg : Blind g s) (h : ∀ u : State, u.cfg = s.cfg → f u = g u) : Blind f s := by
  intro t n hf
  rw [h s rfl] at hf
  rw [h (s.withCodes n) rfl]
  exact hg t n hf

theorem blind_getref (bank : BankSel) : Blind (execGetref bank) s := by
  unfold execGetref
  cases bank.single with
  | some b =>
    rintro t n ⟨⟩
    rfl
  | none => exact blind_raise _

theorem blind_setref (bank : BankSel) (v : Volts) : Blind (execSetref bank v) s := by
  refine blind_withVolts (fun v' => ?_) v
  cases bank.single with
  | some b =>
    rintro t n ⟨⟩
    rfl
  | none => exact blind_raise _

/-- ENCR and READREQ read the configuration only (R76, R77, R80). -/
theorem blind_encr (rsel : ReadName) (bank : BankSel) (chan : ChanSel) : Blind (execEncr rsel bank chan) s := by
  cases he : encodeRead s.cfg rsel bank chan with
  | ok w => exact (blind_ok (.word w)).of_eq fun u hu => by simp only [execEncr, hu, he]
  | error e => exact (blind_raise e).of_eq fun u hu => by simp only [execEncr, hu, he]

theorem blind_readreq (rsel : ReadName) (bank : BankSel) (chan : ChanSel) : Blind (execReadreq rsel bank chan) s := by
  cases he : encodeRead s.cfg rsel bank chan with
  | ok w => exact (blind_emit (.cmd w) (.word w)).of_eq fun u hu => by simp only [execReadreq, hu, he]
  | error e => exact (blind_raise e).of_eq fun u hu => by simp only [execReadreq, hu, he]

/-- The requests that check RES first (R84, R88): those on codes that take no voltage. -/
def needsResolution : Instr → Bool
  | .get _ _ _ | .set _ _ _ _ | .getgofs _ | .getbounds _ _ | .setbounds _ _ _ _ | .c2v _ _ _ | .encw _ _ _ _
  | .write _ _ _ _ | .reset => true
  | _ => false

theorem exec_unsupported {i : Instr} (hi : needsResolution i = true) (hs : s.cfg.supported = false) :
    exec i s = raise .unsupportedResolution s := by
  cases i with
  | get => simp [exec, execGet, hs]
  | set => simp [exec, execSet, hs]
  | getgofs => simp [exec, execGetgofs, hs]
  | getbounds => simp [exec, execGetbounds, hs]
  | setbounds => simp [exec, execSetbounds, hs]
  | c2v => simp [exec, execC2v, hs]
  | encw => simp [exec, execEncw, encodeWrite_unsupported hs]
  | write => simp [exec, execWrite, encodeWrite_unsupported hs]
  | reset => simp [exec, execReset, hs]
  | _ => cases hi

/-- V2C and WRITEV take their operand and then raise (R65, R79). -/
theorem execV2c_unsupported {bank : BankSel} {chan : ChanSel} {v : Volts} (hs : s.cfg.supported = false) :
    execV2c bank chan v s = withVolts v s fun _ => raise .unsupportedResolution s := by
  simp [execV2c, hs]

theorem execWritev_unsupported {bank : BankSel} {chan : ChanSel} {v : Volts} (hs : s.cfg.supported = false) :
    execWritev bank chan v s = withVolts v s fun _ => raise .unsupportedResolution s := by
  simp [execWritev, hs]

/-- Under an unsupported RES no instruction sees a code entry (R23). -/
theorem blind_exec (hs : s.cfg.supported = false) (i : Instr) : Blind (exec i) s := by
  by_cases hi : needsResolution i = true
  · exact (blind_raise _).of_eq fun u hu => exec_unsupported hi (hu ▸ hs)
  have operand : ∀ v, Blind (fun u => withVolts v u fun _ => raise .unsupportedResolution u) s :=
    blind_withVolts fun _ => blind_raise _
  cases i with
  | get | set | getgofs | getbounds | setbounds | c2v | encw | write | reset => exact absurd rfl hi
  | getref bank => exact blind_getref bank
  | setref bank v => exact blind_setref bank v
  | v2c bank chan v => exact (operand v).of_eq fun u hu => execV2c_unsupported (hu ▸ hs)
  | writev bank chan v => exact (operand v).of_eq fun u hu => execWritev_unsupported (hu ▸ hs)
  | encr rsel bank chan => exact blind_encr rsel bank chan
  | readreq rsel bank chan => exact blind_readreq rsel bank chan
  | load => exact blind_emit .loadPulse .unit
  | clear flag => exact blind_emit (.clear flag) .unit
  | _ => exact (blind_sendCommand _).of_eq fun u _ => exec_of_encode_cmdWord rfl u

/-- Settles O57: no instruction sees a code entry; the frame is the case where the other entries are the state's own. -/
theorem unsupportedResolutionHidesCodes : Obligations.UnsupportedResolutionHidesCodes := by
  intro s t i d o g lo hi go hs h
  have kept : exec i s = .next (t.withCodes s.codes) := blind_exec hs i t s.codes h
  exact ⟨Host.Outcome.next.inj (h.symm.trans kept), blind_exec hs i t ⟨d, o, g, lo, hi, go⟩ h⟩

end Sys2Proof.Machine

/-! ## Proofs of 20_memory.md: the bytes of a command word, one step, repeated requests -/

namespace Sys2Proof

/-- The number of a command word is that of its bytes, most significant first (R27). -/
theorem CmdWord.toNat_bytes (w : CmdWord) :
    w.toNat = ((w.extractLsb' 16 8).toNat * 256 + (w.extractLsb' 8 8).toNat) * 256 + (w.extractLsb' 0 8).toNat := by
  have hlt := w.isLt
  simp only [BitVec.extractLsb'_toNat, Nat.shiftRight_eq_div_pow]
  omega

/-- Put together again, the bytes of a command word are the word (R27). -/
theorem CmdWord.append_bytes (w : CmdWord) :
    w.extractLsb' 16 8 ++ (w.extractLsb' 8 8 ++ w.extractLsb' 0 8) = w := by
  apply BitVec.eq_of_toNat_eq
  rw [toNat_append_eq, toNat_append_eq, w.toNat_bytes]
  omega

theorem decodeBytes_bytes_append (w : CmdWord) (rest : List Byte) :
    decodeBytes (CmdWord.bytes w ++ rest) = (decodeCmdWord w).map (fun i => (i, rest)) := by
  simp only [CmdWord.bytes, List.cons_append, List.nil_append, decodeBytes, w.append_bytes]

/-- Settles O5: the bytes spell the word, and put together again they are the word. -/
theorem commandWordBytesMsbFirst : Obligations.CommandWordBytesMsbFirst :=
  fun w rest => ⟨⟨_, _, _, rfl, w.toNat_bytes⟩, decodeBytes_bytes_append w rest⟩

end Sys2Proof

namespace Sys2Proof.Machine

variable {s t : State}

/-! ### One step (R29, R105) -/

theorem step_nil (h : s.inputs = []) : step s = .next s := by
  rw [step, h]

theorem step_cons {inp : Input} {rest : List Input} (h : s.inputs = inp :: rest) :
    step s = stepInput inp { s with inputs := rest } := by
  rw [step, h]

theorem stepInput_ok {inp : Input} {i : Instr} (h : decode inp = .ok i) (s : State) : stepInput inp s = exec i s := by
  simp only [stepInput, h]

theorem stepInput_cmdWord_error {w : CmdWord} {e : DecodeError} (h : decodeCmdWord w = .error e) (s : State) :
    stepInput (.cmdWord w) s = .refused .notEmitted := by
  simp only [stepInput, decode, h]

/-- Settles O7: the two cases of `step`, and the two of `stepInput` that it speaks of. -/
theorem stepRunsDecodedInput : Obligations.StepRunsDecodedInput := by
  refine fun s => ⟨step_nil, fun inp rest i hin hi => ?_, fun w rest e hin he => ?_⟩
  · rw [step_cons hin, stepInput_ok hi]
  · rw [step_cons hin, stepInput_cmdWord_error he]

/-! ### Repeated requests (R30)

A request picks one way to end by looking at some part of the state: a reading request at everything but the fault mark
and the result port, SET, SETBOUNDS and SETREF at the configuration alone. It leaves that part as it was, so the same
request ends in the same way again; and each of these ways, taken twice, is taken once. -/

/-- Taken again from the state that it answers, the way to end answers that state. -/
def Repeats (e : State → Out) : Prop := ∀ s t, e s = .next t → e t = .next t

/-- On the states of `P` the meaning ends in one way, which may be repeated. -/
def EndsOneWay (f : State → Out) (P : State → Prop) : Prop := ∃ e, Repeats e ∧ ∀ u, P u → f u = e u

/-- A meaning that answers a state it ends alike in leaves that state as it is. -/
theorem EndsOneWay.again {f : State → Out} {P : State → Prop} (hf : EndsOneWay f P) (hs : P s) (ht : P t)
    (h : f s = .next t) : f t = .next t := by
  obtain ⟨e, he, hfe⟩ := hf
  rw [hfe t ht]
  exact he s t ((hfe s hs).symm.trans h)

theorem repeats_refused (x : Refusal) : Repeats fun _ => .refused x := by
  rintro s t ⟨⟩

theorem repeats_raise (e : ErrKind) : Repeats (raise e) := by
  rintro s t ⟨⟩
  rfl

theorem repeats_numericDomain : Repeats numericDomain := by
  rintro s t ⟨⟩
  rfl

/-- An update that changes nothing the second time, with its result. -/
theorem repeats_ok_update {g : State → State} (v : Value) (hg : ∀ s r, g ((g s).finish r) = (g s).finish r) :
    Repeats fun u => ok v (g u) := by
  rintro s t ⟨⟩
  change ok v (g ((g s).finish (.ok v))) = _
  rw [hg]
  rfl

theorem repeats_ok (v : Value) : Repeats (ok v) := repeats_ok_update (g := id) v fun _ _ => rfl

/-! #### The reading requests -/

/-- The state with another fault mark and result port. -/
def State.withPorts (s : State) (f : Option Fault) (r : Option Result) : State := { s with fault := f, result := r }

@[simp] theorem State.withPorts_cfg (f : Option Fault) (r : Option Result) : (s.withPorts f r).cfg = s.cfg := rfl
@[simp] theorem State.withPorts_store (f : Option Fault) (r : Option Result) (k : RegKind) :
    (s.withPorts f r).store k = s.store k := by
  cases k <;> rfl
@[simp] theorem State.withPorts_min (f : Option Fault) (r : Option Result) : (s.withPorts f r).min = s.min := rfl
@[simp] theorem State.withPorts_max (f : Option Fault) (r : Option Result) : (s.withPorts f r).max = s.max := rfl
@[simp] theorem State.withPorts_gofs (f : Option Fault) (r : Option Result) : (s.withPorts f r).gofs = s.gofs := rfl
@[simp] theorem State.withPorts_vref (f : Option Fault) (r : Option Result) : (s.withPorts f r).vref = s.vref := rfl
@[simp] theorem State.withPorts_v2c (f : Option Fault) (r : Option Result) : (s.withPorts f r).v2c = s.v2c := rfl
@[simp] theorem State.withPorts_c2v (f : Option Fault) (r : Option Result) : (s.withPorts f r).c2v = s.c2v := rfl
@[simp] theorem encodeWrite_withPorts (f : Option Fault) (r : Option Result) :
    encodeWrite (s.withPorts f r) = encodeWrite s := rfl

/-- The states that differ from `s` in the fault mark and the result port at most. -/
def AlikeButPorts (s u : State) : Prop := ∃ f r, u = s.withPorts f r

theorem alikeButPorts_refl (s : State) : AlikeButPorts s s := ⟨s.fault, s.result, rfl⟩

theorem endsOneWay_of_withPorts {f e : State → Out} (he : Repeats e)
    (h : ∀ m r, f (s.withPorts m r) = e (s.withPorts m r)) : EndsOneWay f (AlikeButPorts s) := by
  refine ⟨e, he, ?_⟩
  rintro _ ⟨m, r, rfl⟩
  exact h m r

theorem endsOneWay_get (reg : RegSel) (bank : BankSel) (chan : ChanSel) :
    EndsOneWay (execGet reg bank chan) (AlikeButPorts s) := by
  cases hs : s.cfg.supported with
  | false => exact endsOneWay_of_withPorts (repeats_raise .unsupportedResolution) fun m r => by simp [execGet, hs]
  | true =>
    cases hk : reg.kind with
    | none => exact endsOneWay_of_withPorts (repeats_raise .invalidRegisterSelector) fun m r => by simp [execGet, hs, hk]
    | some k =>
      cases hc : classify s.cfg bank chan with
      | concrete b c =>
        exact endsOneWay_of_withPorts (repeats_ok (.code ((s.store k).at b c))) fun m r => by simp [execGet, hs, hk, hc]
      | _ => exact endsOneWay_of_withPorts (repeats_raise .invalidAddress) fun m r => by simp [execGet, hs, hk, hc]

theorem endsOneWay_getgofs (bank : BankSel) : EndsOneWay (execGetgofs bank) (AlikeButPorts s) := by
  cases hs : s.cfg.supported with
  | false => exact endsOneWay_of_withPorts (repeats_raise .unsupportedResolution) fun m r => by simp [execGetgofs, hs]
  | true =>
    cases hb : bank.single with
    | none => exact endsOneWay_of_withPorts (repeats_raise .invalidAddress) fun m r => by simp [execGetgofs, hs, hb]
    | some b =>
      exact endsOneWay_of_withPorts (repeats_ok (.gofs (s.gofs.read b))) fun m r => by simp [execGetgofs, hs, hb]

theorem endsOneWay_getbounds (bank : BankSel) (chan : ChanSel) :
    EndsOneWay (execGetbounds bank chan) (AlikeButPorts s) := by
  cases hs : s.cfg.supported with
  | false => exact endsOneWay_of_withPorts (repeats_raise .unsupportedResolution) fun m r => by simp [execGetbounds, hs]
  | true =>
    cases hc : classify s.cfg bank chan with
    | concrete b c =>
      exact endsOneWay_of_withPorts (repeats_ok (.bounds (s.min.at b c) (s.max.at b c))) fun m r => by
        simp [execGetbounds, hs, hc]
    | _ => exact endsOneWay_of_withPorts (repeats_raise .invalidAddress) fun m r => by simp [execGetbounds, hs, hc]

theorem endsOneWay_getref (bank : BankSel) : EndsOneWay (execGetref bank) (AlikeButPorts s) := by
  cases hb : bank.single with
  | none => exact endsOneWay_of_withPorts (repeats_raise .invalidAddress) fun m r => by simp [execGetref, hb]
  | some b => exact endsOneWay_of_withPorts (repeats_ok (.num (s.vref.read b))) fun m r => by simp [execGetref, hb]

theorem endsOneWay_v2c (bank : BankSel) (chan : ChanSel) (v : Volts) :
    EndsOneWay (execV2c bank chan v) (AlikeButPorts s) := by
  cases ha : s.cfg.fmt.accept v with
  | none =>
    exact endsOneWay_of_withPorts (repeats_refused .operandNotNum) fun m r => by simp [execV2c, withVolts, ha]
  | some v' =>
    cases hs : s.cfg.supported with
    | false =>
      exact endsOneWay_of_withPorts (repeats_raise .unsupportedResolution) fun m r => by
        simp [execV2c, withVolts, ha, hs]
    | true =>
      cases hc : classify s.cfg bank chan with
      | concrete b c =>
        cases hn : s.v2c b c v' with
        | none =>
          exact endsOneWay_of_withPorts repeats_numericDomain fun m r => by simp [execV2c, withVolts, ha, hs, hc, hn]
        | some n =>
          exact endsOneWay_of_withPorts (repeats_ok (.code n)) fun m r => by simp [execV2c, withVolts, ha, hs, hc, hn]
      | _ =>
        exact endsOneWay_of_withPorts (repeats_raise .invalidAddress) fun m r => by
          simp [execV2c, withVolts, ha, hs, hc]

theorem endsOneWay_c2v (bank : BankSel) (chan : ChanSel) (d0 : Code) :
    EndsOneWay (execC2v bank chan d0) (AlikeButPorts s) := by
  cases hs : s.cfg.supported with
  | false => exact endsOneWay_of_withPorts (repeats_raise .unsupportedResolution) fun m r => by simp [execC2v, hs]
  | true =>
    cases hc : classify s.cfg bank chan with
    | concrete b c =>
      cases hn : s.c2v b c d0 with
      | nan => exact endsOneWay_of_withPorts repeats_numericDomain fun m r => by simp [execC2v, hs, hc, hn]
      | _ => exact endsOneWay_of_withPorts (repeats_ok (.num (s.c2v b c d0))) fun m r => by simp [execC2v, hs, hc, hn]
    | _ => exact endsOneWay_of_withPorts (repeats_raise .invalidAddress) fun m r => by simp [execC2v, hs, hc]

theorem endsOneWay_encw (reg : RegSel) (bank : BankSel) (chan : ChanSel) (d0 : Code) :
    EndsOneWay (execEncw reg bank chan d0) (AlikeButPorts s) := by
  cases he : encodeWrite s reg bank chan d0 with
  | ok e => exact endsOneWay_of_withPorts (repeats_ok (.word e.word)) fun m r => by simp [execEncw, he]
  | error e => exact endsOneWay_of_withPorts (repeats_raise e) fun m r => by simp [execEncw, he]

theorem endsOneWay_encr (rsel : ReadName) (bank : BankSel) (chan : ChanSel) :
    EndsOneWay (execEncr rsel bank chan) (AlikeButPorts s) := by
  cases he : encodeRead s.cfg rsel bank chan with
  | ok w => exact endsOneWay_of_withPorts (repeats_ok (.word w)) fun m r => by simp [execEncr, he]
  | error e => exact endsOneWay_of_withPorts (repeats_raise e) fun m r => by simp [execEncr, he]

/-- A reading request does not see the fault mark and the result port. -/
theorem endsOneWay_readsOnly {i : Instr} (hi : i.readsOnly = true) : EndsOneWay (exec i) (AlikeButPorts s) := by
  cases i with
  | get reg bank chan => exact endsOneWay_get reg bank chan
  | getgofs bank => exact endsOneWay_getgofs bank
  | getbounds bank chan => exact endsOneWay_getbounds bank chan
  | getref bank => exact endsOneWay_getref bank
  | v2c bank chan v => exact endsOneWay_v2c bank chan v
  | c2v bank chan d0 => exact endsOneWay_c2v bank chan d0
  | encw reg bank chan d0 => exact endsOneWay_encw reg bank chan d0
  | encr rsel bank chan => exact endsOneWay_encr rsel bank chan
  | _ => cases hi

/-! #### SET, SETBOUNDS and SETREF -/

theorem State.storeAll_again (s : State) (k : RegKind) (cls : AddrClass) (v : Code) (r : Result) :
    ((s.storeAll k cls v).finish r).storeAll k cls v = (s.storeAll k cls v).finish r := by
  have stored : (s.storeAll k cls v).storeAll k cls v = s.storeAll k cls v := by
    simp [State.storeAll, Table.fill_fill]
  have finished : ∀ u : State, (u.finish r).storeAll k cls v = (u.storeAll k cls v).finish r := by
    intro u
    cases k <;> rfl
  rw [finished, stored]

theorem State.setBounds_again (s : State) (b : Bank) (c : Chan) (lo hi : Code) (r : Result) :
    ((s.setBounds b c lo hi).finish r).setBounds b c lo hi = (s.setBounds b c lo hi).finish r := by
  simp [State.setBounds, State.finish, Table.put_put]

theorem State.setVref_again (s : State) (b : Bank) (v : Volts) (r : Result) :
    ((s.setVref b v).finish r).setVref b v = (s.setVref b v).finish r := by
  simp [State.setVref, State.finish]

theorem repeats_storeAll (k : RegKind) (cls : AddrClass) (v : Code) : Repeats fun u => ok .unit (u.storeAll k cls v) :=
  repeats_ok_update .unit fun s r => s.storeAll_again k cls v r

theorem repeats_setBounds (b : Bank) (c : Chan) (lo hi : Code) : Repeats fun u => ok .unit (u.setBounds b c lo hi) :=
  repeats_ok_update .unit fun s r => s.setBounds_again b c lo hi r

theorem repeats_setVref (b : Bank) (v : Volts) : Repeats fun u => ok .unit (u.setVref b v) :=
  repeats_ok_update .unit fun s r => s.setVref_again b v r

theorem endsOneWay_set (cfg : Cfg) (reg : RegSel) (bank : BankSel) (chan : ChanSel) (d0 : Code) :
    EndsOneWay (execSet reg bank chan d0) (·.cfg = cfg) := by
  cases hs : cfg.supported with
  | false => exact ⟨_, repeats_raise .unsupportedResolution, fun u hu => by simp [execSet, hu, hs]⟩
  | true =>
    cases hk : reg.kind with
    | none => exact ⟨_, repeats_raise .invalidRegisterSelector, fun u hu => by simp [execSet, hu, hs, hk]⟩
    | some k =>
      cases hc : classify cfg bank chan with
      | invalid => exact ⟨_, repeats_raise .invalidAddress, fun u hu => by simp [execSet, hu, hs, hk, hc]⟩
      | _ =>
        exact ⟨_, repeats_storeAll k (classify cfg bank chan) (cfg.mask d0), fun u hu => by
          simp [execSet, hu, hs, hk, hc]⟩

theorem endsOneWay_setbounds (cfg : Cfg) (bank : BankSel) (chan : ChanSel) (d0 d1 : Code) :
    EndsOneWay (execSetbounds bank chan d0 d1) (·.cfg = cfg) := by
  cases hs : cfg.supported with
  | false => exact ⟨_, repeats_raise .unsupportedResolution, fun u hu => by simp [execSetbounds, hu, hs]⟩
  | true =>
    cases hc : classify cfg bank chan with
    | concrete b c =>
      exact ⟨_, repeats_setBounds b c (cfg.mask d0) (cfg.mask d1), fun u hu => by
        simp [execSetbounds, hu, hs, hc]⟩
    | _ => exact ⟨_, repeats_raise .invalidAddress, fun u hu => by simp [execSetbounds, hu, hs, hc]⟩

theorem endsOneWay_setref (cfg : Cfg) (bank : BankSel) (v : Volts) :
    EndsOneWay (execSetref bank v) (·.cfg = cfg) := by
  cases ha : cfg.fmt.accept v with
  | none => exact ⟨_, repeats_refused .operandNotNum, fun u hu => by simp [execSetref, withVolts, hu, ha]⟩
  | some v' =>
    cases hb : bank.single with
    | none => exact ⟨_, repeats_raise .invalidAddress, fun u hu => by simp [execSetref, withVolts, hu, ha, hb]⟩
    | some b =>
      exact ⟨_, repeats_setVref b v', fun u hu => by simp [execSetref, withVolts, hu, ha, hb]⟩

/-- Settles O50: a reading request leaves all but the ports, which it does not see, and the three writing ones leave the
configuration, which is all they see. -/
theorem repeatedRequestsAreIdempotent : Obligations.RepeatedRequestsAreIdempotent := by
  intro s t i hi h
  have keptCfg : t.cfg = s.cfg := (exec_effect h).cfg_eq
  rcases hi with hr | ⟨reg, bank, chan, d0, rfl⟩ | ⟨bank, chan, d0, d1, rfl⟩ | ⟨bank, v, rfl⟩
  · obtain ⟨keptStore, -⟩ := readsChangeNothing s t i hr h
    exact (endsOneWay_readsOnly hr).again (alikeButPorts_refl s) ⟨_, _, keptStore⟩ h
  · exact (endsOneWay_set s.cfg reg bank chan d0).again rfl keptCfg h
  · exact (endsOneWay_setbounds s.cfg bank chan d0 d1).again rfl keptCfg h
  · exact (endsOneWay_setref s.cfg bank v).again rfl keptCfg h

end Sys2Proof.Machine

/-! ## Proofs of 30_encoding.md: decoding and encoding, the words of the requests and of the table's forms, refusals -/

namespace Sys2Proof

/-! ### The decoder and the encoder (R33, R34, R42 to R46) -/

/-- A request's encoding decodes to the request: its row's fields stand in the header, and its row reads no others. -/
theorem decode_encode_request {i : Instr} (hi : i.isRequest = true) : decode (encode i) = .ok i := by
  cases i with
  | clear flag => cases flag <;> rw [encode, decode_requestOf] <;> rfl
  | get | set | getgofs | getbounds | setbounds | getref | setref | v2c | c2v | encw | encr | write | writev
  | readreq | load | reset =>
    rw [encode, decode_requestOf]
    simp [decodeFields, headerReg, headerAddr, headerRead, headerOf]
  | _ => cases hi

/-- A command-word form's encoding decodes to the form: the pieces cut from the word are those put into it. -/
theorem decode_encode_cmdWord {i : Instr} (hi : i.isRequest = false) : decode (encode i) = .ok i := by
  cases i with
  | get | set | getgofs | getbounds | setbounds | getref | setref | v2c | c2v | encw | encr | write | writev
  | readreq | load | clear | reset => cases hi
  | cwReadSel g a =>
    have hpieces := cmdWord_pieces 0 0 5 (g ++ (a ++ (0 : BitVec 7)))
    rw [← append_group_ccc 0 0 5 _ (a := 5) rfl] at hpieces
    simp only [encode, decode, decodeCmdWord, hpieces, readWord_pieces]
    rfl
  | _ =>
    simp only [encode, cmdWordCh, decode, decodeCmdWord, cmdWord_pieces]
    rfl

/-- Settles O1: an instruction is a request or a command-word form. -/
theorem decodeEncodeAgree : Obligations.DecodeEncodeAgree := by
  intro i
  cases hi : i.isRequest with
  | true => exact decode_encode_request hi
  | false => exact decode_encode_cmdWord hi

/-- Settles O2: each row that the decoder can answer fixes MODE and ADDR, and takes the other bits as operands. -/
theorem commandWordsHaveOneSpelling : Obligations.CommandWordsHaveOneSpelling := by
  intro w i h
  unfold decodeCmdWord at h
  dsimp only at h
  split at h
  case h_16 hmode hgroup hccc =>
    split at h
    case isTrue hlow => cases h; exact congrArg Input.cmdWord (readWord_of_pieces hmode hgroup hccc hlow)
    case isFalse => cases h
  case h_17 => cases h
  case h_1 hmode hgroup | h_2 hmode hgroup | h_6 hmode hgroup | h_7 hmode hgroup | h_11 hmode hgroup
    | h_12 hmode hgroup =>
    cases h
    exact cmdWordCh_of_pieces (BitVec.eq_of_toNat_eq hmode) (BitVec.eq_of_toNat_eq hgroup) rfl rfl
  all_goals
    rename_i hmode hgroup hccc
    cases h
    exact cmdWordCh_of_pieces (BitVec.eq_of_toNat_eq hmode) (BitVec.eq_of_toNat_eq hgroup)
      (BitVec.eq_of_toNat_eq hccc) rfl

/-- Fields that agree where the operation's row lists them decode alike (R34). In the case of each row the number of
`op` is known, and with it which of the premises apply. -/
theorem decodeFields_congr {f f' : HeaderFields} (d0 d1 : Code) (v : Volts) (hop : f.op = f'.op)
    (hreserved : f.reserved = f'.reserved)
    (hreg : f.op.toNat ∈ [0x01, 0x02, 0x0A, 0x0C] → f.reg = f'.reg)
    (hbank : f.op.toNat ∈ [0x01, 0x02, 0x03, 0x04, 0x05, 0x06, 0x07, 0x08, 0x09, 0x0A, 0x0B, 0x0C, 0x0D, 0x0E] →
      f.bank = f'.bank)
    (hchan : f.op.toNat ∈ [0x01, 0x02, 0x04, 0x05, 0x08, 0x09, 0x0A, 0x0B, 0x0C, 0x0D, 0x0E] → f.chan = f'.chan)
    (hrsel : f.op.toNat ∈ [0x0B, 0x0E] → f.rsel = f'.rsel) (hflag : f.op.toNat = 0x10 → f.flag = f'.flag) :
    decodeFields f d0 d1 v = decodeFields f' d0 d1 v := by
  unfold decodeFields
  rw [← hop, ← hreserved]
  dsimp only
  split
  · split <;> simp_all
  · rfl

/-- Settles O3: the decoder sees a header through its fields. -/
theorem unlistedHeaderFieldsAreIgnored : Obligations.UnlistedHeaderFieldsAreIgnored :=
  fun _ _ d0 d1 v hop hreserved hreg hbank hchan hrsel hflag =>
    decodeFields_congr d0 d1 v hop hreserved hreg hbank hchan hrsel hflag

/-- Settles O4, by running the decoder. -/
theorem sampleWordsDecode : Obligations.SampleWordsDecode :=
  ⟨fun _ _ _ => ⟨rfl, rfl, rfl, rfl, rfl, rfl, rfl⟩, rfl, rfl, rfl⟩

/-! ### Emitted words and well-formed command-word forms (R44, R45, R48) -/

theorem emits_of_not_neverEmitted {cfg : Cfg} {w : CmdWord} (h : ¬ NeverEmitted cfg w) : cfg.emits w = true := by
  rwa [← emits_eq_false, Bool.not_eq_false] at h

/-- An emitted write word has a payload the configuration can produce, and names a channel it has, if it names one. -/
theorem payloadOk_channelOk_of_emits {cfg : Cfg} {m : BitVec 2} {g c : BitVec 3} {p : BitVec 16} {w : CmdWord}
    (h : cmdWordCh m g c p = .cmdWord w) (hm : m.toNat ≠ 0) (he : cfg.emits w = true) :
    cfg.payloadOk p = true ∧ (g.toNat = 1 ∨ g.toNat = 2 → cfg.channelOk c = true) := by
  cases h
  have hg := g.isLt
  have hc := c.isLt
  have hp := p.isLt
  have hnch := cfg.nch_le
  rw [emits_iff, toNat_mode_group_ccc_payload] at he
  rw [payloadOk_iff, Cfg.channelOk, decide_eq_true_eq]
  rcases he with ⟨hmode, -⟩ | ⟨-, hs, haddr, hlow⟩
  · omega
  · refine ⟨⟨hs, fun h14 => ?_⟩, fun hgroup => ?_⟩
    · have hlow4 := hlow h14
      omega
    · omega

/-- A command-word form whose word is emitted is well formed: the converse of `emits_of_wf`. -/
theorem wf_of_emits {cfg : Cfg} {i : Instr} {w : CmdWord} (h : encode i = .cmdWord w) (he : cfg.emits w = true) :
    i.wf cfg = true := by
  cases i with
  | get | set | getgofs | getbounds | setbounds | getref | setref | v2c | c2v | encw | encr | write | writev
  | readreq | load | clear | reset => cases h
  | cwReadSel g a => rfl
  | cwWrDacB0Ch | cwWrDacB1Ch | cwWrOffsetB0Ch | cwWrOffsetB1Ch | cwWrGainB0Ch | cwWrGainB1Ch =>
    obtain ⟨hpayload, hchannel⟩ := payloadOk_channelOk_of_emits h (by decide) he
    exact Bool.and_eq_true_iff.mpr ⟨hchannel (by decide), hpayload⟩
  | _ => exact (payloadOk_channelOk_of_emits h (by decide) he).1

/-- An emitted word is the encoding of a well-formed form of the table (R48). -/
theorem decodeCmdWord_of_emits {cfg : Cfg} {w : CmdWord} (h : cfg.emits w = true) :
    ∃ i, decodeCmdWord w = .ok i ∧ encode i = .cmdWord w ∧ i.wf cfg = true := by
  cases hdec : decodeCmdWord w with
  | ok i =>
    have henc := commandWordsHaveOneSpelling w i hdec
    exact ⟨i, rfl, henc, wf_of_emits henc h⟩
  | error e =>
    rw [(emits_eq_false cfg w).mpr (neverEmitted_of_decode_error cfg hdec)] at h
    cases h

end Sys2Proof

namespace Sys2Proof.Machine

variable {s t : State}

/-! ### The words that ENCW, ENCR and READREQ give (R70 to R80) -/

/-- Settles O26: ENCW answers the word of `encw`. -/
theorem encwReturnsWriteWord : Obligations.EncwReturnsWriteWord := by
  intro s reg k bank chan d0 hs hk hv hg
  obtain ⟨e, he, -, -, -, hword⟩ := encodeWrite_ok hs hk hv hg
  refine ⟨e.word, hword, ?_⟩
  rw [exec, execEncw, he]
  rfl

/-- What ENCR and READREQ answer where `encr` frames the field `f` (R77, R80). -/
theorem exec_encr_readreq_of_ok {rsel : ReadName} {bank : BankSel} {chan : ChanSel} {f : BitVec 16}
    (h : encodeRead s.cfg rsel bank chan = .ok (readWord f)) :
    ∃ w : CmdWord, w.toNat = 5 * 2 ^ 16 + f.toNat ∧
      exec (.encr rsel bank chan) s = .next { s with result := some (.ok (.word w)) } ∧
      exec (.readreq rsel bank chan) s =
        .next { s with events := s.events ++ [.cmd w], result := some (.ok (.word w)) } := by
  refine ⟨readWord f, readWord_toNat f, ?_, ?_⟩
  · rw [exec, execEncr, h]
    rfl
  · rw [exec, execReadreq, h]
    rfl

/-- Settles O31: each name is a per-channel or a device name of the table. -/
theorem readbackRequestWords : Obligations.ReadbackRequestWords := by
  refine fun s bank chan => ⟨fun b c hc p hp => ?_, fun p hp => ?_⟩ <;>
    simp only [List.mem_cons, List.not_mem_nil, or_false] at hp
  · rcases hp with rfl | rfl | rfl | rfl <;> exact exec_encr_readreq_of_ok (encodeRead_channel rfl hc)
  · rcases hp with rfl | rfl | rfl | rfl | rfl | rfl <;>
      exact exec_encr_readreq_of_ok (encodeRead_device rfl bank chan)

theorem encodeRead_unrecognised (cfg : Cfg) (n : Fin 6) (bank : BankSel) (chan : ChanSel) :
    encodeRead cfg (.unrecognised n) bank chan = .error .invalidRegisterSelector := rfl

/-- ENCR and READREQ raise the error of `encr` (R77, R80). -/
theorem exec_encr_readreq_of_error {rsel : ReadName} {bank : BankSel} {chan : ChanSel} {e : ErrKind} {i : Instr}
    (hi : i ∈ [.encr rsel bank chan, .readreq rsel bank chan]) (h : encodeRead s.cfg rsel bank chan = .error e) :
    exec i s = .next { s with result := some (.err e) } := by
  simp only [List.mem_cons, List.not_mem_nil, or_false] at hi
  rcases hi with rfl | rfl
  · rw [exec, execEncr, h]
    rfl
  · rw [exec, execReadreq, h]
    rfl

/-- Settles O32: the two errors of `encr`. -/
theorem readbackRequestErrors : Obligations.ReadbackRequestErrors := by
  refine fun s rsel bank chan i hi => ⟨fun n hn => ?_, fun hname hc => ?_⟩
  · subst hn
    exact exec_encr_readreq_of_error hi (encodeRead_unrecognised s.cfg n bank chan)
  · simp only [List.mem_cons, List.not_mem_nil, or_false] at hname
    rcases hname with rfl | rfl | rfl | rfl <;> exact exec_encr_readreq_of_error hi (encodeRead_invalid rfl hc)

/-! ### The command-word forms (R42 to R46, R48, entries 7 and 8) -/

theorem sendCommand_emitted {w : CmdWord} (h : s.cfg.emits w = true) : sendCommand w s = .next (s.emit (.cmd w)) :=
  if_pos h

theorem sendCommand_neverEmitted {w : CmdWord} (h : NeverEmitted s.cfg w) : sendCommand w s = .refused .notEmitted :=
  if_neg (Bool.eq_false_iff.mp ((emits_eq_false _ _).mpr h))

/-- Settles O40: a form runs as the hand-over of its word, which is refused where the word is never emitted. -/
theorem unemittableWordsAreRefused : Obligations.UnemittableWordsAreRefused := by
  intro s i w hi
  rw [exec_of_encode_cmdWord hi]
  exact ⟨sendCommand_neverEmitted, fun h => sendCommand_emitted (emits_of_not_neverEmitted h)⟩

/-- A well-formed form hands over its word, here given by its number. -/
theorem exec_handsOver_of_wf {i : Instr} {w : CmdWord} {n : Nat} (hi : encode i = .cmdWord w)
    (hwf : i.wf s.cfg = true) (hn : w.toNat = n) :
    ∃ w : CmdWord, w.toNat = n ∧ exec i s = .next { s with events := s.events ++ [.cmd w] } := by
  refine ⟨w, hn, ?_⟩
  rw [exec_of_encode_cmdWord hi]
  exact sendCommand_emitted (emits_of_wf hi hwf)

/-- Settles O39: the premises say that the form is well formed, and the word's pieces give its number. -/
theorem commandWordsAreHandedOver : Obligations.CommandWordsAreHandedOver := by
  intro s ccc g payload a
  refine ⟨fun hs hlow hc p hp => ?_, fun hs hlow p hp => ?_, ?_⟩
  · have hwf : (s.cfg.channelOk ccc && s.cfg.payloadOk payload) = true :=
      Bool.and_eq_true_iff.mpr ⟨decide_eq_true hc, payloadOk_iff.mpr ⟨hs, hlow⟩⟩
    simp only [List.mem_cons, List.not_mem_nil, or_false] at hp
    rcases hp with rfl | rfl | rfl | rfl | rfl | rfl <;>
      exact exec_handsOver_of_wf rfl hwf (toNat_mode_group_ccc_payload _ _ _ _)
  · have hwf : s.cfg.payloadOk payload = true := payloadOk_iff.mpr ⟨hs, hlow⟩
    simp only [List.mem_cons, List.not_mem_nil, or_false] at hp
    rcases hp with rfl | rfl | rfl | rfl | rfl | rfl | rfl | rfl | rfl <;>
      exact exec_handsOver_of_wf rfl hwf (toNat_mode_group_ccc_payload _ _ _ _)
  · refine exec_handsOver_of_wf (w := readWord (readSelField g a)) rfl rfl ?_
    rw [readWord_toNat, readSelField_toNat]
    omega

/-! ### WRITE as SET and a command word (R54, R78) -/

/-- A WRITE that returns a word has stored and emitted what `encw` yields (R78). -/
theorem execWrite_word {reg : RegSel} {bank : BankSel} {chan : ChanSel} {d0 : Code} {w : CmdWord}
    (h : execWrite reg bank chan d0 s = .next t) (hw : t.result = some (.ok (.word w))) :
    ∃ e, encodeWrite s reg bank chan d0 = .ok e ∧ e.word = w ∧ t = (s.commitWrite e).finish (.ok (.word w)) := by
  unfold execWrite at h
  split at h
  next e he =>
    obtain rfl := ok_next.mp h
    cases hw
    exact ⟨e, he, rfl, rfl⟩
  next e he =>
    obtain rfl := raise_next.mp h
    cases hw

/-- Where `encw` succeeds, SET stores its masked value in its targets (R54, R73). -/
theorem execSet_of_encodeWrite {reg : RegSel} {bank : BankSel} {chan : ChanSel} {d0 : Code} {e : WriteWord}
    (h : encodeWrite s reg bank chan d0 = .ok e) :
    execSet reg bank chan d0 s = ok .unit (s.storeAll e.kind e.cls e.value) := by
  obtain ⟨hs, hk, hcls, hv, -, hval, -⟩ := encodeWrite_inv h
  simp only [execSet, hs, if_true, hk, hcls, hval]
  split
  next hinvalid => exact absurd hv (classify_eq_invalid.mp hinvalid)
  next => rfl

/-- Settles O41: the word `encw` yields is emitted, so it is a well-formed form's, which hands it over after the SET. -/
theorem writeIsSetThenCommandWord : Obligations.WriteIsSetThenCommandWord := by
  intro s t reg bank chan d0 w h hw
  obtain ⟨e, he, rfl, rfl⟩ := execWrite_word h hw
  have hemits := emits_encodeWrite he
  obtain ⟨i, hdec, henc, hwf⟩ := decodeCmdWord_of_emits hemits
  refine ⟨i, (s.storeAll e.kind e.cls e.value).finish (.ok .unit), hdec, hwf, execSet_of_encodeWrite he, ?_⟩
  rw [exec_of_encode_cmdWord henc, sendCommand_emitted (by rwa [State.finish_cfg, State.storeAll_cfg])]
  rfl

/-! ### Which steps are refused (R48, R86, R87, R91) -/

theorem answers_of_finishes {o : Out} (h : ∃ r, o = .next (s.finish r)) : ∃ t, o = .next t :=
  let ⟨_, hr⟩ := h
  ⟨_, hr⟩

theorem execSet_answers (reg : RegSel) (bank : BankSel) (chan : ChanSel) (d0 : Code) (s : State) :
    ∃ t, execSet reg bank chan d0 s = .next t := by
  unfold execSet
  split
  · split
    · exact ⟨_, rfl⟩
    · split <;> exact ⟨_, rfl⟩
  · exact ⟨_, rfl⟩

theorem execSetbounds_answers (bank : BankSel) (chan : ChanSel) (d0 d1 : Code) (s : State) :
    ∃ t, execSetbounds bank chan d0 d1 s = .next t := by
  unfold execSetbounds
  split
  · split <;> exact ⟨_, rfl⟩
  · exact ⟨_, rfl⟩

theorem execC2v_answers (bank : BankSel) (chan : ChanSel) (d0 : Code) (s : State) :
    ∃ t, execC2v bank chan d0 s = .next t := by
  unfold execC2v
  split
  · split
    · split <;> exact ⟨_, rfl⟩
    · exact ⟨_, rfl⟩
  · exact ⟨_, rfl⟩

theorem execWrite_answers (reg : RegSel) (bank : BankSel) (chan : ChanSel) (d0 : Code) (s : State) :
    ∃ t, execWrite reg bank chan d0 s = .next t := by
  unfold execWrite
  split <;> exact ⟨_, rfl⟩

theorem execReadreq_answers (rsel : ReadName) (bank : BankSel) (chan : ChanSel) (s : State) :
    ∃ t, execReadreq rsel bank chan s = .next t := by
  unfold execReadreq
  split <;> exact ⟨_, rfl⟩

theorem execReset_answers (s : State) : ∃ t, execReset s = .next t := by
  unfold execReset
  split <;> exact ⟨_, rfl⟩

theorem execSetref_answers {v v' : Volts} (ha : s.cfg.fmt.accept v = some v') (bank : BankSel) :
    ∃ t, execSetref bank v s = .next t := by
  rw [execSetref, withVolts_some ha]
  split <;> exact ⟨_, rfl⟩

theorem execV2c_answers {v v' : Volts} (ha : s.cfg.fmt.accept v = some v') (bank : BankSel) (chan : ChanSel) :
    ∃ t, execV2c bank chan v s = .next t := by
  rw [execV2c, withVolts_some ha]
  split
  · split
    · split <;> exact ⟨_, rfl⟩
    · exact ⟨_, rfl⟩
  · exact ⟨_, rfl⟩

theorem execWritev_answers {v v' : Volts} (ha : s.cfg.fmt.accept v = some v') (bank : BankSel) (chan : ChanSel) :
    ∃ t, execWritev bank chan v s = .next t := by
  rw [execWritev, withVolts_some ha]
  split
  · split
    · split
      · exact ⟨_, rfl⟩
      · split <;> exact ⟨_, rfl⟩
    · exact ⟨_, rfl⟩
  · exact ⟨_, rfl⟩

/-- The instruction is one of the three requests that take a voltage, with the operand V = `v` (R34, R40). -/
def TakesVolts (i : Instr) (v : Volts) : Prop :=
  (∃ bank, i = .setref bank v) ∨ (∃ bank chan, i = .v2c bank chan v) ∨ ∃ bank chan, i = .writev bank chan v

theorem exec_takesVolts_some {i : Instr} {v v' : Volts} (hi : TakesVolts i v) (ha : s.cfg.fmt.accept v = some v') :
    ∃ t, exec i s = .next t := by
  rcases hi with ⟨bank, rfl⟩ | ⟨bank, chan, rfl⟩ | ⟨bank, chan, rfl⟩
  · exact execSetref_answers ha bank
  · exact execV2c_answers ha bank chan
  · exact execWritev_answers ha bank chan

theorem exec_takesVolts_none {i : Instr} {v : Volts} (hi : TakesVolts i v) (ha : s.cfg.fmt.accept v = none) :
    exec i s = .refused .operandNotNum := by
  rcases hi with ⟨bank, rfl⟩ | ⟨bank, chan, rfl⟩ | ⟨bank, chan, rfl⟩ <;> exact withVolts_none ha _

/-- A request that takes no voltage answers a next state (R85, R91). -/
theorem exec_answers_of_no_volts {i : Instr} (hi : i.isRequest = true) (hv : ∀ v, ¬ TakesVolts i v) (s : State) :
    ∃ t, exec i s = .next t := by
  cases i with
  | get reg bank chan => exact answers_of_finishes (execGet_finishes reg bank chan s)
  | set reg bank chan d0 => exact execSet_answers reg bank chan d0 s
  | getgofs bank => exact answers_of_finishes (execGetgofs_finishes bank s)
  | getbounds bank chan => exact answers_of_finishes (execGetbounds_finishes bank chan s)
  | setbounds bank chan d0 d1 => exact execSetbounds_answers bank chan d0 d1 s
  | getref bank => exact answers_of_finishes (execGetref_finishes bank s)
  | setref bank v => exact absurd (.inl ⟨bank, rfl⟩) (hv v)
  | v2c bank chan v => exact absurd (.inr (.inl ⟨bank, chan, rfl⟩)) (hv v)
  | c2v bank chan d0 => exact execC2v_answers bank chan d0 s
  | encw reg bank chan d0 => exact answers_of_finishes (execEncw_finishes reg bank chan d0 s)
  | encr rsel bank chan => exact answers_of_finishes (execEncr_finishes rsel bank chan s)
  | write reg bank chan d0 => exact execWrite_answers reg bank chan d0 s
  | writev bank chan v => exact absurd (.inr (.inr ⟨bank, chan, rfl⟩)) (hv v)
  | readreq rsel bank chan => exact execReadreq_answers rsel bank chan s
  | load => exact ⟨_, rfl⟩
  | clear flag => exact ⟨_, rfl⟩
  | reset => exact execReset_answers s
  | _ => cases hi

/-- What a header decodes to is a request, and the voltage it takes, if any, is the port's (R34, R40). -/
theorem decodeRequest_ok {h : Header} {d0 d1 : Code} {v : Volts} {i : Instr} (hdec : decodeRequest h d0 d1 v = .ok i) :
    i.isRequest = true ∧ ∀ u, TakesVolts i u → u = v := by
  unfold decodeRequest decodeFields at hdec
  dsimp only at hdec
  split at hdec
  · split at hdec <;> cases hdec <;> simp [TakesVolts, Instr.isRequest, encode, requestOf]
  · cases hdec

/-- The next input is a command word that is never emitted (R48). -/
def NextNeverEmitted (s : State) : Prop :=
  ∃ w rest, s.inputs = .cmdWord w :: rest ∧ NeverEmitted s.cfg w

/-- The next input is a request whose voltage is no Num of the format (entry 14). -/
def NextOperandNotNum (s : State) : Prop :=
  ∃ h d0 d1 v rest i, s.inputs = .request h d0 d1 v :: rest ∧ decodeRequest h d0 d1 v = .ok i ∧ TakesVolts i v ∧
    s.cfg.fmt.accept v = none

/-- A command word on the port is handed over, whether it is a row of the table or none (R48). -/
theorem stepInput_cmdWord (w : CmdWord) (s : State) : stepInput (.cmdWord w) s = sendCommand w s := by
  cases hdec : decodeCmdWord w with
  | ok i => rw [stepInput_ok (inp := .cmdWord w) hdec, exec_of_encode_cmdWord (commandWordsHaveOneSpelling w i hdec)]
  | error e =>
    rw [stepInput_cmdWord_error hdec, sendCommand_neverEmitted (neverEmitted_of_decode_error s.cfg hdec)]

theorem stepInput_request_error {h : Header} {d0 d1 : Code} {v : Volts} {e : DecodeError}
    (hdec : decodeRequest h d0 d1 v = .error e) (s : State) :
    stepInput (.request h d0 d1 v) s = illegalRequest s := by
  simp only [stepInput, decode, hdec]

theorem step_notEmitted (h : NextNeverEmitted s) : step s = .refused .notEmitted := by
  obtain ⟨w, rest, hin, hw⟩ := h
  rw [step_cons hin, stepInput_cmdWord]
  exact sendCommand_neverEmitted hw

theorem step_operandNotNum (h : NextOperandNotNum s) : step s = .refused .operandNotNum := by
  obtain ⟨hd, d0, d1, v, rest, i, hin, hdec, hv, ha⟩ := h
  rw [step_cons hin, stepInput_ok (inp := .request hd d0 d1 v) hdec]
  exact exec_takesVolts_none hv ha

/-- Every other step answers a next state. -/
theorem step_answers (hcmd : ¬ NextNeverEmitted s) (hreq : ¬ NextOperandNotNum s) : ∃ t, step s = .next t := by
  cases hin : s.inputs with
  | nil => exact ⟨s, step_nil hin⟩
  | cons inp rest =>
    rw [step_cons hin]
    cases inp with
    | cmdWord w =>
      have hw : ¬ NeverEmitted s.cfg w := fun hw => hcmd ⟨w, rest, hin, hw⟩
      rw [stepInput_cmdWord]
      exact ⟨_, sendCommand_emitted (emits_of_not_neverEmitted hw)⟩
    | request hd d0 d1 v =>
      cases hdec : decodeRequest hd d0 d1 v with
      | error e => exact ⟨_, stepInput_request_error hdec _⟩
      | ok i =>
        rw [stepInput_ok (inp := .request hd d0 d1 v) hdec]
        obtain ⟨hi, hoperand⟩ := decodeRequest_ok hdec
        by_cases hv : TakesVolts i v
        · cases ha : s.cfg.fmt.accept v with
          | some v' => exact exec_takesVolts_some hv ha
          | none => exact absurd ⟨hd, d0, d1, v, rest, i, hin, hdec, hv, ha⟩ hreq
        · exact exec_answers_of_no_volts hi (fun u hu => hv (hoperand u hu ▸ hu)) _

/-- A step answers a next state, or is refused for one of the two reasons. -/
theorem step_cases (s : State) :
    (∃ t, step s = .next t) ∨ (step s = .refused .notEmitted ∧ NextNeverEmitted s) ∨
      (step s = .refused .operandNotNum ∧ NextOperandNotNum s) := by
  by_cases hcmd : NextNeverEmitted s
  · exact .inr (.inl ⟨step_notEmitted hcmd, hcmd⟩)
  · by_cases hreq : NextOperandNotNum s
    · exact .inr (.inr ⟨step_operandNotNum hreq, hreq⟩)
    · exact .inl (step_answers hcmd hreq)

theorem step_eq_notEmitted : step s = .refused .notEmitted ↔ NextNeverEmitted s :=
  ⟨fun h => by simpa [h] using step_cases s, step_notEmitted⟩

theorem step_eq_operandNotNum : step s = .refused .operandNotNum ↔ NextOperandNotNum s :=
  ⟨fun h => by simpa [h] using step_cases s, step_operandNotNum⟩

/-- Settles O47: a fault and notModelled are none of the three outcomes of a step, and each refusal has its cause. -/
theorem noStepFaults : Obligations.NoStepFaults := by
  refine fun s => ⟨fun f h => ?_, fun m h => ?_, step_eq_notEmitted, step_eq_operandNotNum⟩
  · simpa [h] using step_cases s
  · simpa [h] using step_cases s

end Sys2Proof.Machine


/-! ## Proofs of 40_store.md: the requests on the calibration store -/

namespace Sys2Proof.Machine

variable {s t : State}

/-! ### What the store requests share -/

/-- A request that checks RES first raises UnsupportedResolution and changes nothing else (R84, R88). -/
theorem exec_unsupported_next {i : Instr} (hi : needsResolution i = true) (hs : s.cfg.supported = false) :
    exec i s = .next { s with result := some (.err .unsupportedResolution) } :=
  exec_unsupported hi hs

/-- Every register selector but reg = 0 names a kind (R35). -/
theorem kind_of_ne_unrecognised {reg : RegSel} (h : reg ≠ .unrecognised) : ∃ k, reg.kind = some k :=
  Option.ne_none_iff_exists'.mp (mt reg.kind_eq_none.mp h)

/-! ### GET (R53) -/

theorem execGet_unrecognised (hs : s.cfg.supported = true) (bank : BankSel) (chan : ChanSel) :
    execGet .unrecognised bank chan s = raise .invalidRegisterSelector s := by
  simp only [execGet, hs, if_true, RegSel.kind]

theorem execGet_notConcrete {reg : RegSel} {bank : BankSel} {chan : ChanSel} (hs : s.cfg.supported = true)
    (hr : reg ≠ .unrecognised) (hc : ¬ ∃ b c, Concrete s.cfg bank chan b c) :
    execGet reg bank chan s = raise .invalidAddress s := by
  obtain ⟨k, hk⟩ := kind_of_ne_unrecognised hr
  simp only [execGet, hs, if_true, hk]
  split
  next b c hcls => exact absurd hcls (classify_ne_concrete hc b c)
  next => rfl

theorem execGet_concrete {reg : RegSel} {k : RegKind} {bank : BankSel} {chan : ChanSel} {b : Bank} {c : Chan}
    (hs : s.cfg.supported = true) (hk : reg.kind = some k) (hc : Concrete s.cfg bank chan b c) :
    execGet reg bank chan s = ok (.code ((s.store k).at b c)) s := by
  simp only [execGet, hs, if_true, hk, classify_of_concrete hc]

/-- Settles O8: GET's four cases. -/
theorem getReturnsStoredCode : Obligations.GetReturnsStoredCode := by
  refine fun s reg bank chan => ⟨exec_unsupported_next rfl, fun hs hr => ?_, execGet_notConcrete,
    fun k b c => execGet_concrete⟩
  subst hr
  exact execGet_unrecognised hs bank chan

/-! ### SET (R54) -/

theorem execSet_unrecognised (hs : s.cfg.supported = true) (bank : BankSel) (chan : ChanSel) (d0 : Code) :
    execSet .unrecognised bank chan d0 s = raise .invalidRegisterSelector s := by
  simp only [execSet, hs, if_true, RegSel.kind]

theorem execSet_invalid {reg : RegSel} {bank : BankSel} {chan : ChanSel} (hs : s.cfg.supported = true)
    (hr : reg ≠ .unrecognised) (hv : ¬ ValidAddress s.cfg bank chan) (d0 : Code) :
    execSet reg bank chan d0 s = raise .invalidAddress s := by
  obtain ⟨k, hk⟩ := kind_of_ne_unrecognised hr
  simp only [execSet, hs, if_true, hk, classify_eq_invalid.mpr hv]

theorem execSet_valid {reg : RegSel} {k : RegKind} {bank : BankSel} {chan : ChanSel} (hs : s.cfg.supported = true)
    (hk : reg.kind = some k) (hv : ValidAddress s.cfg bank chan) (d0 : Code) :
    execSet reg bank chan d0 s = ok .unit (s.storeAll k (classify s.cfg bank chan) (s.cfg.mask d0)) := by
  simp only [execSet, hs, if_true, hk]
  split
  next hinvalid => exact absurd hv (classify_eq_invalid.mp hinvalid)
  next => rfl

/-- Storing a code writes the three code tables at most (R13). -/
theorem State.storeAll_frame (s : State) (k : RegKind) (cls : AddrClass) (v : Code) :
    s.storeAll k cls v =
      { s with dac := (s.storeAll k cls v).dac, off := (s.storeAll k cls v).off, gain := (s.storeAll k cls v).gain } := by
  cases k <;> rfl

/-- The code reaches every entry below NCH that a valid address covers (R52, R54). -/
theorem storeAll_store_covered {bank : BankSel} {chan : ChanSel} (hv : ValidAddress s.cfg bank chan) (k : RegKind)
    (v : Code) {b : Bank} {c : Chan} (hc : c.val < s.cfg.nch) (hcov : Covers bank chan b c) :
    ((s.storeAll k (classify s.cfg bank chan) v).store k).at b c = v := by
  rw [State.storeAll_store, if_pos rfl, Table.at_fill, if_pos ((mem_targets hv b c).mpr ⟨hc, hcov⟩)]

/-- The code reaches no entry that a valid address does not cover (R52, R54). -/
theorem storeAll_store_uncovered {bank : BankSel} {chan : ChanSel} (hv : ValidAddress s.cfg bank chan) (k : RegKind)
    (v : Code) {b : Bank} {c : Chan} (hcov : ¬ Covers bank chan b c) :
    ((s.storeAll k (classify s.cfg bank chan) v).store k).at b c = (s.store k).at b c := by
  rw [State.storeAll_store, if_pos rfl, Table.at_fill, if_neg fun hmem => hcov ((mem_targets hv b c).mp hmem).2]

/-- Settles O9: SET's three errors, and which entries the masked code reaches. -/
theorem setStoresMaskedCode : Obligations.SetStoresMaskedCode := by
  refine fun s reg bank chan d0 => ⟨exec_unsupported_next rfl, fun hs hr => ?_,
    fun hs hr hv => execSet_invalid hs hr hv d0, fun k hs hk hv => ?_⟩
  · subst hr
    exact execSet_unrecognised hs bank chan d0
  · refine ⟨_, execSet_valid hs hk hv d0, ?_, fun k' hk' => ?_, fun b c hc hcov => ?_, fun b c _ hcov => ?_⟩
    · exact congrArg (State.finish · (.ok .unit)) (s.storeAll_frame k _ _)
    · rw [State.finish_store, State.storeAll_store, if_neg hk']
    · rw [State.finish_store, storeAll_store_covered hv k _ hc hcov, Cfg.mask_toNat]
    · rw [State.finish_store, storeAll_store_uncovered hv k _ hcov]

/-! ### GETGOFS (R55) -/

theorem execGetgofs_sel (hs : s.cfg.supported = true) (b : Bank) :
    execGetgofs b.sel s = ok (.gofs (s.gofs.read b)) s := by
  simp only [execGetgofs, hs, if_true, Bank.single_sel]

theorem execGetgofs_invalid {bank : BankSel} (hs : s.cfg.supported = true) (hb : bank = .bankAll ∨ bank = .undefined) :
    execGetgofs bank s = raise .invalidAddress s := by
  simp only [execGetgofs, hs, if_true, bank.single_eq_none.mpr hb]

/-- A global-offset code has 14 bits (R15). -/
theorem gofs_le (g : Gofs) : g.toNat ≤ 0x3FFF := Nat.le_of_lt_succ g.isLt

/-- RESET sets both global offsets to their default (R83). -/
theorem execReset_gofs (hs : s.cfg.supported = true) (h : execReset s = .next t) :
    t.gofs = PerBank.both s.cfg.defGofs := by
  rcases execReset_next h with ⟨hno, -⟩ | ⟨-, rfl⟩
  · exact absurd (hs.symm.trans hno) Bool.noConfusion
  · rfl

/-- Settles O10: GETGOFS's three cases; that only RESET and construction set a global offset is the frame of the other
instructions and the defaults of these two. -/
theorem getgofsReturnsGlobalOffset : Obligations.GetgofsReturnsGlobalOffset := by
  refine fun s bank => ⟨exec_unsupported_next rfl, execGetgofs_invalid, fun b hs hb => ?_, fun i t hi h => ?_,
    fun t hs h b => ?_, fun cfg b hs => ?_⟩
  · subst hb
    exact ⟨execGetgofs_sel hs b, gofs_le _⟩
  · obtain ⟨-, -, hgofs, -⟩ := onlyWritersWriteTheStore s t i h hi
    exact hgofs
  · rw [execReset_gofs hs h, PerBank.read_both]
  · rw [State.construct_gofs hs, PerBank.read_both]

/-! ### GETBOUNDS and SETBOUNDS (R56, R57) -/

theorem execGetbounds_concrete {bank : BankSel} {chan : ChanSel} {b : Bank} {c : Chan} (hs : s.cfg.supported = true)
    (hc : Concrete s.cfg bank chan b c) :
    execGetbounds bank chan s = ok (.bounds (s.min.at b c) (s.max.at b c)) s := by
  simp only [execGetbounds, hs, if_true, classify_of_concrete hc]

theorem execGetbounds_notConcrete {bank : BankSel} {chan : ChanSel} (hs : s.cfg.supported = true)
    (hc : ¬ ∃ b c, Concrete s.cfg bank chan b c) : execGetbounds bank chan s = raise .invalidAddress s := by
  simp only [execGetbounds, hs, if_true]
  split
  next b c hcls => exact absurd hcls (classify_ne_concrete hc b c)
  next => rfl

/-- Settles O11: GETBOUNDS's three cases. -/
theorem getboundsReturnsBounds : Obligations.GetboundsReturnsBounds :=
  fun _ _ _ => ⟨exec_unsupported_next rfl, execGetbounds_notConcrete, fun _ _ => execGetbounds_concrete⟩

theorem execSetbounds_concrete {bank : BankSel} {chan : ChanSel} {b : Bank} {c : Chan} (hs : s.cfg.supported = true)
    (hc : Concrete s.cfg bank chan b c) (d0 d1 : Code) :
    execSetbounds bank chan d0 d1 s = ok .unit (s.setBounds b c (s.cfg.mask d0) (s.cfg.mask d1)) := by
  simp only [execSetbounds, hs, if_true, classify_of_concrete hc]

theorem execSetbounds_notConcrete {bank : BankSel} {chan : ChanSel} (hs : s.cfg.supported = true)
    (hc : ¬ ∃ b c, Concrete s.cfg bank chan b c) (d0 d1 : Code) :
    execSetbounds bank chan d0 d1 s = raise .invalidAddress s := by
  simp only [execSetbounds, hs, if_true]
  split
  next b c hcls => exact absurd hcls (classify_ne_concrete hc b c)
  next => rfl

/-- No value lies inside bounds with min > max, so the gate lets none pass (R72). -/
theorem not_gatePasses_of_max_lt_min {bank : BankSel} {chan : ChanSel} {b : Bank} {c : Chan}
    (hval : s.cfg.validate = true) (hc : Concrete s.cfg bank chan b c)
    (hlt : (s.max.at b c).toNat < (s.min.at b c).toNat) (d : Code) : ¬ s.GatePasses bank chan d := by
  intro hgate
  obtain ⟨hmin, hmax⟩ := hgate hval b c hc
  exact absurd (hmin.trans hmax) hlt.not_ge

/-- ENCW and WRITE raise the error of `encw` (R74, R78). -/
theorem exec_encw_write_of_error {reg : RegSel} {bank : BankSel} {chan : ChanSel} {d0 : Code} {e : ErrKind} {i : Instr}
    (hi : i ∈ [.encw reg bank chan d0, .write reg bank chan d0]) (h : encodeWrite s reg bank chan d0 = .error e) :
    exec i s = .next { s with result := some (.err e) } := by
  simp only [List.mem_cons, List.not_mem_nil, or_false] at hi
  rcases hi with rfl | rfl
  · rw [exec, execEncw, h]
    rfl
  · rw [exec, execWrite, h]
    rfl

/-- WRITEV raises the error that `encw` has for the converted code (R79). -/
theorem execWritev_of_error {bank : BankSel} {chan : ChanSel} {b : Bank} {c : Chan} {v v' : Volts} {code : Code}
    {e : ErrKind} (hs : s.cfg.supported = true) (hc : Concrete s.cfg bank chan b c)
    (ha : s.cfg.fmt.accept v = some v') (hcode : s.v2c b c v' = some code)
    (h : encodeWrite s .dac bank chan code = .error e) : execWritev bank chan v s = raise e s := by
  simp only [execWritev, withVolts_some ha, hs, if_true, classify_of_concrete hc, hcode, h]

/-- Settles O12: the masked bounds are put at one entry of each table, and where they exclude every value, `encw` is
OutOfRange for every write to the channel. -/
theorem setboundsStoresMaskedBounds : Obligations.SetboundsStoresMaskedBounds := by
  refine fun s bank chan d0 d1 => ⟨exec_unsupported_next rfl, fun hs hc => execSetbounds_notConcrete hs hc d0 d1,
    fun b c hs hc => ⟨_, execSetbounds_concrete hs hc d0 d1, rfl, ?_, ?_, fun hlt hval => ?_, fun b' c' _ hne => ?_⟩⟩
  · rw [State.finish_min, State.setBounds_min, Table.at_put_same, Cfg.mask_toNat]
  · rw [State.finish_max, State.setBounds_max, Table.at_put_same, Cfg.mask_toNat]
  · have excluded := not_gatePasses_of_max_lt_min hval hc hlt
    have hv : ValidAddress s.cfg bank chan := .inl ⟨b, c, hc⟩
    exact ⟨fun reg d i hr hi => exec_encw_write_of_error hi (encodeWrite_outOfRange hs hr hv (excluded d)),
      fun v v' code ha hcode => execWritev_of_error hs hc ha hcode
        (encodeWrite_outOfRange hs RegSel.noConfusion hv (excluded code))⟩
  · exact ⟨(s.min.at_put b b' c c' _).trans (if_neg hne), (s.max.at_put b b' c c' _).trans (if_neg hne)⟩

/-! ### GETREF and SETREF (R58, R59) -/

theorem execGetref_sel (s : State) (b : Bank) : execGetref b.sel s = ok (.num (s.vref.read b)) s := by
  rw [execGetref, Bank.single_sel]

theorem execGetref_invalid {bank : BankSel} (hb : bank = .bankAll ∨ bank = .undefined) (s : State) :
    execGetref bank s = raise .invalidAddress s := by
  rw [execGetref, bank.single_eq_none.mpr hb]

/-- Settles O13: GETREF's two cases. -/
theorem getrefReturnsReference : Obligations.GetrefReturnsReference := by
  refine fun s bank => ⟨fun hb => execGetref_invalid hb s, fun b hb => ?_⟩
  subst hb
  exact execGetref_sel s b

theorem execSetref_sel {v v' : Volts} (ha : s.cfg.fmt.accept v = some v') (b : Bank) :
    execSetref b.sel v s = ok .unit (s.setVref b v') := by
  simp only [execSetref, withVolts_some ha, Bank.single_sel]

theorem execSetref_invalid {bank : BankSel} {v v' : Volts} (ha : s.cfg.fmt.accept v = some v')
    (hb : bank = .bankAll ∨ bank = .undefined) : execSetref bank v s = raise .invalidAddress s := by
  simp only [execSetref, withVolts_some ha, bank.single_eq_none.mpr hb]

/-- Settles O14: SETREF's two cases for an operand that is taken, and its refusal. -/
theorem setrefStoresReference : Obligations.SetrefStoresReference := by
  refine fun s bank v => ⟨fun v' => execSetref_invalid, fun v' b ha hb => ?_, fun q hf => ?_,
    exec_takesVolts_none (.inl ⟨bank, rfl⟩)⟩
  · subst hb
    exact ⟨_, execSetref_sel ha b, rfl, s.vref.read_write_same b v', fun b' hne => s.vref.read_write_ne v' hne⟩
  · rw [hf, NumFmt.accept_exact]

end Sys2Proof.Machine

/-! ## Proofs of 41_transfer.md: V2C, C2V and WRITEV in exact arithmetic, their errors, and recalibration -/

namespace Sys2Proof.Machine

variable {s t : State}

/-! ### V2C in exact arithmetic (R60 to R65) -/

/-- V2C answers a code that the forward function yields (R65). -/
theorem exec_v2c_of_code {bank : BankSel} {chan : ChanSel} {b : Bank} {c : Chan} {v v' : Volts} {code : Code}
    (hs : s.cfg.supported = true) (hc : Concrete s.cfg bank chan b c) (ha : s.cfg.fmt.accept v = some v')
    (hcode : s.v2c b c v' = some code) :
    exec (.v2c bank chan v) s = .next { s with result := some (.ok (.code code)) } :=
  (v2cConvertsInEveryFormat s bank chan b c v v' hs hc ha).1 code hcode

/-- Every rational is an operand under the exact reference (R9, R40). -/
theorem accept_fin_of_exact {f : NumFmt} (hf : f = .exact) (q : ℚ) : f.accept (.fin q) = some (.fin q) :=
  hf ▸ NumFmt.accept_exact q

/-- Settles O15: V2C answers the code of the forward function. -/
theorem v2cFollowsExactFormula : Obligations.V2cFollowsExactFormula := by
  intro s bank chan b c r q hs hf hc hr h0 hm
  obtain ⟨n, hn, hfloor⟩ := State.v2c_exact hs hf hr h0 hm q
  exact ⟨n, hfloor, exec_v2c_of_code hs hc (accept_fin_of_exact hf q) hn⟩

/-- With a positive reference, `dac` grows with the voltage (R64). -/
theorem State.dacQ_le_dacQ (s : State) (b : Bank) {r q q' : ℚ} (hr : 0 < r) (hq : q ≤ q') :
    s.dacQ b r q ≤ s.dacQ b r q' := by
  unfold State.dacQ
  gcongr

/-- With a positive reference and slope, `x` grows with the voltage (R64). -/
theorem State.forwardQ_le_forwardQ {b : Bank} {c : Chan} {r q q' : ℚ} (hr : 0 < r) (hm : 0 < s.slopeQ b c)
    (hq : q ≤ q') : s.forwardQ b c r q ≤ s.forwardQ b c r q' :=
  div_le_div_of_nonneg_right (sub_le_sub_right (s.dacQ_le_dacQ b hr hq) _) hm.le

/-- Settles O20: `x` grows with the voltage, and the clamp and the floor keep order. -/
theorem v2cIsMonotone : Obligations.V2cIsMonotone := by
  intro s bank chan b c r q q' hs hf hc hr hpos hm hq
  obtain ⟨n, hn, hexec⟩ := v2cFollowsExactFormula s bank chan b c r q hs hf hc hr hpos.ne' hm.ne'
  obtain ⟨n', hn', hexec'⟩ := v2cFollowsExactFormula s bank chan b c r q' hs hf hc hr hpos.ne' hm.ne'
  have hx := State.forwardQ_le_forwardQ hpos hm hq
  have hle : (n.toNat : ℤ) ≤ n'.toNat := by
    rw [hn, hn']
    gcongr
  exact ⟨n, n', Int.ofNat_le.mp hle, hexec, hexec'⟩

/-- A gain code more than one below its default gives a negative slope (R60, R61, R69). -/
theorem slopeQ_neg_of_lt {cfg : Cfg} {gain : Code} (h : gain.toNat + 1 < cfg.defGain.toNat) : cfg.slopeQ gain < 0 := by
  have hne : gain ≠ cfg.defGain := by
    rintro rfl
    omega
  have hlt : (gain.toNat : ℚ) + 1 < cfg.defGain.toNat := by exact_mod_cast h
  rw [Cfg.slopeQ, if_neg hne]
  exact div_neg_of_neg_of_pos (by linarith) (by positivity)

/-- A value that is not positive clamps to 0 (R64). -/
theorem floor_clamp_of_nonpos {x : ℚ} (hx : x ≤ 0) (n : Nat) : ⌊min (max x 0) ((2 : ℚ) ^ n - 1)⌋ = 0 := by
  have hfull : (0 : ℚ) ≤ 2 ^ n - 1 := sub_nonneg.mpr (one_le_pow₀ one_le_two)
  rw [max_eq_right hx, min_eq_left hfull, Int.floor_zero]

/-- Settles O21: a positive `dac - cc` over a negative slope is negative, and clamps to 0. -/
theorem reducedGainGivesZero : Obligations.ReducedGainGivesZero := by
  intro s bank chan b c r q hs hf hc hr h0 _ hgain hpos
  have hm : s.slopeQ b c < 0 := slopeQ_neg_of_lt hgain
  obtain ⟨n, hn, hexec⟩ := v2cFollowsExactFormula s bank chan b c r q hs hf hc hr h0 hm.ne
  have hx : s.forwardQ b c r q ≤ 0 := (div_neg_of_pos_of_neg hpos hm).le
  rw [floor_clamp_of_nonpos hx, Nat.cast_eq_zero] at hn
  obtain rfl : n = 0 := BitVec.eq_of_toNat_eq hn
  exact ⟨hm, hexec⟩

/-! ### V2C in every format: errors and full scale (R64, R65, R88) -/

/-- A code on the result port after V2C is one of the forward function (R65). -/
theorem execV2c_code {bank : BankSel} {chan : ChanSel} {v : Volts} {n : Code} (h : execV2c bank chan v s = .next t)
    (hn : t.result = some (.ok (.code n))) : ∃ b c v', s.v2c b c v' = some n := by
  obtain ⟨v', -, h⟩ := withVolts_next h
  split at h
  · split at h
    next b c _ =>
      split at h
      next code hcode =>
        obtain rfl := ok_next.mp h
        cases hn
        exact ⟨b, c, v', hcode⟩
      next =>
        obtain rfl := numericDomain_next.mp h
        cases hn
    · obtain rfl := raise_next.mp h
      cases hn
  · obtain rfl := raise_next.mp h
    cases hn

/-- Settles O19: every code of the forward function is at most the full scale. -/
theorem v2cNeverExceedsFullScale : Obligations.V2cNeverExceedsFullScale := by
  intro s t bank chan v n h hn
  obtain ⟨b, c, v', hcode⟩ := execV2c_code h hn
  exact State.v2c_le b c hcode

/-- Under a supported RES the three requests raise InvalidAddress where the address is not concrete (R65, R67, R79). -/
theorem exec_voltage_notConcrete {bank : BankSel} {chan : ChanSel} {v v' : Volts} {d0 : Code} {i : Instr}
    (ha : s.cfg.fmt.accept v = some v') (hi : i = .v2c bank chan v ∨ i = .writev bank chan v ∨ i = .c2v bank chan d0)
    (hs : s.cfg.supported = true) (hc : ¬ ∃ b c, Concrete s.cfg bank chan b c) :
    exec i s = raise .invalidAddress s := by
  cases hcls : classify s.cfg bank chan with
  | concrete b c => exact absurd hcls (classify_ne_concrete hc b c)
  | _ =>
    rcases hi with rfl | rfl | rfl
    · simp only [exec, execV2c, withVolts_some ha, hs, if_true, hcls]
    · simp only [exec, execWritev, withVolts_some ha, hs, if_true, hcls]
    · simp only [exec, execC2v, hs, if_true, hcls]

/-- Under an unsupported RES the three requests raise UnsupportedResolution (R65, R67, R79). -/
theorem exec_voltage_unsupported {bank : BankSel} {chan : ChanSel} {v v' : Volts} {d0 : Code} {i : Instr}
    (ha : s.cfg.fmt.accept v = some v') (hi : i = .v2c bank chan v ∨ i = .writev bank chan v ∨ i = .c2v bank chan d0)
    (hs : s.cfg.supported = false) : exec i s = raise .unsupportedResolution s := by
  rcases hi with rfl | rfl | rfl
  · exact (execV2c_unsupported hs).trans (withVolts_some ha _)
  · exact (execWritev_unsupported hs).trans (withVolts_some ha _)
  · exact exec_unsupported rfl hs

/-- Settles O18: the two checks that come before the conversion, for each of the three requests. -/
theorem voltageRequestErrors : Obligations.VoltageRequestErrors := by
  intro s bank chan v v' d0 i ha hi
  simp only [List.mem_cons, List.not_mem_nil, or_false] at hi
  exact ⟨exec_voltage_unsupported ha hi, exec_voltage_notConcrete ha hi⟩

/-! ### C2V in exact arithmetic (R66, R67, I3) -/

/-- C2V answers the inverse function's rational (R67). -/
theorem exec_c2v_of_fin {bank : BankSel} {chan : ChanSel} {b : Bank} {c : Chan} {d0 : Code} {x : ℚ}
    (hs : s.cfg.supported = true) (hc : Concrete s.cfg bank chan b c) (hx : s.c2v b c d0 = .fin x) :
    exec (.c2v bank chan d0) s = .next { s with result := some (.ok (.num (.fin x))) } := by
  rw [exec, execC2v_concrete hs hc, hx, if_neg Volts.noConfusion]
  rfl

/-- Settles O22: C2V answers the algebraic inverse. -/
theorem c2vFollowsExactInverse : Obligations.C2vFollowsExactInverse :=
  fun _ _ _ _ c _ d0 hs hf hi hc hr => exec_c2v_of_fin hs hc (State.c2v_exact hf hi hr c d0)

/-- Settles O23: C2V answers the printed formula. -/
theorem c2vLiteralFourteenBit : Obligations.C2vLiteralFourteenBit := by
  intro s bank chan b c r d0 hres hlit hf hc hr
  refine exec_c2v_of_fin (s.cfg.supported_iff.mpr (.inl hres)) hc ?_
  rw [State.c2v, if_pos ⟨hres, hlit⟩, State.c2vLiteral_exact hf hr]

/-! ### The round trip at default calibration (R68) -/

theorem State.DefaultCalibration.slopeQ_eq {b : Bank} {c : Chan} (h : s.DefaultCalibration b c) : s.slopeQ b c = 1 := by
  obtain ⟨hdef, -, hgain, -⟩ := h
  have hcast : (s.cfg.defGain.toNat : ℚ) = 2 ^ s.cfg.res - 1 := by rw [hdef, ← deviceMax_cast]; rfl
  rw [State.slopeQ, Cfg.slopeQ, if_pos hgain, hcast, sub_add_cancel, div_self (two_pow_ne_zero _)]

theorem State.DefaultCalibration.interceptQ_eq {b : Bank} {c : Chan} (h : s.DefaultCalibration b c) :
    s.interceptQ b c = 0 := by
  obtain ⟨-, hdef, -, hoff⟩ := h
  rw [State.interceptQ, Cfg.interceptQ, if_pos hoff, hdef]
  push_cast
  exact sub_self _

/-- At default calibration `x` is `dac` (R68). -/
theorem State.DefaultCalibration.forwardQ_eq {b : Bank} {c : Chan} (h : s.DefaultCalibration b c) (r q : ℚ) :
    s.forwardQ b c r q = s.dacQ b r q := by
  rw [State.forwardQ, h.slopeQ_eq, h.interceptQ_eq, sub_zero, div_one]

/-- The voltage that a `dac` stands for (R66). -/
theorem State.voltage_of_dacQ (s : State) (b : Bank) {r : ℚ} (h0 : r ≠ 0) (q : ℚ) :
    4 * r * (s.dacQ b r q - s.globalQ b) / 2 ^ s.cfg.res = q := by
  rw [State.dacQ, add_sub_cancel_right]
  field_simp

/-- At default calibration C2V of a code misses a voltage by what the code misses its `dac` by (R68). -/
theorem State.DefaultCalibration.sub_inverseQ {b : Bank} {c : Chan} (h : s.DefaultCalibration b c) {r : ℚ} (h0 : r ≠ 0)
    (q : ℚ) (n : Code) : q - s.inverseQ b c r n = 4 * r / 2 ^ s.cfg.res * (s.dacQ b r q - n.toNat) := by
  have hq := s.voltage_of_dacQ b h0 q
  rw [State.inverseQ, h.slopeQ_eq, h.interceptQ_eq]
  linear_combination -hq

/-- With Vref = 5 and the global offset 0x2000, `dac` counts the steps from -10 V (R68). -/
theorem State.dacQ_of_span {b : Bank} {q : ℚ} (hs : s.cfg.supported = true) (hg : s.gofs.read b = 0x2000) :
    s.dacQ b 5 q = (q + 10) * 2 ^ s.cfg.res / 20 := by
  have hgofs : ((s.gofs.read b).toNat : ℚ) = 0x2000 := by rw [hg]; rfl
  rcases s.cfg.supported_iff.mp hs with h | h
  · rw [State.dacQ, State.globalQ, hgofs, h, if_neg (by norm_num)]
    ring
  · rw [State.dacQ, State.globalQ, hgofs, h, if_pos rfl]
    ring

/-- R68's span: with Vref = 5 and the global offset 0x2000, `dac` of -10 V to 10 V less one step is a code. -/
theorem State.dacQ_mem_of_span {b : Bank} {q : ℚ} (hs : s.cfg.supported = true) (hg : s.gofs.read b = 0x2000)
    (hlo : -10 ≤ q) (hhi : q ≤ 10 - 20 / 2 ^ s.cfg.res) :
    0 ≤ s.dacQ b 5 q ∧ s.dacQ b 5 q ≤ 2 ^ s.cfg.res - 1 := by
  rw [State.dacQ_of_span hs hg]
  have hpow : (0 : ℚ) < 2 ^ s.cfg.res := by positivity
  constructor
  · exact div_nonneg (mul_nonneg (by linarith) hpow.le) (by norm_num)
  · calc (q + 10) * 2 ^ s.cfg.res / 20
      _ ≤ (20 - 20 / 2 ^ s.cfg.res) * 2 ^ s.cfg.res / 20 := by gcongr; linarith
      _ = 2 ^ s.cfg.res - 1 := by field_simp

/-- Settles O25: in the span nothing is clamped, so C2V misses the voltage by the part that the floor cut off. -/
theorem roundTripWithinOneStep : Obligations.RoundTripWithinOneStep := by
  intro s bank chan b c r q hs hf hi hc hcal hr hpos hspan
  have hm : s.slopeQ b c ≠ 0 := by rw [hcal.slopeQ_eq]; exact one_ne_zero
  obtain ⟨n, hn, hexec⟩ := v2cFollowsExactFormula s bank chan b c r q hs hf hc hr hpos.ne' hm
  obtain ⟨hlo, hhi⟩ : 0 ≤ s.dacQ b r q ∧ s.dacQ b r q ≤ 2 ^ s.cfg.res - 1 := by
    rcases hspan with h | ⟨rfl, hg, hlo, hhi⟩
    · exact h
    · exact State.dacQ_mem_of_span hs hg hlo hhi
  rw [hcal.forwardQ_eq, max_eq_left hlo, min_eq_left hhi, eq_comm, Int.floor_eq_iff, Int.cast_natCast] at hn
  obtain ⟨hle, hlt⟩ := hn
  have hstep : 0 < 4 * r / 2 ^ s.cfg.res := by positivity
  refine ⟨n, s.inverseQ b c r n, hexec, c2vFollowsExactInverse s bank chan b c r n hs hf hi hc hr, ?_, ?_⟩
  · rw [hcal.sub_inverseQ hpos.ne']
    exact mul_nonneg hstep.le (sub_nonneg.mpr hle)
  · rw [hcal.sub_inverseQ hpos.ne']
    exact mul_lt_of_lt_one_right hstep (by linarith)

/-! ### WRITEV (R79) -/

/-- Masking leaves a RES-bit code (R7). -/
theorem mask_of_le {cfg : Cfg} {d : Code} (h : d.toNat ≤ 2 ^ cfg.res - 1) : cfg.mask d = d := by
  have hpos := Nat.two_pow_pos cfg.res
  exact BitVec.eq_of_toNat_eq (by rw [Cfg.mask_toNat, Nat.mod_eq_of_lt (by omega)])

/-- An address names at most one channel (R52). -/
theorem concrete_unique {cfg : Cfg} {bank : BankSel} {chan : ChanSel} {b b' : Bank} {c c' : Chan}
    (h : Concrete cfg bank chan b c) (h' : Concrete cfg bank chan b' c') : b' = b ∧ c' = c :=
  AddrClass.concrete.inj ((classify_of_concrete h').symm.trans (classify_of_concrete h))

/-- Validation is off, or the channel's bounds are the full range of codes (R14, R72). -/
def State.FullRange (s : State) (b : Bank) (c : Chan) : Prop :=
  s.cfg.validate = true → s.min.at b c = 0 ∧ (s.max.at b c).toNat = 2 ^ s.cfg.res - 1

/-- The full range lets every code pass (R72). -/
theorem State.FullRange.gatePasses {bank : BankSel} {chan : ChanSel} {b : Bank} {c : Chan} (h : s.FullRange b c)
    (hc : Concrete s.cfg bank chan b c) (d : Code) : s.GatePasses bank chan d := by
  intro hval b' c' hc'
  obtain ⟨rfl, rfl⟩ := concrete_unique hc hc'
  obtain ⟨hmin, hmax⟩ := h hval
  rw [State.InBounds, hmin, hmax]
  exact ⟨Nat.zero_le _, Nat.le_sub_one_of_lt (Nat.mod_lt _ (Nat.two_pow_pos _))⟩

/-- A DAC write stores in S.dac and emits its word, and changes nothing else (R78, R99). -/
theorem State.commitWrite_dac {e : WriteWord} (h : e.kind = .dac) :
    s.commitWrite e =
      { s with dac := s.dac.fill (targets s.cfg e.cls) e.value, events := s.events ++ [.cmd e.word] } := by
  rw [State.commitWrite, h]
  rfl

/-- What WRITEV answers where `encw` takes the converted code (R79). -/
theorem execWritev_of_ok {bank : BankSel} {chan : ChanSel} {b : Bank} {c : Chan} {v v' : Volts} {code : Code}
    {e : WriteWord} (hs : s.cfg.supported = true) (hc : Concrete s.cfg bank chan b c)
    (ha : s.cfg.fmt.accept v = some v') (hcode : s.v2c b c v' = some code)
    (h : encodeWrite s .dac bank chan code = .ok e) :
    execWritev bank chan v s = ok (.code e.value) (s.commitWrite e) := by
  simp only [execWritev, withVolts_some ha, hs, if_true, classify_of_concrete hc, hcode, h]

/-- Where the gate lets the converted code pass, WRITEV stores it in one entry of S.dac, emits its word and returns it
(R79). -/
theorem exec_writev_of_gatePasses {bank : BankSel} {chan : ChanSel} {b : Bank} {c : Chan} {v v' : Volts} {code : Code}
    (hs : s.cfg.supported = true) (hc : Concrete s.cfg bank chan b c) (ha : s.cfg.fmt.accept v = some v')
    (hcode : s.v2c b c v' = some code) (hg : s.GatePasses bank chan code) :
    ∃ (w : CmdWord) (t : State), w.toNat = writeWordNumber s.cfg .dac bank chan code ∧
      exec (.writev bank chan v) s = .next t ∧
      t = { s with dac := t.dac, events := s.events ++ [.cmd w], result := some (.ok (.code code)) } ∧
      t.dac.at b c = code ∧ (∀ b' c', ¬ (b' = b ∧ c' = c) → t.dac.at b' c' = s.dac.at b' c') := by
  obtain ⟨e, he, hkind, hcls, hval, hword⟩ := encodeWrite_ok hs (reg := .dac) rfl (.inl ⟨b, c, hc⟩) hg
  rw [classify_of_concrete hc] at hcls
  rw [mask_of_le (State.v2c_le b c hcode)] at hval
  have hexec := execWritev_of_ok hs hc ha hcode he
  rw [State.commitWrite_dac hkind, hcls, hval] at hexec
  refine ⟨e.word, _, hword, hexec, rfl, ?_, fun b' c' hne => ?_⟩
  · exact (s.dac.at_fill [(b, c)] code b c).trans (if_pos (List.mem_singleton_self _))
  · refine (s.dac.at_fill [(b, c)] code b' c').trans (if_neg fun hmem => hne ?_)
    exact Prod.mk.inj (List.mem_singleton.mp hmem)

/-- Settles O35: the code of the forward function passes the gate of the full range. -/
theorem writevInExactArithmetic : Obligations.WritevInExactArithmetic := by
  intro s bank chan b c r q hs hf hc hr h0 hm hfull
  obtain ⟨n, hn, hfloor⟩ := State.v2c_exact hs hf hr h0 hm q
  obtain ⟨w, t, ht⟩ := exec_writev_of_gatePasses hs hc (accept_fin_of_exact hf q) hn
    (State.FullRange.gatePasses hfull hc n)
  exact ⟨n, w, t, hfloor, ht⟩

/-! ### Recalibration (R100) -/

/-- SET, and WRITE where the gate lets the data pass, store the masked code and write the history and the result port
besides (R54, R78). -/
theorem exec_set_write_stores {reg : RegSel} {k : RegKind} {bank : BankSel} {chan : ChanSel} {d0 : Code} {i : Instr}
    (hs : s.cfg.supported = true) (hk : reg.kind = some k) (hv : ValidAddress s.cfg bank chan)
    (hi : i = .set reg bank chan d0 ∨ (i = .write reg bank chan d0 ∧ s.GatePasses bank chan d0)) :
    ∃ evs r, exec i s =
      .next { s.storeAll k (classify s.cfg bank chan) (s.cfg.mask d0) with events := evs, result := r } := by
  rcases hi with rfl | ⟨rfl, hg⟩
  · exact ⟨_, _, execSet_valid hs hk hv d0⟩
  · obtain ⟨e, he, rfl, hcls, hval, -⟩ := encodeWrite_ok hs hk hv hg
    rw [← hcls, ← hval, exec, execWrite, he]
    exact ⟨_, _, rfl⟩

/-- The calibration codes of a covered channel after the masked code is stored: the one of its kind is the new one (R54,
R100). -/
theorem storeAll_calibration {k : RegKind} {bank : BankSel} {chan : ChanSel} {b : Bank} {c : Chan} {d0 g o : Code}
    (hv : ValidAddress s.cfg bank chan) (hcov : Covers bank chan b c) (hc : c.val < s.cfg.nch)
    (hgo : (k = .gain ∧ g.toNat = d0.toNat % 2 ^ s.cfg.res ∧ o = s.off.at b c) ∨
      (k = .offset ∧ o.toNat = d0.toNat % 2 ^ s.cfg.res ∧ g = s.gain.at b c)) :
    (s.storeAll k (classify s.cfg bank chan) (s.cfg.mask d0)).gain.at b c = g ∧
      (s.storeAll k (classify s.cfg bank chan) (s.cfg.mask d0)).off.at b c = o := by
  have stored := storeAll_store_covered hv k (s.cfg.mask d0) hc hcov
  rcases hgo with ⟨rfl, hg, rfl⟩ | ⟨rfl, ho, rfl⟩
  · exact ⟨stored.trans (BitVec.eq_of_toNat_eq ((s.cfg.mask_toNat d0).trans hg.symm)), rfl⟩
  · exact ⟨rfl, stored.trans (BitVec.eq_of_toNat_eq ((s.cfg.mask_toNat d0).trans ho.symm))⟩

/-- `t` has the calibration codes `g` and `o` at one channel, and all else that the transfer function and the gate read
is as in `s` (R100). -/
structure State.CalibratedTo (s t : State) (b : Bank) (c : Chan) (g o : Code) : Prop where
  cfg : t.cfg = s.cfg
  min : t.min = s.min
  max : t.max = s.max
  gofs : t.gofs = s.gofs
  vref : t.vref = s.vref
  gain : t.gain.at b c = g
  off : t.off.at b c = o

/-- SET or WRITE of a calibration register calibrates every channel that the address covers (R54, R78, R100). -/
theorem exec_set_write_calibrates {reg : RegSel} {k : RegKind} {bank : BankSel} {chan : ChanSel} {b : Bank} {c : Chan}
    {d0 g o : Code} {i : Instr} (hs : s.cfg.supported = true) (hk : reg.kind = some k)
    (hv : ValidAddress s.cfg bank chan) (hcov : Covers bank chan b c) (hc : c.val < s.cfg.nch)
    (hi : i = .set reg bank chan d0 ∨ (i = .write reg bank chan d0 ∧ s.GatePasses bank chan d0))
    (hgo : (k = .gain ∧ g.toNat = d0.toNat % 2 ^ s.cfg.res ∧ o = s.off.at b c) ∨
      (k = .offset ∧ o.toNat = d0.toNat % 2 ^ s.cfg.res ∧ g = s.gain.at b c)) :
    ∃ t, exec i s = .next t ∧ s.CalibratedTo t b c g o := by
  obtain ⟨evs, res, hexec⟩ := exec_set_write_stores hs hk hv hi
  obtain ⟨hgain, hoff⟩ := storeAll_calibration hv hcov hc hgo
  exact ⟨_, hexec, by simp, by simp, by simp, by simp, by simp, hgain, hoff⟩

namespace State.CalibratedTo

variable {b : Bank} {c : Chan} {g o : Code}

theorem slopeQ_eq (h : s.CalibratedTo t b c g o) : t.slopeQ b c = s.cfg.slopeQ g := by
  rw [State.slopeQ, h.cfg, h.gain]

theorem interceptQ_eq (h : s.CalibratedTo t b c g o) : t.interceptQ b c = s.cfg.interceptQ o := by
  rw [State.interceptQ, h.cfg, h.off]

theorem globalQ_eq (h : s.CalibratedTo t b c g o) : t.globalQ b = s.globalQ b := by
  rw [State.globalQ, State.globalQ, h.cfg, h.gofs]

theorem dacQ_eq (h : s.CalibratedTo t b c g o) (r q : ℚ) : t.dacQ b r q = s.dacQ b r q := by
  rw [State.dacQ, State.dacQ, h.cfg, h.globalQ_eq]

theorem forwardQ_eq (h : s.CalibratedTo t b c g o) (r q : ℚ) :
    t.forwardQ b c r q = (s.dacQ b r q - s.cfg.interceptQ o) / s.cfg.slopeQ g := by
  rw [State.forwardQ, h.dacQ_eq, h.interceptQ_eq, h.slopeQ_eq]

theorem inverseQ_eq (h : s.CalibratedTo t b c g o) (r : ℚ) (d : Code) :
    t.inverseQ b c r d =
      4 * r * (d.toNat * s.cfg.slopeQ g + s.cfg.interceptQ o - s.globalQ b) / 2 ^ s.cfg.res := by
  rw [State.inverseQ, h.slopeQ_eq, h.interceptQ_eq, h.globalQ_eq, h.cfg]

theorem fullRange (h : s.CalibratedTo t b c g o) (hfull : s.FullRange b c) : t.FullRange b c := by
  rw [State.FullRange, h.cfg, h.min, h.max]
  exact hfull

end State.CalibratedTo

/-- Settles O58: in the state that SET or WRITE leaves, the three requests follow the formulas of that state, which are
those of the new codes. -/
theorem calibrationTakesEffectAtOnce : Obligations.CalibrationTakesEffectAtOnce := by
  intro s reg k bank chan b c r d0 g o i hs hf hk hv hcov hlt hr hi hgo
  obtain ⟨t, hexec, hcal⟩ := exec_set_write_calibrates hs hk hv hcov hlt hi hgo
  have hc : Concrete t.cfg b.sel (Chan.sel c) b c := ⟨rfl, rfl, hcal.cfg ▸ hlt⟩
  rw [← hcal.cfg] at hs hf
  rw [← hcal.vref] at hr
  refine ⟨t, hexec, fun d hinv => ?_, fun q h0 hm => ?_⟩
  · rw [← hcal.inverseQ_eq]
    exact c2vFollowsExactInverse t b.sel (Chan.sel c) b c r d hs hf (hcal.cfg ▸ hinv) hc hr
  · rw [← hcal.slopeQ_eq] at hm
    obtain ⟨n, hn, hfloor⟩ := State.v2c_exact hs hf hr h0 hm q
    have ha := accept_fin_of_exact hf q
    rw [hcal.forwardQ_eq, hcal.cfg] at hfloor
    refine ⟨n, hfloor, exec_v2c_of_code hs hc ha hn, fun hfull => ?_⟩
    rw [← hcal.cfg]
    exact exec_writev_of_gatePasses hs hc ha hn ((hcal.fullRange hfull).gatePasses hc n)

end Sys2Proof.Machine

/-! ## Proofs of 42_encoder.md: the errors of ENCW and WRITE, their agreement, and R75's readback words -/

namespace Sys2Proof.Machine

variable {s : State}

/-! ### ENCW and WRITE (R71 to R74, R78) -/

/-- Bounds that exclude the masked data close the gate (R72). -/
theorem not_gatePasses_of_not_inBounds {bank : BankSel} {chan : ChanSel} {b : Bank} {c : Chan} {d : Code}
    (hval : s.cfg.validate = true) (hc : Concrete s.cfg bank chan b c) (hb : ¬ s.InBounds b c d) :
    ¬ s.GatePasses bank chan d :=
  fun hgate => hb (hgate hval b c hc)

/-- Settles O28: ENCW and WRITE raise the error of `encw`, one for each check. -/
theorem writeErrorsInOrder : Obligations.WriteErrorsInOrder := by
  refine fun s reg bank chan d0 i hi => ⟨fun hs => ?_, fun hs hr => ?_, fun hs hr hv => ?_,
    fun b c hs hr hval hc hb => ?_⟩
  · exact exec_encw_write_of_error hi (encodeWrite_unsupported hs)
  · subst hr
    exact exec_encw_write_of_error hi (encodeWrite_unrecognised hs)
  · exact exec_encw_write_of_error hi (encodeWrite_invalid hs hr hv)
  · exact exec_encw_write_of_error hi
      (encodeWrite_outOfRange hs hr (.inl ⟨b, c, hc⟩) (not_gatePasses_of_not_inBounds hval hc hb))

/-- ENCW answers the word that `encw` yields (R74). -/
theorem exec_encw_of_ok {reg : RegSel} {bank : BankSel} {chan : ChanSel} {d0 : Code} {e : WriteWord}
    (h : encodeWrite s reg bank chan d0 = .ok e) :
    exec (.encw reg bank chan d0) s = .next (s.finish (.ok (.word e.word))) := by
  rw [exec, execEncw, h]
  rfl

/-- WRITE stores and emits what `encw` yields, and answers its word (R78). -/
theorem exec_write_of_ok {reg : RegSel} {bank : BankSel} {chan : ChanSel} {d0 : Code} {e : WriteWord}
    (h : encodeWrite s reg bank chan d0 = .ok e) :
    exec (.write reg bank chan d0) s = .next ((s.commitWrite e).finish (.ok (.word e.word))) := by
  rw [exec, execWrite, h]
  rfl

/-- Settles O30: both requests end with what `encw` yields, its word or its error. -/
theorem encwPredictsWrite : Obligations.EncwPredictsWrite := by
  intro s reg bank chan d0
  cases he : encodeWrite s reg bank chan d0 with
  | ok e =>
    refine ⟨_, _, exec_encw_of_ok he, exec_write_of_ok he, rfl, rfl, fun w hw => ?_⟩
    cases hw
    exact s.commitWrite_events e
  | error e =>
    refine ⟨_, _, exec_encw_write_of_error (by simp) he, exec_encw_write_of_error (by simp) he, rfl, rfl,
      fun w hw => ?_⟩
    cases hw

/-! ### ENCR under R75's table (R75 to R77) -/

/-- ENCR answers the word that `encr` yields (R77). -/
theorem exec_encr_of_ok {rsel : ReadName} {bank : BankSel} {chan : ChanSel} {w : CmdWord}
    (h : encodeRead s.cfg rsel bank chan = .ok w) :
    exec (.encr rsel bank chan) s = .next { s with result := some (.ok (.word w)) } := by
  rw [exec, execEncr, h]
  rfl

/-- ENCR of a device name answers the word around its field, at every bank and channel (R75, R76). -/
theorem exec_encr_device {T : ReadSel} {rsel : ReadName} {bank : BankSel} {chan : ChanSel} {f : BitVec 16}
    {w : CmdWord} (hT : s.cfg.readSel = T) (hf : rsel.device T = some f) (hw : readWord f = w) :
    exec (.encr rsel bank chan) s = .next { s with result := some (.ok (.word w)) } := by
  subst hT hw
  exact exec_encr_of_ok (encodeRead_device hf bank chan)

/-- A recommended per-channel field is G in F[15:13] and the address's ADDR number in F[12:7] (R75). -/
theorem channelFields_at_toNat {cfg : Cfg} {bank : BankSel} {chan : ChanSel} {b : Bank} {c : Chan} (g : BitVec 3)
    (hc : Concrete cfg bank chan b c) :
    ((ReadSel.channelFields g).at b c).toNat = g.toNat * 2 ^ 13 + addrNumber bank chan * 2 ^ 7 := by
  obtain ⟨a, ha, hfield⟩ := ReadSel.channelFields_at g b c
  have hnum : a.toNat = addrNumber bank chan := by simpa [ha] using concrete_addrNumber hc
  rw [hfield, readSelField_toNat, hnum]

/-- ENCR of a name with recommended per-channel fields answers 5 in ADDR, its G, and the address's ADDR number (R46,
R75). -/
theorem exec_encr_channelFields {T : ReadSel} {rsel : ReadName} {g : BitVec 3} {bank : BankSel} {chan : ChanSel}
    {b : Bank} {c : Chan} {n : Nat} (hT : s.cfg.readSel = T) (hf : rsel.perChannel T = some (ReadSel.channelFields g))
    (hn : 5 * 2 ^ 16 + g.toNat * 2 ^ 13 = n) (hc : Concrete s.cfg bank chan b c) :
    exec (.encr rsel bank chan) s =
      .next { s with result := some (.ok (.word (BitVec.ofNat 24 (n + addrNumber bank chan * 2 ^ 7)))) } := by
  subst hT hn
  have hword : readWord ((ReadSel.channelFields g).at b c) =
      BitVec.ofNat 24 (5 * 2 ^ 16 + g.toNat * 2 ^ 13 + addrNumber bank chan * 2 ^ 7) := by
    rw [Nat.add_assoc, ← channelFields_at_toNat g hc, ← readWord_toNat, BitVec.ofNat_toNat, BitVec.setWidth_eq]
  rw [← hword]
  exact exec_encr_of_ok (encodeRead_channel hf hc)

/-- Settles O33: each name's field in the recommended table, in R46's frame. -/
theorem recommendedReadbackWords : Obligations.RecommendedReadbackWords := by
  refine fun s bank chan hT => ⟨fun p hp => ?_, fun b c hc p hp => ?_⟩ <;>
    simp only [List.mem_cons, List.not_mem_nil, or_false] at hp
  · rcases hp with rfl | rfl | rfl | rfl | rfl | rfl <;> exact exec_encr_device hT rfl rfl
  · rcases hp with rfl | rfl | rfl | rfl <;> exact exec_encr_channelFields hT rfl rfl hc

end Sys2Proof.Machine

/-! ## Proofs of 43_transactions.md: WRITE and WRITEV, LOAD, CLEAR and RESET -/

namespace Sys2Proof.Machine

variable {s : State}

/-! ### WRITE (R78) -/

/-- A register write changes the three code tables and the history at most (R78, R99). -/
theorem State.commitWrite_frame (s : State) (e : WriteWord) :
    s.commitWrite e =
      { s with dac := (s.commitWrite e).dac, off := (s.commitWrite e).off, gain := (s.commitWrite e).gain,
               events := s.events ++ [.cmd e.word] } :=
  congrArg (State.emit · (.cmd e.word)) (s.storeAll_frame e.kind e.cls e.value)

/-- Settles O27: WRITE commits what `encw` yields, the masked code in the targets and the word. -/
theorem writeStoresAndEmits : Obligations.WriteStoresAndEmits := by
  intro s reg k bank chan d0 hs hk hv hg
  obtain ⟨e, he, rfl, hcls, hval, hword⟩ := encodeWrite_ok hs hk hv hg
  have stored : ∀ k', ((s.commitWrite e).finish (.ok (.word e.word))).store k' =
      (s.storeAll e.kind (classify s.cfg bank chan) (s.cfg.mask d0)).store k' := by
    intro k'
    rw [State.finish_store, State.commitWrite, State.emit_store, hcls, hval]
  refine ⟨e.word, _, hword, exec_write_of_ok he, ?_, fun k' hk' => ?_, fun b c hc hcov => ?_, fun b c _ hcov => ?_⟩
  · exact congrArg (State.finish · (.ok (.word e.word))) (s.commitWrite_frame e)
  · rw [stored, State.storeAll_store, if_neg hk']
  · rw [stored, storeAll_store_covered hv e.kind _ hc hcov, Cfg.mask_toNat]
  · rw [stored, storeAll_store_uncovered hv e.kind _ hcov]

/-! ### WRITEV (R79) -/

/-- A code of the forward function is inside the bounds as it stands: masking leaves it (R64, R72). -/
theorem State.inBounds_iff_of_v2c {b : Bank} {c : Chan} {v : Volts} {code : Code} (h : s.v2c b c v = some code) :
    s.InBounds b c code ↔ (s.min.at b c).toNat ≤ code.toNat ∧ code.toNat ≤ (s.max.at b c).toNat := by
  rw [State.InBounds, ← Cfg.mask_toNat, mask_of_le (State.v2c_le b c h)]

/-- At a concrete address the gate asks for the bounds of its one channel (R72). -/
theorem State.gatePasses_iff_of_concrete {bank : BankSel} {chan : ChanSel} {b : Bank} {c : Chan}
    (hc : Concrete s.cfg bank chan b c) (d : Code) :
    s.GatePasses bank chan d ↔ (s.cfg.validate = true → s.InBounds b c d) := by
  refine forall_congr' fun _ => ⟨fun hgate => hgate b c hc, fun hin b' c' hc' => ?_⟩
  obtain ⟨rfl, rfl⟩ := concrete_unique hc hc'
  exact hin

/-- Settles O34: the gate decides on the converted code as it stands. -/
theorem writevConvertsStoresAndEmits : Obligations.WritevConvertsStoresAndEmits := by
  intro s bank chan b c v v' code hs hc ha hcode
  have inBounds := State.inBounds_iff_of_v2c hcode
  refine ⟨fun hin => ?_, fun hval hout => ?_⟩
  · have hgate := (State.gatePasses_iff_of_concrete hc code).mpr fun hval => inBounds.mpr (hin hval)
    exact exec_writev_of_gatePasses hs hc ha hcode hgate
  · have hnot : ¬ s.InBounds b c code := by
      rw [inBounds]
      omega
    exact execWritev_of_error hs hc ha hcode
      (encodeWrite_outOfRange hs RegSel.noConfusion (.inl ⟨b, c, hc⟩) (not_gatePasses_of_not_inBounds hval hc hnot))

/-! ### LOAD (R81) -/

/-- Settles O36: LOAD checks nothing. -/
theorem loadAppendsLoadPulse : Obligations.LoadAppendsLoadPulse :=
  fun _ => rfl

/-! ### CLEAR (R82)

No request reads the history or the result port: with another past behind the history, and another result on the port, a
request does what it does without them. The past is put in front of the events, so that what the request appends stays
behind it. -/

/-- The state with `past` in front of its history and the result port at `r`. -/
def State.withPast (s : State) (past : List Event) (r : Option Result) : State :=
  { s with events := past ++ s.events, result := r }

@[simp] theorem State.withPast_cfg (past : List Event) (r : Option Result) : (s.withPast past r).cfg = s.cfg := rfl
@[simp] theorem State.withPast_min (past : List Event) (r : Option Result) : (s.withPast past r).min = s.min := rfl
@[simp] theorem State.withPast_max (past : List Event) (r : Option Result) : (s.withPast past r).max = s.max := rfl
@[simp] theorem State.withPast_gofs (past : List Event) (r : Option Result) : (s.withPast past r).gofs = s.gofs := rfl
@[simp] theorem State.withPast_vref (past : List Event) (r : Option Result) : (s.withPast past r).vref = s.vref := rfl
@[simp] theorem State.withPast_v2c (past : List Event) (r : Option Result) : (s.withPast past r).v2c = s.v2c := rfl
@[simp] theorem State.withPast_c2v (past : List Event) (r : Option Result) : (s.withPast past r).c2v = s.c2v := rfl
@[simp] theorem encodeWrite_withPast (past : List Event) (r : Option Result) :
    encodeWrite (s.withPast past r) = encodeWrite s := rfl
@[simp] theorem State.withPast_store (past : List Event) (r : Option Result) (k : RegKind) :
    (s.withPast past r).store k = s.store k := by
  cases k <;> rfl

/-- An answer with `past` in front of its history. -/
def prependHistory (past : List Event) : Out → Out
  | .next t => .next { t with events := past ++ t.events }
  | .fault f => .fault f
  | .refused x => .refused x

/-- The meaning reads neither the history nor the result port, and where it answers it writes the result port. -/
def IgnoresPast (f : State → Out) : Prop :=
  ∀ s past r, f (s.withPast past r) = prependHistory past (f s)

theorem ignoresPast_ok (v : Value) : IgnoresPast (ok v) := fun _ _ _ => rfl
theorem ignoresPast_raise (e : ErrKind) : IgnoresPast (raise e) := fun _ _ _ => rfl
theorem ignoresPast_numericDomain : IgnoresPast numericDomain := fun _ _ _ => rfl

/-- The update does its work whatever the past is. -/
def KeepsPast (g : State → State) : Prop := ∀ s past r, g (s.withPast past r) = (g s).withPast past r

theorem IgnoresPast.ok_update {g : State → State} (hg : KeepsPast g) (v : Value) : IgnoresPast fun u => ok v (g u) :=
  fun s past r => congrArg (ok v) (hg s past r)

theorem keepsPast_emit (ev : Event) : KeepsPast (·.emit ev) := by
  intro s past r
  simp [State.emit, State.withPast]

theorem keepsPast_storeAll (k : RegKind) (cls : AddrClass) (v : Code) : KeepsPast (·.storeAll k cls v) := by
  intro s past r
  cases k <;> rfl

theorem keepsPast_commitWrite (e : WriteWord) : KeepsPast (·.commitWrite e) := by
  intro s past r
  simp only [State.commitWrite, keepsPast_storeAll _ _ _ s past r, keepsPast_emit _ _ past r]

theorem keepsPast_reset : KeepsPast fun u => (u.emit .resetPulse).restore :=
  fun s past r => congrArg State.restore (keepsPast_emit .resetPulse s past r)

/-- The check of RES, which comes first in the requests on codes (R84, R88). -/
theorem ignoresPast_supported {f : State → Out} (hf : IgnoresPast f) :
    IgnoresPast fun u => if u.cfg.supported then f u else raise .unsupportedResolution u := by
  intro s past r
  by_cases hs : s.cfg.supported = true
  · simp only [State.withPast_cfg, hs, if_true, hf s past r]
  · simp only [State.withPast_cfg, hs]
    rfl

/-- A request that takes a voltage ignores the past if what it does with the voltage does. -/
theorem ignoresPast_withVolts {f : Volts → State → Out} (hf : ∀ v', IgnoresPast (f v')) (v : Volts) :
    IgnoresPast fun u => withVolts v u fun v' => f v' u := by
  intro s past r
  simp only [withVolts, State.withPast_cfg]
  split
  · exact hf _ s past r
  · rfl

theorem ignoresPast_get (reg : RegSel) (bank : BankSel) (chan : ChanSel) : IgnoresPast (execGet reg bank chan) := by
  refine ignoresPast_supported fun s past r => ?_
  simp only [State.withPast_cfg, State.withPast_store]
  split
  · rfl
  · split <;> rfl

theorem ignoresPast_set (reg : RegSel) (bank : BankSel) (chan : ChanSel) (d0 : Code) :
    IgnoresPast (execSet reg bank chan d0) := by
  refine ignoresPast_supported fun s past r => ?_
  simp only [State.withPast_cfg]
  split
  · rfl
  · split
    · rfl
    · exact IgnoresPast.ok_update (keepsPast_storeAll _ _ _) .unit s past r

theorem ignoresPast_getgofs (bank : BankSel) : IgnoresPast (execGetgofs bank) := by
  refine ignoresPast_supported fun s past r => ?_
  simp only [State.withPast_gofs]
  split <;> rfl

theorem ignoresPast_getbounds (bank : BankSel) (chan : ChanSel) : IgnoresPast (execGetbounds bank chan) := by
  refine ignoresPast_supported fun s past r => ?_
  simp only [State.withPast_cfg, State.withPast_min, State.withPast_max]
  split <;> rfl

theorem ignoresPast_setbounds (bank : BankSel) (chan : ChanSel) (d0 d1 : Code) :
    IgnoresPast (execSetbounds bank chan d0 d1) := by
  refine ignoresPast_supported fun s past r => ?_
  simp only [State.withPast_cfg]
  split <;> rfl

theorem ignoresPast_getref (bank : BankSel) : IgnoresPast (execGetref bank) := by
  intro s past r
  simp only [execGetref, State.withPast_vref]
  split <;> rfl

theorem ignoresPast_setref (bank : BankSel) (v : Volts) : IgnoresPast (execSetref bank v) := by
  refine ignoresPast_withVolts (fun v' s past r => ?_) v
  cases bank.single <;> rfl

theorem ignoresPast_v2c (bank : BankSel) (chan : ChanSel) (v : Volts) : IgnoresPast (execV2c bank chan v) := by
  refine ignoresPast_withVolts (fun v' => ignoresPast_supported fun s past r => ?_) v
  simp only [State.withPast_cfg, State.withPast_v2c]
  split
  · split <;> rfl
  · rfl

theorem ignoresPast_c2v (bank : BankSel) (chan : ChanSel) (d0 : Code) : IgnoresPast (execC2v bank chan d0) := by
  refine ignoresPast_supported fun s past r => ?_
  simp only [State.withPast_cfg, State.withPast_c2v]
  split
  · split <;> rfl
  · rfl

theorem ignoresPast_encw (reg : RegSel) (bank : BankSel) (chan : ChanSel) (d0 : Code) :
    IgnoresPast (execEncw reg bank chan d0) := by
  intro s past r
  simp only [execEncw, encodeWrite_withPast]
  split <;> rfl

theorem ignoresPast_encr (rsel : ReadName) (bank : BankSel) (chan : ChanSel) : IgnoresPast (execEncr rsel bank chan) := by
  intro s past r
  simp only [execEncr, State.withPast_cfg]
  split <;> rfl

theorem ignoresPast_write (reg : RegSel) (bank : BankSel) (chan : ChanSel) (d0 : Code) :
    IgnoresPast (execWrite reg bank chan d0) := by
  intro s past r
  simp only [execWrite, encodeWrite_withPast]
  split
  · exact IgnoresPast.ok_update (keepsPast_commitWrite _) _ s past r
  · rfl

theorem ignoresPast_writev (bank : BankSel) (chan : ChanSel) (v : Volts) : IgnoresPast (execWritev bank chan v) := by
  refine ignoresPast_withVolts (fun v' => ignoresPast_supported fun s past r => ?_) v
  simp only [State.withPast_cfg, State.withPast_v2c, encodeWrite_withPast]
  split
  · split
    · rfl
    · split
      · exact IgnoresPast.ok_update (keepsPast_commitWrite _) _ s past r
      · rfl
  · rfl

theorem ignoresPast_readreq (rsel : ReadName) (bank : BankSel) (chan : ChanSel) :
    IgnoresPast (execReadreq rsel bank chan) := by
  intro s past r
  simp only [execReadreq, State.withPast_cfg]
  split
  · exact IgnoresPast.ok_update (keepsPast_emit _) _ s past r
  · rfl

theorem ignoresPast_reset : IgnoresPast execReset :=
  ignoresPast_supported (IgnoresPast.ok_update keepsPast_reset .unit)

/-- No request reads the history or the result port (R16, R41). -/
theorem ignoresPast_exec {i : Instr} (hi : i.isRequest = true) : IgnoresPast (exec i) := by
  cases i with
  | get reg bank chan => exact ignoresPast_get reg bank chan
  | set reg bank chan d0 => exact ignoresPast_set reg bank chan d0
  | getgofs bank => exact ignoresPast_getgofs bank
  | getbounds bank chan => exact ignoresPast_getbounds bank chan
  | setbounds bank chan d0 d1 => exact ignoresPast_setbounds bank chan d0 d1
  | getref bank => exact ignoresPast_getref bank
  | setref bank v => exact ignoresPast_setref bank v
  | v2c bank chan v => exact ignoresPast_v2c bank chan v
  | c2v bank chan d0 => exact ignoresPast_c2v bank chan d0
  | encw reg bank chan d0 => exact ignoresPast_encw reg bank chan d0
  | encr rsel bank chan => exact ignoresPast_encr rsel bank chan
  | write reg bank chan d0 => exact ignoresPast_write reg bank chan d0
  | writev bank chan v => exact ignoresPast_writev bank chan v
  | readreq rsel bank chan => exact ignoresPast_readreq rsel bank chan
  | load => exact IgnoresPast.ok_update (keepsPast_emit .loadPulse) .unit
  | clear flag => exact IgnoresPast.ok_update (keepsPast_emit (.clear flag)) .unit
  | reset => exact ignoresPast_reset
  | _ => cases hi

/-- An answer with `past` in front comes from an answer without. -/
theorem prependHistory_next {past : List Event} {o : Out} {t : State} (h : prependHistory past o = .next t) :
    ∃ u, o = .next u ∧ t = { u with events := past ++ u.events } := by
  cases o with
  | next u => exact ⟨u, rfl, (Host.Outcome.next.inj h).symm⟩
  | fault f => cases h
  | refused x => cases h

/-- A request that answers appends some events, and with any other history and result port it appends the same and does
the rest alike. -/
theorem exec_request_appends {i : Instr} {u : State} (hi : i.isRequest = true) (h : exec i s = .next u) :
    ∃ evs, u.events = s.events ++ evs ∧ ∀ past r,
      exec i { s with events := past, result := r } = .next { u with events := past ++ evs } := by
  have fresh : ∀ past r, exec i { s with events := past, result := r } =
      prependHistory past (exec i { s with events := [] }) := by
    intro past r
    rw [← ignoresPast_exec hi _ past r, State.withPast, List.append_nil]
  obtain ⟨v, hv, rfl⟩ := prependHistory_next ((fresh s.events s.result).symm.trans h)
  exact ⟨v.events, rfl, fun past r => by rw [fresh, hv, prependHistory]⟩

/-- CLEAR appends its level in every state (R82). -/
theorem exec_clear (f : Bool) (s : State) :
    exec (.clear f) s = .next { s with events := s.events ++ [.clear f], result := some (.ok .unit) } := rfl

/-- Settles O37: a request after CLEAR finds another history and result port, and nothing else changed. -/
theorem clearAppendsLevel : Obligations.ClearAppendsLevel := by
  refine fun s f => ⟨exec_clear f s, fun t ht => ?_, fun t ht i u hi hu => ?_⟩ <;>
    obtain rfl := Host.Outcome.next.inj ((exec_clear f s).symm.trans ht)
  · rw [exec_clear, List.append_assoc, List.singleton_append]
  · obtain ⟨evs, hevs, hother⟩ := exec_request_appends hi hu
    exact ⟨evs, hevs, hother _ _⟩

/-! ### RESET (R83) -/

/-- With a supported resolution RESET answers the pulse and the defaults (R83). -/
theorem execReset_supported (hs : s.cfg.supported = true) :
    execReset s = ok .unit (s.emit .resetPulse).restore :=
  if_pos hs

/-- Settles O38: every table is filled with its default below NCH, and both banks of the other two entries. -/
theorem resetRestoresEveryEntry : Obligations.ResetRestoresEveryEntry := by
  refine fun s => ⟨exec_unsupported_next rfl, fun hs => ⟨_, execReset_supported hs, rfl, fun b c hc => ?_, fun b => ?_⟩⟩
  · have filled : ∀ (tb : Table) (v : Code), (tb.fill (allTargets s.cfg) v).at b c = v :=
      fun tb v => (at_fill_allTargets tb s.cfg v b c).trans (if_pos hc)
    exact ⟨filled _ _, filled _ _, filled _ _, filled _ _, filled _ _⟩
  · exact ⟨PerBank.read_both _ b, PerBank.read_both _ b⟩

end Sys2Proof.Machine

/-! ## Proofs of 60_exceptions.md: refusals, the fault NumericDomain, errors, completion, and the marks -/

namespace Sys2Proof

/-! ### Reserved headers (R47) -/

/-- A reserved op or nonzero reserved bits spell no request (R47). -/
theorem decodeFields_reserved {f : HeaderFields}
    (h : f.op.toNat = 0 ∨ 0x12 ≤ f.op.toNat ∨ f.reserved ≠ 0) (d0 d1 : Code) (v : Volts) :
    ∃ e, decodeFields f d0 d1 v = .error e := by
  unfold decodeFields
  dsimp only
  split
  next hzero =>
    have hop : f.op.toNat = 0 ∨ 0x12 ≤ f.op.toNat := h.imp_right fun h' => h'.resolve_right (not_not.mpr hzero)
    split
    case h_18 => exact ⟨_, rfl⟩
    all_goals omega
  next => exact ⟨_, rfl⟩

/-- Every other header spells a request (R34). -/
theorem decodeFields_row {f : HeaderFields} (hlow : 1 ≤ f.op.toNat) (hhigh : f.op.toNat ≤ 0x11)
    (hzero : f.reserved = 0) (d0 d1 : Code) (v : Volts) : ∃ i, decodeFields f d0 d1 v = .ok i := by
  unfold decodeFields
  dsimp only
  rw [if_pos hzero]
  generalize f.op.toNat = op at hlow hhigh
  interval_cases op <;> exact ⟨_, rfl⟩

/-! ### Zeros of a format (R9) -/

theorem NumFmt.isZero_zero (f : NumFmt) (neg : Bool) : (f.zero neg).isZero = true := by
  unfold NumFmt.zero
  split <;> rfl

/-- In every format, zero over a number that is not zero is a zero. -/
theorem NumFmt.isZero_zero_div (f : NumFmt) {q : ℚ} (hq : q ≠ 0) : (f.div (.fin 0) (.fin q)).isZero = true := by
  simp [NumFmt.div, hq, NumFmt.isZero_zero]

end Sys2Proof

namespace Sys2Proof.Machine

variable {s t : State}

/-! ### Refused requests (R87) -/

/-- Settles O6: the decoder refuses exactly the reserved headers, and a step refuses what the decoder refuses. -/
theorem reservedRequestsAreRefused : Obligations.ReservedRequestsAreRefused := by
  intro s h d0 d1 v rest hin
  refine ⟨fun hres => ⟨?_, rfl⟩, fun hlow hhigh hzero => decodeFields_row hlow hhigh hzero d0 d1 v⟩
  obtain ⟨e, he⟩ := decodeFields_reserved (f := unpackHeader h) hres d0 d1 v
  rw [step_cons hin, stepInput_request_error he]
  rfl

/-! ### The fault NumericDomain (R17, R64, R86) -/

/-- A gain code one below the default gives the slope zero in every format (R60, R61). -/
theorem State.isZero_mm_of_gain {b : Bank} {c : Chan} (h : (s.gain.at b c).toNat + 1 = s.cfg.defGain.toNat) :
    (s.mm b c).isZero = true := by
  have htg : s.tg b c + 1 = 0 := by
    rw [State.tg, substDefault]
    split <;> omega
  have hpow : ((2 ^ s.cfg.res : Int) : ℚ) ≠ 0 := by
    push_cast
    exact two_pow_ne_zero _
  rw [State.mm, htg]
  exact NumFmt.isZero_zero_div _ hpow

/-- A NaN for `dac` makes `x` a NaN (R9, R64). -/
theorem State.unclamped_of_dacCode_nan {b : Bank} {v : Volts} (h : s.dacCode b v = .nan) (c : Chan) :
    s.unclamped b c v = .nan := by
  simp only [State.unclamped, h, NumFmt.sub, NumFmt.add, NumFmt.div]

/-- The three cases in which the forward function faults (R64, R86). -/
theorem State.v2c_eq_none {b : Bank} {c : Chan} {v : Volts}
    (h : (s.vref.read b).isZero = true ∨ (s.mm b c).isZero = true ∨ s.unclamped b c v = .nan) :
    s.v2c b c v = none := by
  unfold State.v2c
  split
  · rfl
  next hvref =>
    split
    · rfl
    next hmm =>
      have hx : s.unclamped b c v = .nan := (h.resolve_left hvref).resolve_left hmm
      rw [hx]
      rfl

/-- Where the forward function faults, WRITEV faults before anything is encoded (R79, R86). -/
theorem execWritev_of_none {bank : BankSel} {chan : ChanSel} {b : Bank} {c : Chan} {v v' : Volts}
    (hs : s.cfg.supported = true) (hc : Concrete s.cfg bank chan b c) (ha : s.cfg.fmt.accept v = some v')
    (hnone : s.v2c b c v' = none) : execWritev bank chan v s = numericDomain s := by
  simp only [execWritev, withVolts_some ha, hs, if_true, classify_of_concrete hc, hnone]

theorem execV2c_of_none {bank : BankSel} {chan : ChanSel} {b : Bank} {c : Chan} {v v' : Volts}
    (hs : s.cfg.supported = true) (hc : Concrete s.cfg bank chan b c) (ha : s.cfg.fmt.accept v = some v')
    (hnone : s.v2c b c v' = none) : execV2c bank chan v s = numericDomain s := by
  rw [execV2c_concrete hs hc ha, hnone]
  rfl

/-- The one fault reason stays on the mark: a set mark is not cleared, and there is no other reason (R17). -/
theorem step_keeps_numericDomain (hf : s.fault = some .numericDomain) (h : step s = .next t) :
    t.fault = some .numericDomain := by
  have hset : t.fault ≠ none := (step_marks_kept h).1 (by simp [hf])
  obtain ⟨f, hf'⟩ := Option.ne_none_iff_exists'.mp hset
  cases f
  exact hf'

/-- Settles O17: in each case the forward function yields no code, so both requests fault. -/
theorem numericDomainFaults : Obligations.NumericDomainFaults := by
  refine ⟨fun s bank chan b c v v' hs hc ha hcase => ?_, fun s t => step_keeps_numericDomain⟩
  have hnone : s.v2c b c v' = none := by
    apply State.v2c_eq_none
    rcases hcase with hvref | hgain | hdac | hx
    · exact .inl hvref
    · exact .inr (.inl (State.isZero_mm_of_gain hgain))
    · exact .inr (.inr (State.unclamped_of_dacCode_nan hdac c))
    · exact .inr (.inr hx)
  exact ⟨execV2c_of_none hs hc ha hnone, execWritev_of_none hs hc ha hnone, rfl⟩

/-! ### Completion (R85, R86, R91) -/

/-- The voltage of a well-formed request is taken as it stands (R9, R40). -/
theorem accept_of_wf {cfg : Cfg} {i : Instr} {v : Volts} (hv : TakesVolts i v) (hwf : i.wf cfg = true) :
    cfg.fmt.accept v = some v := by
  rcases hv with ⟨bank, rfl⟩ | ⟨bank, chan, rfl⟩ | ⟨bank, chan, rfl⟩ <;> exact accept_of_admits hwf

theorem isRequest_of_encode {i : Instr} {h : Header} {d0 d1 : Code} {v : Volts} (hi : encode i = .request h d0 d1 v) :
    i.isRequest = true := by
  rw [Instr.isRequest, hi]

/-- Settles O46: a form's word is emitted, a voltage is taken, and every other request answers anyway. -/
theorem everyWellFormedInstructionCompletes : Obligations.EveryWellFormedInstructionCompletes := by
  intro s i hwf
  cases hi : encode i with
  | cmdWord w =>
    rw [exec_of_encode_cmdWord hi]
    exact ⟨_, sendCommand_emitted (emits_of_wf hi hwf)⟩
  | request h d0 d1 u =>
    by_cases hv : ∃ v, TakesVolts i v
    · obtain ⟨v, hv⟩ := hv
      exact exec_takesVolts_some hv (accept_of_wf hv hwf)
    · exact exec_answers_of_no_volts (isRequest_of_encode hi) (not_exists.mp hv) s

/-! ### Errors (R84, R85) -/

/-- An effect that puts an error on an empty result port has done nothing else. -/
theorem Effect.eq_finish_of_err {e : ErrKind} (h : Effect s t) (hblank : s.result = none)
    (herr : t.result = some (.err e)) : t = s.finish (.err e) := by
  cases h with
  | result r ht =>
    subst ht
    cases herr
    rfl
  | sent w _ ht =>
    subst ht
    rw [State.emit_result, hblank] at herr
    cases herr
  | _ =>
    subst_vars
    cases herr

/-- A request that answers does not read the result port, so from the empty port it answers the same state. -/
theorem exec_blank_result {i : Instr} (hi : i.isRequest = true) (h : exec i s = .next t) :
    exec i { s with result := none } = .next t := by
  obtain ⟨evs, hevs, hother⟩ := exec_request_appends hi h
  rw [hother s.events none, ← hevs]

/-- A request that ends in an error writes its status and nothing else (R85). -/
theorem exec_err_next {i : Instr} {e : ErrKind} (hi : i.isRequest = true) (h : exec i s = .next t)
    (herr : t.result = some (.err e)) : t = s.finish (.err e) :=
  (exec_effect (exec_blank_result hi h)).eq_finish_of_err rfl herr

theorem prependHistory_nil (o : Out) : prependHistory [] o = o := by
  cases o <;> rfl

/-- No request sees what the last one ended with (R41). -/
theorem exec_finish {j : Instr} (hj : j.isRequest = true) (s : State) (r : Result) :
    exec j (s.finish r) = exec j s :=
  (ignoresPast_exec hj s [] (some r)).trans (prependHistory_nil _)

theorem ErrKind.status_bounds (e : ErrKind) : 1 ≤ e.status ∧ e.status ≤ 4 := by
  cases e <;> decide

/-- Settles O48: an error writes the result port alone, which no later request reads. -/
theorem errorsChangeNothing : Obligations.ErrorsChangeNothing := by
  intro s t i e hi h herr
  obtain rfl := exec_err_next hi h herr
  exact ⟨rfl, e.status_bounds.1, e.status_bounds.2, fun j hj => exec_finish hj s _⟩

/-! ### The marks (R17, R91)

No instruction reads a mark: from states that differ in the marks it ends in states that differ in the marks, or is
refused alike. -/

/-- The state with other marks. -/
def State.withMarks (s : State) (f : Option Fault) (r : Bool) : State := { s with fault := f, refused := r }

@[simp] theorem State.withMarks_cfg (f : Option Fault) (r : Bool) : (s.withMarks f r).cfg = s.cfg := rfl
@[simp] theorem State.withMarks_v2c (f : Option Fault) (r : Bool) : (s.withMarks f r).v2c = s.v2c := rfl
@[simp] theorem State.withMarks_c2v (f : Option Fault) (r : Bool) : (s.withMarks f r).c2v = s.c2v := rfl
@[simp] theorem encodeWrite_withMarks (f : Option Fault) (r : Bool) : encodeWrite (s.withMarks f r) = encodeWrite s := rfl
@[simp] theorem State.withMarks_store (f : Option Fault) (r : Bool) (k : RegKind) :
    (s.withMarks f r).store k = s.store k := by
  cases k <;> rfl

/-- The same answer but for the marks, or the same refusal. -/
inductive AlikeButMarks : Out → Out → Prop where
  | next (t : State) (f : Option Fault) (r : Bool) : AlikeButMarks (.next t) (.next (t.withMarks f r))
  | refused (x : Refusal) : AlikeButMarks (.refused x) (.refused x)

/-- The marks do not steer the meaning. -/
def IgnoresMarks (g : State → Out) : Prop := ∀ s f r, AlikeButMarks (g s) (g (s.withMarks f r))

/-- An update that leaves the marks, with a result that does not depend on them. -/
theorem ignoresMarks_ok {x : State → Value} {g : State → State} (hx : ∀ s f r, x (s.withMarks f r) = x s)
    (hg : ∀ s f r, g (s.withMarks f r) = (g s).withMarks f r) : IgnoresMarks fun u => ok (x u) (g u) := by
  intro s f r
  simp only [hx, hg]
  exact .next _ f r

theorem ignoresMarks_result {x : State → Value} (hx : ∀ s f r, x (s.withMarks f r) = x s) :
    IgnoresMarks fun u => ok (x u) u :=
  ignoresMarks_ok hx fun _ _ _ => rfl

theorem ignoresMarks_raise (e : ErrKind) : IgnoresMarks (raise e) := fun _ f r => .next _ f r

theorem ignoresMarks_numericDomain : IgnoresMarks numericDomain := fun _ _ r => .next _ (some .numericDomain) r

theorem ignoresMarks_emit (x : Value) (ev : Event) : IgnoresMarks fun u => ok x (u.emit ev) :=
  ignoresMarks_ok (fun _ _ _ => rfl) fun _ _ _ => rfl

theorem ignoresMarks_storeAll (k : RegKind) (cls : AddrClass) (v : Code) :
    IgnoresMarks fun u => ok .unit (u.storeAll k cls v) :=
  ignoresMarks_ok (fun _ _ _ => rfl) fun _ _ _ => by cases k <;> rfl

theorem ignoresMarks_commitWrite (x : Value) (e : WriteWord) : IgnoresMarks fun u => ok x (u.commitWrite e) :=
  ignoresMarks_ok (fun _ _ _ => rfl) fun s f r => by
    rw [State.commitWrite, State.commitWrite]
    cases e.kind <;> rfl

theorem ignoresMarks_sendCommand (w : CmdWord) : IgnoresMarks (sendCommand w) := by
  intro s f r
  unfold sendCommand
  rw [State.withMarks_cfg]
  split
  · exact .next _ f r
  · exact .refused _

/-- The check of RES (R84, R88). -/
theorem ignoresMarks_supported {g : State → Out} (hg : IgnoresMarks g) :
    IgnoresMarks fun u => if u.cfg.supported then g u else raise .unsupportedResolution u := by
  intro s f r
  dsimp only
  rw [State.withMarks_cfg]
  split
  · exact hg s f r
  · exact ignoresMarks_raise _ s f r

/-- The operand V is taken by the configuration (R40). -/
theorem ignoresMarks_withVolts {g : Volts → State → Out} (hg : ∀ v', IgnoresMarks (g v')) (v : Volts) :
    IgnoresMarks fun u => withVolts v u fun v' => g v' u := by
  intro s f r
  cases ha : s.cfg.fmt.accept v with
  | none => simpa only [withVolts, State.withMarks_cfg, ha] using .refused _
  | some v' => simpa only [withVolts, State.withMarks_cfg, ha] using hg v' s f r

/-- The check that the address is concrete (R52). -/
theorem ignoresMarks_concrete {g : Bank → Chan → State → Out} (hg : ∀ b c, IgnoresMarks (g b c)) (bank : BankSel)
    (chan : ChanSel) :
    IgnoresMarks fun u =>
      match classify u.cfg bank chan with
      | .concrete b c => g b c u
      | _ => raise .invalidAddress u := by
  intro s f r
  dsimp only
  rw [State.withMarks_cfg]
  split
  · exact hg _ _ s f r
  · exact ignoresMarks_raise _ s f r

theorem ignoresMarks_get (reg : RegSel) (bank : BankSel) (chan : ChanSel) : IgnoresMarks (execGet reg bank chan) := by
  refine ignoresMarks_supported ?_
  cases reg.kind with
  | none => exact ignoresMarks_raise _
  | some k => exact ignoresMarks_concrete (fun b c => ignoresMarks_result fun s f r => by simp) bank chan

theorem ignoresMarks_set (reg : RegSel) (bank : BankSel) (chan : ChanSel) (d0 : Code) :
    IgnoresMarks (execSet reg bank chan d0) := by
  refine ignoresMarks_supported ?_
  cases reg.kind with
  | none => exact ignoresMarks_raise _
  | some k =>
    intro s f r
    simp only [State.withMarks_cfg]
    split
    · exact ignoresMarks_raise _ s f r
    · exact ignoresMarks_storeAll k _ _ s f r

theorem ignoresMarks_getgofs (bank : BankSel) : IgnoresMarks (execGetgofs bank) := by
  refine ignoresMarks_supported ?_
  cases bank.single with
  | none => exact ignoresMarks_raise _
  | some b => exact ignoresMarks_result fun _ _ _ => rfl

theorem ignoresMarks_getbounds (bank : BankSel) (chan : ChanSel) : IgnoresMarks (execGetbounds bank chan) :=
  ignoresMarks_supported (ignoresMarks_concrete (fun _ _ => ignoresMarks_result fun _ _ _ => rfl) bank chan)

theorem ignoresMarks_setbounds (bank : BankSel) (chan : ChanSel) (d0 d1 : Code) :
    IgnoresMarks (execSetbounds bank chan d0 d1) :=
  ignoresMarks_supported
    (ignoresMarks_concrete (fun _ _ => ignoresMarks_ok (fun _ _ _ => rfl) fun _ _ _ => rfl) bank chan)

theorem ignoresMarks_getref (bank : BankSel) : IgnoresMarks (execGetref bank) := by
  unfold execGetref
  cases bank.single with
  | none => exact ignoresMarks_raise _
  | some b => exact ignoresMarks_result fun _ _ _ => rfl

theorem ignoresMarks_setref (bank : BankSel) (v : Volts) : IgnoresMarks (execSetref bank v) := by
  refine ignoresMarks_withVolts (fun v' => ?_) v
  cases bank.single with
  | none => exact ignoresMarks_raise _
  | some b => exact ignoresMarks_ok (fun _ _ _ => rfl) fun _ _ _ => rfl

theorem ignoresMarks_v2c (bank : BankSel) (chan : ChanSel) (v : Volts) : IgnoresMarks (execV2c bank chan v) := by
  refine ignoresMarks_withVolts (fun v' => ignoresMarks_supported (ignoresMarks_concrete (fun b c s f r => ?_) bank chan)) v
  rw [State.withMarks_v2c]
  split
  · exact .next _ f r
  · exact ignoresMarks_numericDomain s f r

theorem ignoresMarks_c2v (bank : BankSel) (chan : ChanSel) (d0 : Code) : IgnoresMarks (execC2v bank chan d0) := by
  refine ignoresMarks_supported (ignoresMarks_concrete (fun b c s f r => ?_) bank chan)
  rw [State.withMarks_c2v]
  split
  · exact ignoresMarks_numericDomain s f r
  · exact .next _ f r

theorem ignoresMarks_encw (reg : RegSel) (bank : BankSel) (chan : ChanSel) (d0 : Code) :
    IgnoresMarks (execEncw reg bank chan d0) := by
  intro s f r
  rw [execEncw, execEncw, encodeWrite_withMarks]
  cases encodeWrite s reg bank chan d0 with
  | ok e => exact .next _ f r
  | error e => exact ignoresMarks_raise e s f r

theorem ignoresMarks_encr (rsel : ReadName) (bank : BankSel) (chan : ChanSel) :
    IgnoresMarks (execEncr rsel bank chan) := by
  intro s f r
  rw [execEncr, execEncr, State.withMarks_cfg]
  cases encodeRead s.cfg rsel bank chan with
  | ok w => exact .next _ f r
  | error e => exact ignoresMarks_raise e s f r

theorem ignoresMarks_write (reg : RegSel) (bank : BankSel) (chan : ChanSel) (d0 : Code) :
    IgnoresMarks (execWrite reg bank chan d0) := by
  intro s f r
  rw [execWrite, execWrite, encodeWrite_withMarks]
  cases encodeWrite s reg bank chan d0 with
  | ok e => exact ignoresMarks_commitWrite _ e s f r
  | error e => exact ignoresMarks_raise e s f r

theorem ignoresMarks_writev (bank : BankSel) (chan : ChanSel) (v : Volts) : IgnoresMarks (execWritev bank chan v) := by
  refine ignoresMarks_withVolts (fun v' => ignoresMarks_supported (ignoresMarks_concrete (fun b c s f r => ?_) bank chan)) v
  rw [State.withMarks_v2c, encodeWrite_withMarks]
  split
  · exact ignoresMarks_numericDomain s f r
  · split
    · exact ignoresMarks_commitWrite _ _ s f r
    · exact ignoresMarks_raise _ s f r

theorem ignoresMarks_readreq (rsel : ReadName) (bank : BankSel) (chan : ChanSel) :
    IgnoresMarks (execReadreq rsel bank chan) := by
  intro s f r
  rw [execReadreq, execReadreq, State.withMarks_cfg]
  cases encodeRead s.cfg rsel bank chan with
  | ok w => exact ignoresMarks_emit _ _ s f r
  | error e => exact ignoresMarks_raise e s f r

theorem ignoresMarks_reset : IgnoresMarks execReset :=
  ignoresMarks_supported (ignoresMarks_ok (fun _ _ _ => rfl) fun _ _ _ => rfl)

/-- No instruction reads a mark. -/
theorem ignoresMarks_exec (i : Instr) : IgnoresMarks (exec i) := by
  cases i with
  | get reg bank chan => exact ignoresMarks_get reg bank chan
  | set reg bank chan d0 => exact ignoresMarks_set reg bank chan d0
  | getgofs bank => exact ignoresMarks_getgofs bank
  | getbounds bank chan => exact ignoresMarks_getbounds bank chan
  | setbounds bank chan d0 d1 => exact ignoresMarks_setbounds bank chan d0 d1
  | getref bank => exact ignoresMarks_getref bank
  | setref bank v => exact ignoresMarks_setref bank v
  | v2c bank chan v => exact ignoresMarks_v2c bank chan v
  | c2v bank chan d0 => exact ignoresMarks_c2v bank chan d0
  | encw reg bank chan d0 => exact ignoresMarks_encw reg bank chan d0
  | encr rsel bank chan => exact ignoresMarks_encr rsel bank chan
  | write reg bank chan d0 => exact ignoresMarks_write reg bank chan d0
  | writev bank chan v => exact ignoresMarks_writev bank chan v
  | readreq rsel bank chan => exact ignoresMarks_readreq rsel bank chan
  | load => exact ignoresMarks_emit .unit .loadPulse
  | clear flag => exact ignoresMarks_emit .unit (.clear flag)
  | reset => exact ignoresMarks_reset
  | _ => exact ignoresMarks_sendCommand _

theorem AlikeButMarks.of_next {o : Out} (h : AlikeButMarks (.next t) o) : ∃ f r, o = .next (t.withMarks f r) := by
  cases h
  exact ⟨_, _, rfl⟩

theorem AlikeButMarks.of_refused {x : Refusal} {o : Out} (h : AlikeButMarks (.refused x) o) : o = .refused x := by
  cases h
  rfl

/-- Settles O56: an answer is alike but for the marks, a refusal the same. -/
theorem marksDoNotSteer : Obligations.MarksDoNotSteer := by
  intro s i f r
  have alike : AlikeButMarks (exec i s) (exec i (s.withMarks f r)) := ignoresMarks_exec i s f r
  refine ⟨fun t ht => ?_, fun e he => ?_⟩
  · rw [ht] at alike
    obtain ⟨f', r', hother⟩ := alike.of_next
    exact ⟨t.withMarks f' r', hother, rfl⟩
  · rw [he] at alike
    exact alike.of_refused

end Sys2Proof.Machine

/-! ## Proofs of 70_reset_and_hazards.md: a broadcast WRITE bypasses validation -/

namespace Sys2Proof.Machine

/-- ALL_CHANNELS names no single channel (R37, R52). -/
theorem not_concrete_all {cfg : Cfg} {bank : BankSel} {b : Bank} {c : Chan} : ¬ Concrete cfg bank .all b c := by
  rintro ⟨-, hchan, -⟩
  cases hchan

/-- The gate has no bounds to ask for at a broadcast address (R72, R102). -/
theorem State.gatePasses_all (s : State) (bank : BankSel) (d : Code) : s.GatePasses bank .all d :=
  fun _ _ _ hc => absurd hc not_concrete_all

/-- Settles O29: a broadcast passes the gate whatever the bounds, so its WRITE stores and emits as any WRITE does. -/
theorem broadcastBypassesValidation : Obligations.BroadcastBypassesValidation := by
  intro s reg k bank d0 _ hs hk hbank
  obtain ⟨w, t, hword, hexec, hframe, -, hcovered, -⟩ :=
    writeStoresAndEmits s reg k bank .all d0 hs hk (.inr ⟨rfl, hbank⟩) (s.gatePasses_all bank d0)
  have hevents : t.events = s.events ++ [.cmd w] := congrArg State.events hframe
  exact ⟨w, t, hword, hexec, hevents, fun b c hc hb => hcovered b c hc ⟨hb, .inr rfl⟩⟩

end Sys2Proof.Machine
